-- ==== Sys2Proof/Word.lean ====
section
/-! DEFINITION. The data widths of the block (00_scope.md R8). No field is signed. -/

namespace Sys2Proof

/-- A byte is 8 bits (R8). -/
abbrev Byte := BitVec 8

/-- A 16-bit field: ethertype, ARP types and opcode, lengths, checksums, echo id and sequence (R8). -/
abbrev Half := BitVec 16

/-- An IPv4 address is 32 bits (R8). -/
abbrev Ip := BitVec 32

/-- A MAC address is 48 bits (R8). -/
abbrev Mac := BitVec 48

/-- A byte string is a finite list of bytes, the byte at offset 0 first (R9). -/
abbrev Bytes := List Byte

end Sys2Proof
end

