-- ==== Sys2Proof/Config.lean ====
section
/-! DEFINITION. What one construction of the block fixes (00_scope.md R7), the statuses (60_exceptions.md R210),
and the values the spec leaves free. -/

namespace Sys2Proof

/-- `IPV4_REPLY_CSUM` (R7, R188). -/
inductive CsumMode where
  | zero
  | computed
  deriving DecidableEq, Repr

/-- The construction inputs (R7, R243). State holds one such record, no step writes it (R23, R244), and
every statement ranges over all of them. -/
structure Params where
  /-- `MY_MAC`, 48 bits. Every value is legal (R23). -/
  myMac : Mac
  /-- `MY_IP`, 32 bits. Every value is legal (R23). -/
  myIp : Ip
  /-- `ARP_CAP`, the number of CAM entries. -/
  arpCap : Nat
  /-- `RX_BUF_BYTES`, the largest inbound frame. -/
  rxBufBytes : Nat
  /-- `IPV4_REPLY_CSUM`. -/
  replyCsum : CsumMode
  deriving DecidableEq, Repr

/-- `TX_BUF_BYTES = max(60, RX_BUF_BYTES)` (R7; D4, log 18). -/
def Params.txBufBytes (p : Params) : Nat := max 60 p.rxBufBytes

/-- The duties of construction (R7, R243): `ARP_CAP >= 1` and `14 <= RX_BUF_BYTES <= 65549`. -/
abbrev Params.ok (p : Params) : Prop :=
  1 ≤ p.arpCap ∧ 14 ≤ p.rxBufBytes ∧ p.rxBufBytes ≤ 65549

/-- The level of a diagnostic event: "leveled text events (info/warn/error)" (R222). -/
inductive Level where
  | info
  | warn
  | error
  deriving DecidableEq, Repr, Inhabited

namespace Machine

/-- The layer a Malformed or Unsupported status names (R210). -/
inductive Layer where
  | eth
  | arpHeader
  | arpPayload
  | ipv4
  | icmp
  | echo
  deriving DecidableEq, Repr

/-- The enumerated field an Unsupported status names (R210). -/
inductive Field where
  | ethertype
  | hwtype
  | protype
  | opcode
  | icmpType
  deriving DecidableEq, Repr

/-- The statuses of R210, each with its recorded info. Status 8, Refused, is the `refused` outcome of a step
(R214) and no value here. Statuses 9 to 11 are reserved for the pool, which is out of scope (R5). -/
inductive Status where
  | ok
  | malformed (layer : Layer)
  | unsupported (layer : Layer) (field : Field) (value : Half)
  | bufferTooSmall (needed : Nat)
  | cacheFull (ip : Ip)
  | transportClosed
  | transportReadError
  | transportWriteError
  deriving DecidableEq, Repr, Inhabited

end Machine

/-- An informational event the block may emit and the spec does not require (R223). -/
structure InfoEvent where
  level : Level
  text : String
  deriving DecidableEq, Repr, Inhabited

namespace Config

/-- DESIGN CHOICE (log 1; unsafe for a claim that rests on these values): the construction State.reset
stands for. The identity and the mode are the test configuration of 95_test_vectors.md, ARP_CAP is the
reference sizing of R7, and RX_BUF_BYTES is the largest value R7 admits. -/
def reference : Params where
  myMac := 0x020000000002#48
  myIp := 0x0a000002#32
  arpCap := 32
  rxBufBytes := 65549
  replyCsum := .zero

/-- FREE VALUE (R223, I7; log 10): the optional informational events of the n-th burst. -/
opaque freeInfo : Nat → List InfoEvent

/-- FREE VALUE (I7; log 10): the level of the required event drawn n-th. -/
opaque freeLevel : Nat → Level

/-- FREE VALUE (I7; log 10): the text of the required event drawn n-th. -/
opaque freeText : Nat → String

/-- FREE VALUE (I1, R241; log 11): what `cam[i].hwtype` holds after reset. -/
opaque freeCamHwtype : Nat → Half

/-- FREE VALUE (I1, R241; log 11): what `cam[i].ip` holds after reset. -/
opaque freeCamIp : Nat → Ip

/-- FREE VALUE (I1, R241; log 11): what `cam[i].mac` holds after reset. -/
opaque freeCamMac : Nat → Mac

end Config

end Sys2Proof
end

