-- ==== Sys2Proof/Machine/Bytes.lean ====
section
/-! DEFINITION. Reading and writing byte strings: MemRead, MemWrite, be_n and slices (00_scope.md R9), all
big-endian (20_memory.md R50). -/

namespace Sys2Proof.Machine

/-- `MemRead(B, off, n)`: the most significant byte is `B[off]` (R9, R50). R9 defines it for
`off + n <= len(B)` only, and no rule reads it elsewhere (log 14). -/
def memRead (b : Bytes) (off n : Nat) : Nat :=
  ((b.drop off).take n).foldl (fun acc x => acc * 256 + x.toNat) 0

/-- `be_n(v)`: byte k is `(v >> (8*(n-1-k))) & 0xFF` (R9). -/
def be : Nat → Nat → Bytes
  | 0, _ => []
  | n + 1, v => BitVec.ofNat 8 (v >>> (8 * n)) :: be n v

/-- `MemWrite(B, off, n, v)`, for `off + n <= len(B)`: every other byte of B is unchanged (R9). -/
def memWrite (b : Bytes) (off n v : Nat) : Bytes :=
  b.take off ++ be n v ++ b.drop (off + n)

/-- `B[i..j)` (R9). -/
def slice (b : Bytes) (i j : Nat) : Bytes := (b.drop i).take (j - i)

/-- `zeros(n)` (R9). -/
def zeros (n : Nat) : Bytes := List.replicate n 0#8

/-- The 1-byte field at `off` (R53). -/
def rd8 (b : Bytes) (off : Nat) : Byte := b.getD off 0#8

/-- The 2-byte field at `off` (R53). -/
def rd16 (b : Bytes) (off : Nat) : Half := BitVec.ofNat 16 (memRead b off 2)

/-- The 4-byte field at `off` (R53). -/
def rd32 (b : Bytes) (off : Nat) : Ip := BitVec.ofNat 32 (memRead b off 4)

/-- The 6-byte field at `off` (R53). -/
def rd48 (b : Bytes) (off : Nat) : Mac := BitVec.ofNat 48 (memRead b off 6)

/-- `be_2` of a 16-bit field. -/
def be16 (v : Half) : Bytes := be 2 v.toNat

/-- `be_4` of an IPv4 address. -/
def be32 (v : Ip) : Bytes := be 4 v.toNat

/-- `be_6` of a MAC address. -/
def be48 (v : Mac) : Bytes := be 6 v.toNat

end Sys2Proof.Machine
end

