-- ==== Sys2Proof/Syntax.lean ====
section
/-! DEFINITION. The typed operands (30_encoding.md R78 to R82), the 21 frame classes (R83), the instruction
type with one constructor for each row of spec/opcode_table.json (R86 and R83), and the host stimuli (R87). -/

namespace Sys2Proof

/-- `ethertype` (R78). -/
inductive EtherType where
  | ipv4
  | arp
  | rarp
  deriving DecidableEq, Repr

/-- ARP `hwtype`: one known value (R79). -/
inductive HwType where
  | ethernet
  deriving DecidableEq, Repr

/-- ARP `protype`: one known value (R79). -/
inductive ProtoType where
  | ipv4
  deriving DecidableEq, Repr

/-- ARP `opcode` (R79). -/
inductive ArpOp where
  | arpRequest
  | arpReply
  | rarpRequest
  | rarpReply
  deriving DecidableEq, Repr

/-- ICMP `type` (R80). -/
inductive IcmpType where
  | echoReply
  | destinationUnreachable
  | echoRequest
  deriving DecidableEq, Repr

/-- Ethernet header (R71, R82). -/
structure EthHeader where
  dstMac : Mac
  srcMac : Mac
  ethertype : EtherType
  deriving DecidableEq, Repr

/-- ARP header (R72, R82). -/
structure ArpHeader where
  hwtype : HwType
  protype : ProtoType
  hwsize : Byte
  prosize : Byte
  opcode : ArpOp
  deriving DecidableEq, Repr

/-- ARP/IPv4 payload (R73, R82). -/
structure ArpPayload where
  smac : Mac
  sip : Ip
  dmac : Mac
  dip : Ip
  deriving DecidableEq, Repr

/-- IPv4 header (R74, R82); the packed fields are held whole (R75). -/
structure Ipv4Header where
  verIhl : Byte
  tos : Byte
  totalLen : Half
  id : Half
  flagsFrag : Half
  ttl : Byte
  proto : Byte
  checksum : Half
  src : Ip
  dst : Ip
  deriving DecidableEq, Repr

/-- ICMP header (R76, R82). -/
structure IcmpHeader where
  type : IcmpType
  code : Byte
  checksum : Half
  deriving DecidableEq, Repr

/-- ICMP echo sub-header (R77, R82). -/
structure EchoHeader where
  id : Half
  seq : Half
  deriving DecidableEq, Repr

/-- The 21 frame classes, in the order of the rows of R83. -/
inductive FrameClass where
  | ethShort
  | ethUnknown
  | ethRarp
  | arpShort
  | arpBadHw
  | arpBadPt
  | arpBadOp
  | arpPayloadShort
  | arpRequest
  | arpReply
  | rarpRequest
  | rarpReply
  | ipShort
  | ipNotMine
  | ipOtherProto
  | icmpShort
  | icmpUnknown
  | icmpEchoReply
  | icmpDestUnreach
  | echoShort
  | echoRequest
  deriving DecidableEq, Repr

/-- One constructor per row of spec/opcode_table.json: the 16 operations of R86, with the operands R86 and
their own rules give them (an encode's `dst` is the destination region as it stands before the operation),
and the 21 frame classes of R83, each with the frame it is the class of. -/
inductive Instr where
  | csum (b : Bytes)
  | ethDec (b : Bytes)
  | ethEnc (h : EthHeader) (dst : Bytes)
  | arphDec (b : Bytes)
  | arphEnc (h : ArpHeader) (dst : Bytes)
  | arppDec (b : Bytes)
  | arppEnc (h : ArpPayload) (dst : Bytes)
  | ip4Dec (b : Bytes)
  | ip4Enc (h : Ipv4Header) (dst : Bytes)
  | icmpDec (b : Bytes)
  | icmpEnc (h : IcmpHeader) (dst : Bytes)
  | echoDec (b : Bytes)
  | echoEnc (h : EchoHeader) (dst : Bytes)
  | camLookup (ip : Ip)
  | camUpsert (hw : HwType) (ip : Ip) (mac : Mac)
  | dispatch (f : Bytes)
  | fEthShort (f : Bytes)
  | fEthUnknown (f : Bytes)
  | fEthRarp (f : Bytes)
  | fArpShort (f : Bytes)
  | fArpBadHw (f : Bytes)
  | fArpBadPt (f : Bytes)
  | fArpBadOp (f : Bytes)
  | fArpPayloadShort (f : Bytes)
  | fArpRequest (f : Bytes)
  | fArpReply (f : Bytes)
  | fRarpRequest (f : Bytes)
  | fRarpReply (f : Bytes)
  | fIpShort (f : Bytes)
  | fIpNotMine (f : Bytes)
  | fIpOtherProto (f : Bytes)
  | fIcmpShort (f : Bytes)
  | fIcmpUnknown (f : Bytes)
  | fIcmpEchoReply (f : Bytes)
  | fIcmpDestUnreach (f : Bytes)
  | fEchoShort (f : Bytes)
  | fEchoRequest (f : Bytes)
  deriving DecidableEq, Repr

/-- A host stimulus (R87, R232). A program for this block is a sequence of them. `cmd` is an operation
issued through the platform's command register or test access: its operation code (R86) and then its
operand bytes. -/
inductive Stimulus where
  | rx (f : Bytes)
  | rxClose
  | rxError
  | txOk
  | txErr
  | cmd (b : Bytes)
  deriving DecidableEq, Repr

end Sys2Proof
end

