-- ==== Sys2Proof/Machine/Classify.lean ====
section
/-! DEFINITION. The dispatch opcode map: which of the 21 frame classes a frame is (30_encoding.md R83). -/

namespace Sys2Proof.Machine

/-- `ET = MemRead(F,12,2)` (R83). -/
def frameEt (f : Bytes) : Half := rd16 f 12

/-- `HW = MemRead(F,14,2)` (R83). -/
def frameHw (f : Bytes) : Half := rd16 f 14

/-- `PT = MemRead(F,16,2)` (R83). -/
def framePt (f : Bytes) : Half := rd16 f 16

/-- `OP = MemRead(F,20,2)` (R83). -/
def frameOp (f : Bytes) : Half := rd16 f 20

/-- `PR = F[23]` (R83). -/
def framePr (f : Bytes) : Byte := rd8 f 23

/-- `DST = MemRead(F,30,4)` (R83). -/
def frameDst (f : Bytes) : Ip := rd32 f 30

/-- `TY = F[34]` (R83). -/
def frameTy (f : Bytes) : Byte := rd8 f 34

/-- Rows 4 to 12 of R83, for a frame of at least 14 bytes whose ethertype is ARP. -/
def classOfArp (f : Bytes) : FrameClass :=
  if f.length < 22 then .arpShort
  else if frameHw f ≠ 1#16 then .arpBadHw
  else if framePt f ≠ 0x0800#16 then .arpBadPt
  else if frameOp f ≠ 1#16 ∧ frameOp f ≠ 2#16 ∧ frameOp f ≠ 3#16 ∧ frameOp f ≠ 4#16 then .arpBadOp
  else if f.length < 42 then .arpPayloadShort
  else if frameOp f = 1#16 then .arpRequest
  else if frameOp f = 2#16 then .arpReply
  else if frameOp f = 3#16 then .rarpRequest
  else .rarpReply

/-- Rows 13 to 21 of R83, for a frame of at least 14 bytes whose ethertype is IPv4. -/
def classOfIpv4 (myIp : Ip) (f : Bytes) : FrameClass :=
  if f.length < 34 then .ipShort
  else if frameDst f ≠ myIp then .ipNotMine
  else if framePr f ≠ 1#8 then .ipOtherProto
  else if f.length < 38 then .icmpShort
  else if frameTy f ≠ 0#8 ∧ frameTy f ≠ 3#8 ∧ frameTy f ≠ 8#8 then .icmpUnknown
  else if frameTy f = 0#8 then .icmpEchoReply
  else if frameTy f = 3#8 then .icmpDestUnreach
  else if f.length < 42 then .echoShort
  else .echoRequest

/-- The class of a frame: the first row of R83 whose condition holds. Rows 4 to 12 all ask for ethertype ARP
and rows 13 to 21 for IPv4, so the two groups are the two branches. The value 1 for ICMP in row 15 is the
spec's own general knowledge (R81, K2; log 17). -/
def classOf (myIp : Ip) (f : Bytes) : FrameClass :=
  if f.length < 14 then .ethShort
  else if frameEt f ≠ 0x0800#16 ∧ frameEt f ≠ 0x0806#16 ∧ frameEt f ≠ 0x8035#16 then .ethUnknown
  else if frameEt f = 0x8035#16 then .ethRarp
  else if frameEt f = 0x0806#16 then classOfArp f
  else classOfIpv4 myIp f

/-- The instruction a frame of a class is (one table row per class). -/
def instrOfClass : FrameClass → Bytes → Instr
  | .ethShort, f => .fEthShort f
  | .ethUnknown, f => .fEthUnknown f
  | .ethRarp, f => .fEthRarp f
  | .arpShort, f => .fArpShort f
  | .arpBadHw, f => .fArpBadHw f
  | .arpBadPt, f => .fArpBadPt f
  | .arpBadOp, f => .fArpBadOp f
  | .arpPayloadShort, f => .fArpPayloadShort f
  | .arpRequest, f => .fArpRequest f
  | .arpReply, f => .fArpReply f
  | .rarpRequest, f => .fRarpRequest f
  | .rarpReply, f => .fRarpReply f
  | .ipShort, f => .fIpShort f
  | .ipNotMine, f => .fIpNotMine f
  | .ipOtherProto, f => .fIpOtherProto f
  | .icmpShort, f => .fIcmpShort f
  | .icmpUnknown, f => .fIcmpUnknown f
  | .icmpEchoReply, f => .fIcmpEchoReply f
  | .icmpDestUnreach, f => .fIcmpDestUnreach f
  | .echoShort, f => .fEchoShort f
  | .echoRequest, f => .fEchoRequest f

/-- The lengths an inbound frame may have: `1 <= len(F) <= RX_BUF_BYTES` (R170, R246). -/
abbrev legalLength (rxBufBytes : Nat) (f : Bytes) : Prop :=
  1 ≤ f.length ∧ f.length ≤ rxBufBytes

end Sys2Proof.Machine
end

