-- ==== Sys2Proof/Decode.lean ====
section
/-! DEFINITION. Decoding a host stimulus to an instruction, total and rejecting by name, and encoding an
instruction as a stimulus. A frame on the receive port is decoded by the frame-class map R83. A command is
its operation code (R86) and its operand bytes; the spec gives the operands no layout, so the one below is
the model's: DESIGN CHOICE (log 4). It is: the integer fields of a header value in the order of R82, each
big-endian at its own width, then one byte for each enumerated field, the position of the value in the list
R82 gives it (from 0), then the byte string or destination region, which runs to the end of the command. -/

namespace Sys2Proof

open Sys2Proof.Machine

/-- Why a stimulus decodes to no instruction. -/
inductive Reject where
  /-- A command with no byte: it has no operation code. -/
  | noOperationCode
  /-- An operation code that R86 does not list. -/
  | reservedCode (code : Byte)
  /-- The operand bytes give no value of the operation's operand types (R214). -/
  | operandOutsideType (code : Byte)
  /-- A delivery whose length is outside 1..RX_BUF_BYTES (R246, I9). -/
  | frameLength (n : Nat)
  /-- RX CLOSE, RX ERROR, TXOK or TXERR: a stimulus that is no instruction (R87). -/
  | notAnInstruction
  deriving DecidableEq, Repr

/-- The operation codes of R86. -/
def opCsum : Byte := 0x01#8
def opEthDec : Byte := 0x10#8
def opEthEnc : Byte := 0x11#8
def opArphDec : Byte := 0x12#8
def opArphEnc : Byte := 0x13#8
def opArppDec : Byte := 0x14#8
def opArppEnc : Byte := 0x15#8
def opIp4Dec : Byte := 0x16#8
def opIp4Enc : Byte := 0x17#8
def opIcmpDec : Byte := 0x18#8
def opIcmpEnc : Byte := 0x19#8
def opEchoDec : Byte := 0x1A#8
def opEchoEnc : Byte := 0x1B#8
def opCamLookup : Byte := 0x20#8
def opCamUpsert : Byte := 0x21#8
def opDispatch : Byte := 0x30#8

/-- The operation codes R86 lists; every other code is reserved. -/
def operationCodes : List Byte :=
  [opCsum, opEthDec, opEthEnc, opArphDec, opArphEnc, opArppDec, opArppEnc, opIp4Dec, opIp4Enc,
    opIcmpDec, opIcmpEnc, opEchoDec, opEchoEnc, opCamLookup, opCamUpsert, opDispatch]

/-- The value at a position of R82's list for `EtherType`; no value beyond the list. -/
def etherTypeOfTag (t : Byte) : Option EtherType :=
  if t = 0#8 then some .ipv4 else if t = 1#8 then some .arp else if t = 2#8 then some .rarp else none

/-- The position of an `EtherType` in R82's list. -/
def tagOfEtherType : EtherType → Byte
  | .ipv4 => 0#8
  | .arp => 1#8
  | .rarp => 2#8

/-- `HwType` has the one value Ethernet (R82). -/
def hwTypeOfTag (t : Byte) : Option HwType := if t = 0#8 then some .ethernet else none

/-- The position of a `HwType` in R82's list. -/
def tagOfHwType : HwType → Byte
  | .ethernet => 0#8

/-- `ProtoType` has the one value IPv4 (R82). -/
def protoTypeOfTag (t : Byte) : Option ProtoType := if t = 0#8 then some .ipv4 else none

/-- The position of a `ProtoType` in R82's list. -/
def tagOfProtoType : ProtoType → Byte
  | .ipv4 => 0#8

/-- The value at a position of R82's list for `ArpOp`. -/
def arpOpOfTag (t : Byte) : Option ArpOp :=
  if t = 0#8 then some .arpRequest
  else if t = 1#8 then some .arpReply
  else if t = 2#8 then some .rarpRequest
  else if t = 3#8 then some .rarpReply
  else none

/-- The position of an `ArpOp` in R82's list. -/
def tagOfArpOp : ArpOp → Byte
  | .arpRequest => 0#8
  | .arpReply => 1#8
  | .rarpRequest => 2#8
  | .rarpReply => 3#8

/-- The value at a position of R82's list for `IcmpType`. -/
def icmpTypeOfTag (t : Byte) : Option IcmpType :=
  if t = 0#8 then some .echoReply
  else if t = 1#8 then some .destinationUnreachable
  else if t = 2#8 then some .echoRequest
  else none

/-- The position of an `IcmpType` in R82's list. -/
def tagOfIcmpType : IcmpType → Byte
  | .echoReply => 0#8
  | .destinationUnreachable => 1#8
  | .echoRequest => 2#8

/-- An `EthHeader` operand: 13 bytes. -/
def readEthOperand (b : Bytes) : Option (EthHeader × Bytes) :=
  if b.length < 13 then none
  else (etherTypeOfTag (rd8 b 12)).map fun t => (⟨rd48 b 0, rd48 b 6, t⟩, b.drop 13)

/-- An `ArpHeader` operand: 5 bytes. -/
def readArphOperand (b : Bytes) : Option (ArpHeader × Bytes) :=
  if b.length < 5 then none
  else match hwTypeOfTag (rd8 b 2), protoTypeOfTag (rd8 b 3), arpOpOfTag (rd8 b 4) with
    | some hw, some pt, some op => some (⟨hw, pt, rd8 b 0, rd8 b 1, op⟩, b.drop 5)
    | _, _, _ => none

/-- An `ArpPayload` operand: 20 bytes. -/
def readArppOperand (b : Bytes) : Option (ArpPayload × Bytes) :=
  if b.length < 20 then none
  else some (⟨rd48 b 0, rd32 b 6, rd48 b 10, rd32 b 16⟩, b.drop 20)

/-- An `Ipv4Header` operand: 20 bytes. -/
def readIp4Operand (b : Bytes) : Option (Ipv4Header × Bytes) :=
  if b.length < 20 then none
  else some (⟨rd8 b 0, rd8 b 1, rd16 b 2, rd16 b 4, rd16 b 6, rd8 b 8, rd8 b 9, rd16 b 10,
    rd32 b 12, rd32 b 16⟩, b.drop 20)

/-- An `IcmpHeader` operand: 4 bytes. -/
def readIcmpOperand (b : Bytes) : Option (IcmpHeader × Bytes) :=
  if b.length < 4 then none
  else (icmpTypeOfTag (rd8 b 3)).map fun t => (⟨t, rd8 b 0, rd16 b 1⟩, b.drop 4)

/-- An `EchoHeader` operand: 4 bytes. -/
def readEchoOperand (b : Bytes) : Option (EchoHeader × Bytes) :=
  if b.length < 4 then none else some (⟨rd16 b 0, rd16 b 2⟩, b.drop 4)

/-- The operands of CAM_LOOKUP: the address, 4 bytes. -/
def readLookupOperand (b : Bytes) : Option Ip :=
  if b.length = 4 then some (rd32 b 0) else none

/-- The operands of CAM_UPSERT: address 4 bytes, MAC 6 bytes, hardware type 1 byte. -/
def readUpsertOperand (b : Bytes) : Option (HwType × Ip × Mac) :=
  if b.length = 11 then (hwTypeOfTag (rd8 b 10)).map fun hw => (hw, rd32 b 0, rd48 b 4) else none

/-- An operation whose operands were read, or the rejection by name. -/
def withOperand {α : Type} (code : Byte) (o : Option α) (k : α → Instr) : Except Reject Instr :=
  match o with
  | some x => .ok (k x)
  | none => .error (.operandOutsideType code)

/-- A command after its operation code: the operation and its operands (R86). -/
def decodeOperation (c : Byte) (b : Bytes) : Except Reject Instr :=
  if c = opCsum then .ok (.csum b)
  else if c = opEthDec then .ok (.ethDec b)
  else if c = opEthEnc then withOperand c (readEthOperand b) fun o => .ethEnc o.1 o.2
  else if c = opArphDec then .ok (.arphDec b)
  else if c = opArphEnc then withOperand c (readArphOperand b) fun o => .arphEnc o.1 o.2
  else if c = opArppDec then .ok (.arppDec b)
  else if c = opArppEnc then withOperand c (readArppOperand b) fun o => .arppEnc o.1 o.2
  else if c = opIp4Dec then .ok (.ip4Dec b)
  else if c = opIp4Enc then withOperand c (readIp4Operand b) fun o => .ip4Enc o.1 o.2
  else if c = opIcmpDec then .ok (.icmpDec b)
  else if c = opIcmpEnc then withOperand c (readIcmpOperand b) fun o => .icmpEnc o.1 o.2
  else if c = opEchoDec then .ok (.echoDec b)
  else if c = opEchoEnc then withOperand c (readEchoOperand b) fun o => .echoEnc o.1 o.2
  else if c = opCamLookup then withOperand c (readLookupOperand b) .camLookup
  else if c = opCamUpsert then withOperand c (readUpsertOperand b) fun o => .camUpsert o.1 o.2.1 o.2.2
  else if c = opDispatch then .ok (.dispatch b)
  else .error (.reservedCode c)

/-- A command: its first byte is the operation code (R86). -/
def decodeCmd : Bytes → Except Reject Instr
  | [] => .error .noOperationCode
  | c :: b => decodeOperation c b

/-- A frame delivered on the receive port: the row of R83 it falls under (R170, R246). -/
def decodeRx (p : Params) (f : Bytes) : Except Reject Instr :=
  if legalLength p.rxBufBytes f then .ok (instrOfClass (classOf p.myIp f) f)
  else .error (.frameLength f.length)

/-- The instruction a host stimulus stands for. -/
def decode (p : Params) : Stimulus → Except Reject Instr
  | .rx f => decodeRx p f
  | .cmd b => decodeCmd b
  | .rxClose => .error .notAnInstruction
  | .rxError => .error .notAnInstruction
  | .txOk => .error .notAnInstruction
  | .txErr => .error .notAnInstruction

/-- The stimulus that issues an instruction: a command for the operations of R86, a delivered frame for the
frame classes of R83. -/
def encode : Instr → Stimulus
  | .csum b => .cmd (opCsum :: b)
  | .ethDec b => .cmd (opEthDec :: b)
  | .ethEnc h dst =>
    .cmd (opEthEnc :: (be48 h.dstMac ++ be48 h.srcMac ++ [tagOfEtherType h.ethertype] ++ dst))
  | .arphDec b => .cmd (opArphDec :: b)
  | .arphEnc h dst =>
    .cmd (opArphEnc :: ([h.hwsize, h.prosize, tagOfHwType h.hwtype, tagOfProtoType h.protype,
      tagOfArpOp h.opcode] ++ dst))
  | .arppDec b => .cmd (opArppDec :: b)
  | .arppEnc h dst =>
    .cmd (opArppEnc :: (be48 h.smac ++ be32 h.sip ++ be48 h.dmac ++ be32 h.dip ++ dst))
  | .ip4Dec b => .cmd (opIp4Dec :: b)
  | .ip4Enc h dst =>
    .cmd (opIp4Enc :: ([h.verIhl, h.tos] ++ be16 h.totalLen ++ be16 h.id ++ be16 h.flagsFrag ++
      [h.ttl, h.proto] ++ be16 h.checksum ++ be32 h.src ++ be32 h.dst ++ dst))
  | .icmpDec b => .cmd (opIcmpDec :: b)
  | .icmpEnc h dst =>
    .cmd (opIcmpEnc :: ([h.code] ++ be16 h.checksum ++ [tagOfIcmpType h.type] ++ dst))
  | .echoDec b => .cmd (opEchoDec :: b)
  | .echoEnc h dst => .cmd (opEchoEnc :: (be16 h.id ++ be16 h.seq ++ dst))
  | .camLookup ip => .cmd (opCamLookup :: be32 ip)
  | .camUpsert hw ip mac => .cmd (opCamUpsert :: (be32 ip ++ be48 mac ++ [tagOfHwType hw]))
  | .dispatch f => .cmd (opDispatch :: f)
  | .fEthShort f => .rx f
  | .fEthUnknown f => .rx f
  | .fEthRarp f => .rx f
  | .fArpShort f => .rx f
  | .fArpBadHw f => .rx f
  | .fArpBadPt f => .rx f
  | .fArpBadOp f => .rx f
  | .fArpPayloadShort f => .rx f
  | .fArpRequest f => .rx f
  | .fArpReply f => .rx f
  | .fRarpRequest f => .rx f
  | .fRarpReply f => .rx f
  | .fIpShort f => .rx f
  | .fIpNotMine f => .rx f
  | .fIpOtherProto f => .rx f
  | .fIcmpShort f => .rx f
  | .fIcmpUnknown f => .rx f
  | .fIcmpEchoReply f => .rx f
  | .fIcmpDestUnreach f => .rx f
  | .fEchoShort f => .rx f
  | .fEchoRequest f => .rx f

/-- The k bytes whose bits are w, the first byte in the least significant bits (the opcode table's bit
numbering). -/
def bytesOfBits : Nat → Nat → Bytes
  | 0, _ => []
  | k + 1, w => BitVec.ofNat 8 w :: bytesOfBits k (w / 256)

/-- How many operand bytes an operation's shortest complete command has when every byte string and
destination region is given the length its rule calls the fixed size (log 5). -/
def operandBytes (c : Byte) : Nat :=
  if c = opCsum then 2
  else if c = opEthDec then 14
  else if c = opEthEnc then 27
  else if c = opArphDec then 8
  else if c = opArphEnc then 13
  else if c = opArppDec then 20
  else if c = opArppEnc then 40
  else if c = opIp4Dec then 20
  else if c = opIp4Enc then 40
  else if c = opIcmpDec then 4
  else if c = opIcmpEnc then 8
  else if c = opEchoDec then 4
  else if c = opEchoEnc then 8
  else if c = opCamLookup then 4
  else if c = opCamUpsert then 11
  else if c = opDispatch then 60
  else 0

/-- The stimulus an opcode-table word stands for (log 5): a word of at most 32 bits is a command, its first
byte the operation code and the bytes above it zero up to `operandBytes`; a wider word is a received frame,
zero up to 60 bytes. -/
def wordStimulus (nbits w : Nat) : Stimulus :=
  if nbits ≤ 32 then
    .cmd (bytesOfBits (max ((nbits + 7) / 8) (1 + operandBytes (BitVec.ofNat 8 w))) (w % 2 ^ nbits))
  else
    .rx (bytesOfBits (max ((nbits + 7) / 8) 60) (w % 2 ^ nbits))

/-- An ARP reply of 42 bytes that announces a sender: R175 upserts exactly this key and MAC. -/
def announcement (ip : Ip) (mac : Mac) : Bytes :=
  zeros 6 ++ be48 mac ++ [0x08#8, 0x06#8, 0x00#8, 0x01#8, 0x08#8, 0x00#8, 0x06#8, 0x04#8, 0x00#8, 0x02#8] ++
    be48 mac ++ be32 ip ++ zeros 10

/-- The stimulus by which the host brings an instruction about (logs 5 and 8). The two operations it cannot issue
as a command come about on the receive port: DISPATCH F is the delivery of F (R170), and CAM_UPSERT is performed by
the dispatch step of an ARP frame from that sender (R175). -/
def placed : Instr → Stimulus
  | .dispatch f => .rx f
  | .camUpsert .ethernet ip mac => .rx (announcement ip mac)
  | i => encode i

/-- The stimulus that makes the next step run what an opcode-table word stands for (log 5). -/
def fetchStimulus (p : Params) (nbits w : Nat) : Stimulus :=
  match decode p (wordStimulus nbits w) with
  | .ok i => placed i
  | .error _ => wordStimulus nbits w

/-- The instruction the decoder reads from an opcode-table word, for the reference construction. -/
def decodeTableWord (nbits w : Nat) : Option Instr :=
  (decode Config.reference (wordStimulus nbits w)).toOption

end Sys2Proof
end

