-- ==== Sys2Proof/Machine/State.lean ====
section
/-! DEFINITION. The state of the block (10_state.md), the results its operations return (60_exceptions.md R210), the diagnostic events (R222, R223), the reasons a step can stop, and reset (R240). -/

namespace Sys2Proof.Machine

/-- The result that goes with a status: the "results" column of R86. -/
inductive OpValue where
  /-- The operation returned no value beside its status. -/
  | nothing
  | checksum (c : Half)
  | eth (h : EthHeader) (rest : Bytes)
  | arph (h : ArpHeader) (rest : Bytes)
  | arpp (h : ArpPayload) (rest : Bytes)
  | ip4 (h : Ipv4Header) (rest : Bytes)
  | icmp (h : IcmpHeader) (rest : Bytes)
  | echo (h : EchoHeader) (rest : Bytes)
  /-- An encode: the destination region after the operation and how many bytes were written (R117). -/
  | region (dst : Bytes) (written : Nat)
  | hit (mac : Mac)
  | miss
  | inserted (i : Nat)
  | updated (i : Nat)
  /-- DISPATCH: zero or one reply frame (R86, R170). -/
  | dispatched (reply : Option Bytes)
  deriving DecidableEq, Repr

/-- What an operation returns: exactly one status (R210), and its result. -/
structure OpReturn where
  status : Status
  value : OpValue
  deriving DecidableEq, Repr

/-- The diagnostic events the spec requires (R222). -/
inductive Diag where
  | malformed (layer : Layer)
  | unsupported (layer : Layer) (field : Field) (value : Half)
  | dropEthertype (value : Half)
  | cacheFull (ip : Ip)
  | writeError
  deriving DecidableEq, Repr

/-- What has left on the diagnostic port: a required event with its level and text (free, I7), or a burst of
permitted events, possibly empty (free, R223). -/
inductive DiagEntry where
  | required (d : Diag) (level : Level) (text : String)
  | permitted (events : List InfoEvent)
  deriving DecidableEq, Repr

/-- The dispatch sequencer's phase (R26). -/
inductive Phase where
  | waitRx
  | waitTx
  | stopped
  deriving DecidableEq, Repr

/-- One entry of the ARP CAM (R24). -/
structure CamEntry where
  valid : Bool
  hwtype : Half
  ip : Ip
  mac : Mac
  deriving DecidableEq, Repr

/-- The state of the block. -/
structure State where
  /-- MY_MAC, MY_IP and the other construction inputs (R23, R7). No step writes them. -/
  params : Params
  /-- The ARP CAM, `cam[0]` first (R24). -/
  cam : List CamEntry
  /-- R26. -/
  phase : Phase
  /-- The reply frame held for the transmit port (R27). -/
  pendingTx : Bytes
  /-- Ghost counter: inbound frames accepted (R29). -/
  kIn : Nat
  /-- Ghost counter: reply frames handed to the transmit port (R29). -/
  kOut : Nat
  /-- Output: the frames accepted by TXOK, oldest first (R201). Nothing reads it (log 12). -/
  txOut : List Bytes
  /-- Output: what has left on the diagnostic port, oldest first (R222, R223). Nothing reads it (log 12). -/
  diagOut : List DiagEntry
  /-- Output: what the operations returned, oldest first (R210). Nothing reads it (logs 9 and 12). -/
  opOut : List OpReturn
  /-- The model's own: the counter the free values of the diagnostic port are drawn with (log 10). -/
  draw : Nat
  /-- Input: the host stimuli not yet taken, the next one first (R87, R232; log 2). -/
  host : List Stimulus
  deriving DecidableEq, Repr

/-- What the processing of one frame decides: the reply or none, the required diagnostic events in order, and
the CAM it leaves (the result of the function of R200). -/
structure Verdict where
  reply : Option Bytes
  diags : List Diag
  cam : List CamEntry
  deriving DecidableEq, Repr

/-- Why the block has no step. -/
inductive Fault where
  /-- Raised by step in WAIT_RX when the host has delivered nothing more: the block is stuck in its wait (I8,
  R228). Safe: the hardware waits and changes nothing, and the model claims nothing of what comes after. -/
  | stuckInWaitRx
  /-- Raised by step in WAIT_TX when the host has not answered: the block is stuck in its wait (I8, R195).
  Safe, for the same reason. -/
  | stuckInWaitTx
  /-- Raised by step in STOPPED when no test access is pending: STOPPED is terminal, it has no enabled step
  (R197). Safe: that is the end of the run (R201). -/
  | stopped
  deriving DecidableEq, Repr

/-- Why a stimulus or an operation is refused (R214). A refusal writes nothing. Its recorded info is the code of the
operation refused (R210), where there is one. -/
inductive Refusal where
  /-- Raised by exec's arm of an instruction that has no meaning yet. Safe. -/
  | notModelled (mnemonic : String)
  /-- Raised at the operation boundary for a command with no byte (R214: there is no operation code in it).
  Safe: the hardware refuses it too. -/
  | noOperationCode
  /-- Raised at the operation boundary for a code R86 does not list (R86, R214). Safe: the hardware refuses it
  too. -/
  | reservedCode (code : Byte)
  /-- Raised at the operation boundary for operand bytes outside the operation's operand types (R214). Safe: the
  hardware refuses it too. -/
  | operandOutsideType (code : Byte)
  /-- Raised by DISPATCH, a frame class or the receive step for a frame whose length n is outside
  1..RX_BUF_BYTES (R214, R246, I9); the code is DISPATCH's. Safe: the hardware refuses it too. -/
  | frameLength (code : Byte) (n : Nat)
  /-- Raised by a frame-class instruction whose frame is of another class (R83, R214: an operand outside the
  type the operation takes); the code is DISPATCH's. Safe: step never raises it, since the decoder gives a frame
  its own class. -/
  | frameNotOfClass (code : Byte)
  /-- Raised by a test access, CAM_LOOKUP or a pure operation, while the phase is WAIT_TX (R155, R232, D30). Safe:
  the hardware refuses it too. -/
  | accessWhileSending (code : Byte)
  /-- Raised by step for a CAM_UPSERT or a DISPATCH issued as a command: only the dispatch step writes the CAM, and
  only the receive port supplies frames (R30, R155, R232, D30; log 8). Safe: the hardware refuses it too. -/
  | notExposed (code : Byte)
  /-- Raised by DISPATCH, a frame class and CAM_UPSERT outside WAIT_RX, the one phase in which the dispatch step
  runs (R155, R170). Safe. -/
  | notEnabled (code : Byte)
  /-- Raised by step for a stimulus that is no operation and that the phase gives no move: closure or a read error
  outside WAIT_RX, TXOK or TXERR outside WAIT_TX (R194, R197, R232; log 7). There is no operation code in it. Safe. -/
  | noMove
  deriving DecidableEq, Repr

/-- A free entry after reset: valid is 0, and the other fields hold what no rule reads (R240, R241; log 11). -/
def freeEntry (i : Nat) : CamEntry where
  valid := false
  hwtype := Config.freeCamHwtype i
  ip := Config.freeCamIp i
  mac := Config.freeCamMac i

/-- Construction, which is the block's only reset (R240, R243): every piece of state at its reset value. -/
def State.construct (p : Params) : State where
  params := p
  cam := (List.range p.arpCap).map freeEntry
  phase := .waitRx
  pendingTx := []
  kIn := 0
  kOut := 0
  txOut := []
  diagOut := []
  opOut := []
  draw := 0
  host := []

/-- The machine right after reset, for the reference construction (log 1). -/
def State.reset : State := State.construct Config.reference

end Sys2Proof.Machine
end

