-- ==== Sys2Proof/Machine/Operands.lean ====
section
/-! DEFINITION. The operand forms of the block: the enumerations' wire codes (30_encoding.md R78 to R80), the six
header formats (R71 to R77) as bytes and from bytes, and the decode and encode contracts (R116, R117). -/

namespace Sys2Proof.Machine

/-- The wire code of an ethertype (R78). -/
def EtherType.wire : EtherType → Half
  | .ipv4 => 0x0800#16
  | .arp => 0x0806#16
  | .rarp => 0x8035#16

/-- The ethertype of a wire code; every other value is unknown (R78). -/
def EtherType.ofWire (v : Half) : Option EtherType :=
  if v = 0x0800#16 then some .ipv4 else if v = 0x0806#16 then some .arp
  else if v = 0x8035#16 then some .rarp else none

/-- The wire code of a hardware type (R79). -/
def HwType.wire : HwType → Half
  | .ethernet => 1#16

/-- The hardware type of a wire code (R79). -/
def HwType.ofWire (v : Half) : Option HwType := if v = 1#16 then some .ethernet else none

/-- The wire code of a protocol type (R79). -/
def ProtoType.wire : ProtoType → Half
  | .ipv4 => 0x0800#16

/-- The protocol type of a wire code (R79). -/
def ProtoType.ofWire (v : Half) : Option ProtoType := if v = 0x0800#16 then some .ipv4 else none

/-- The wire code of an ARP opcode (R79). -/
def ArpOp.wire : ArpOp → Half
  | .arpRequest => 1#16
  | .arpReply => 2#16
  | .rarpRequest => 3#16
  | .rarpReply => 4#16

/-- The ARP opcode of a wire code (R79). -/
def ArpOp.ofWire (v : Half) : Option ArpOp :=
  if v = 1#16 then some .arpRequest else if v = 2#16 then some .arpReply
  else if v = 3#16 then some .rarpRequest else if v = 4#16 then some .rarpReply else none

/-- The wire code of an ICMP type (R80). -/
def IcmpType.wire : IcmpType → Byte
  | .echoReply => 0#8
  | .destinationUnreachable => 3#8
  | .echoRequest => 8#8

/-- The ICMP type of a wire code (R80). -/
def IcmpType.ofWire (v : Byte) : Option IcmpType :=
  if v = 0#8 then some .echoReply else if v = 3#8 then some .destinationUnreachable
  else if v = 8#8 then some .echoRequest else none

/-- The outcome of a decode (R116). -/
inductive Decoded (α : Type) where
  | ok (h : α) (rest : Bytes)
  | malformed (layer : Layer)
  | unsupported (layer : Layer) (field : Field) (value : Half)
  deriving DecidableEq, Repr

/-- The 14 bytes of an Ethernet header (R71, R111). -/
def ethBytes (h : EthHeader) : Bytes :=
  be48 h.dstMac ++ be48 h.srcMac ++ be16 (EtherType.wire h.ethertype)

/-- `ETH_DEC B` (R110). -/
def decodeEth (b : Bytes) : Decoded EthHeader :=
  if b.length < 14 then .malformed .eth
  else match EtherType.ofWire (rd16 b 12) with
    | none => .unsupported .eth .ethertype (rd16 b 12)
    | some t => .ok ⟨rd48 b 0, rd48 b 6, t⟩ (b.drop 14)

/-- The 8 bytes of an ARP header (R72, R113). -/
def arphBytes (h : ArpHeader) : Bytes :=
  be16 (HwType.wire h.hwtype) ++ be16 (ProtoType.wire h.protype) ++ [h.hwsize, h.prosize] ++
    be16 (ArpOp.wire h.opcode)

/-- `ARPH_DEC B` (R112): the enumerated fields are checked in offset order (R220). -/
def decodeArph (b : Bytes) : Decoded ArpHeader :=
  if b.length < 8 then .malformed .arpHeader
  else match HwType.ofWire (rd16 b 0) with
    | none => .unsupported .arpHeader .hwtype (rd16 b 0)
    | some hw => match ProtoType.ofWire (rd16 b 2) with
      | none => .unsupported .arpHeader .protype (rd16 b 2)
      | some pt => match ArpOp.ofWire (rd16 b 6) with
        | none => .unsupported .arpHeader .opcode (rd16 b 6)
        | some op => .ok ⟨hw, pt, rd8 b 4, rd8 b 5, op⟩ (b.drop 8)

/-- The 20 bytes of an ARP/IPv4 payload (R73, R115). -/
def arppBytes (h : ArpPayload) : Bytes :=
  be48 h.smac ++ be32 h.sip ++ be48 h.dmac ++ be32 h.dip

/-- `ARPP_DEC B` (R114). -/
def decodeArpp (b : Bytes) : Decoded ArpPayload :=
  if b.length < 20 then .malformed .arpPayload
  else .ok ⟨rd48 b 0, rd32 b 6, rd48 b 10, rd32 b 16⟩ (b.drop 20)

/-- The 20 bytes of an IPv4 header (R74, R131). -/
def ip4Bytes (h : Ipv4Header) : Bytes :=
  [h.verIhl, h.tos] ++ be16 h.totalLen ++ be16 h.id ++ be16 h.flagsFrag ++ [h.ttl, h.proto] ++
    be16 h.checksum ++ be32 h.src ++ be32 h.dst

/-- `IP4_DEC B` (R130). -/
def decodeIp4 (b : Bytes) : Decoded Ipv4Header :=
  if b.length < 20 then .malformed .ipv4
  else .ok ⟨rd8 b 0, rd8 b 1, rd16 b 2, rd16 b 4, rd16 b 6, rd8 b 8, rd8 b 9, rd16 b 10,
    rd32 b 12, rd32 b 16⟩ (b.drop 20)

/-- The derived views of the packed IPv4 fields (R75). Their bit positions are the spec's own general knowledge
(K1; log 16), and no rule of the block reads them. -/
def Ipv4Header.version (h : Ipv4Header) : BitVec 4 := h.verIhl.extractLsb' 4 4
def Ipv4Header.ihl (h : Ipv4Header) : BitVec 4 := h.verIhl.extractLsb' 0 4
def Ipv4Header.flags (h : Ipv4Header) : BitVec 3 := h.flagsFrag.extractLsb' 13 3
def Ipv4Header.fragOffset (h : Ipv4Header) : BitVec 13 := h.flagsFrag.extractLsb' 0 13

/-- The 4 bytes of an ICMP header (R76, R133). -/
def icmpBytes (h : IcmpHeader) : Bytes :=
  [IcmpType.wire h.type, h.code] ++ be16 h.checksum

/-- `ICMP_DEC B` (R132). -/
def decodeIcmp (b : Bytes) : Decoded IcmpHeader :=
  if b.length < 4 then .malformed .icmp
  else match IcmpType.ofWire (rd8 b 0) with
    | none => .unsupported .icmp .icmpType ((rd8 b 0).setWidth 16)
    | some t => .ok ⟨t, rd8 b 1, rd16 b 2⟩ (b.drop 4)

/-- The 4 bytes of an ICMP echo sub-header (R77, R135). -/
def echoBytes (h : EchoHeader) : Bytes := be16 h.id ++ be16 h.seq

/-- `ECHO_DEC B` (R134). -/
def decodeEcho (b : Bytes) : Decoded EchoHeader :=
  if b.length < 4 then .malformed .echo
  else .ok ⟨rd16 b 0, rd16 b 2⟩ (b.drop 4)

/-- What a decode operation returns (R116): its status, and on success the header value and the rest. -/
def Decoded.toReturn {α : Type} (wrap : α → Bytes → OpValue) : Decoded α → OpReturn
  | .ok h rest => ⟨.ok, wrap h rest⟩
  | .malformed l => ⟨.malformed l, .nothing⟩
  | .unsupported l f v => ⟨.unsupported l f v, .nothing⟩

/-- What an encode operation of a format of S bytes returns (R117): with fewer than S bytes of room,
BufferTooSmall and the region unchanged; otherwise the header's bytes over the first S bytes of the region. -/
def encodeInto (S : Nat) (header dst : Bytes) : OpReturn :=
  if dst.length < S then ⟨.bufferTooSmall S, .region dst 0⟩
  else ⟨.ok, .region (header ++ dst.drop S) S⟩

end Sys2Proof.Machine
end

