-- ==== Sys2Proof/Machine/Cam.lean ====
section
/-! DEFINITION. The ARP CAM's two operations on the array of entries (43_arp_cam.md R150, R152). -/

namespace Sys2Proof.Machine

/-- `cam[i].valid = 1 and cam[i].hwtype = hwtype and cam[i].ip = ip` (R150). -/
def CamEntry.hasKey (hw : Half) (ip : Ip) (e : CamEntry) : Bool :=
  e.valid && e.hwtype == hw && e.ip == ip

/-- `cam[i].valid = 1 and cam[i].ip = ip` (R152: hwtype is not compared). -/
def CamEntry.hasIp (ip : Ip) (e : CamEntry) : Bool := e.valid && e.ip == ip

/-- A free slot: `cam[i].valid = 0` (R24). -/
def CamEntry.isFree (e : CamEntry) : Bool := !e.valid

/-- `cam[i].mac <- mac`, the rest of the entry kept (R150). -/
def CamEntry.setMac (mac : Mac) (e : CamEntry) : CamEntry := { e with mac := mac }

/-- `CAM_UPSERT hwtype, ip, mac` on the entries (R150): update the first entry that holds the key, else fill the
first free slot, else CacheFull with no entry changed. -/
def camUpsert (cam : List CamEntry) (hw : Half) (ip : Ip) (mac : Mac) : OpReturn × List CamEntry :=
  match cam.findIdx? (CamEntry.hasKey hw ip) with
  | some i => (⟨.ok, .updated i⟩, cam.modify i (CamEntry.setMac mac))
  | none =>
    match cam.findIdx? CamEntry.isFree with
    | some i => (⟨.ok, .inserted i⟩, cam.set i ⟨true, hw, ip, mac⟩)
    | none => (⟨.cacheFull ip, .nothing⟩, cam)

/-- `CAM_LOOKUP ip` on the entries (R152): the MAC of the first valid entry that holds the address. -/
def camLookup (cam : List CamEntry) (ip : Ip) : Option Mac :=
  (cam.find? (CamEntry.hasIp ip)).map CamEntry.mac

end Sys2Proof.Machine
end

