-- ==== Sys2Proof/Machine/Ops.lean ====
section
/-! DEFINITION. The shared operations on the state: emitting diagnostics (60_exceptions.md R222, R223), answering
an operation (R210), ending a frame (44_dispatch.md R193), abandoning one, which is the block's trap (R213), and
the gates of the phase (R155, R170). -/

namespace Sys2Proof.Machine

/-- The diagnostic port's output for a step that requires these events, in order. Around each required event
stands a burst of permitted ones, whose presence and content are free, as are each event's level and text
(R222, R223, I7; log 10). -/
def diagEntries : Nat → List Diag → List DiagEntry
  | n, [] => [.permitted (Config.freeInfo n)]
  | n, d :: ds =>
    .permitted (Config.freeInfo n) :: .required d (Config.freeLevel n) (Config.freeText n) ::
      diagEntries (n + 1) ds

/-- The required events of a diagnostic output, in order (R222). -/
def requiredDiags : List DiagEntry → List Diag
  | [] => []
  | .required d _ _ :: es => d :: requiredDiags es
  | .permitted _ :: es => requiredDiags es

/-- `emit Diag(...)` for the required events of a step. Nothing else of the state depends on it (R224). -/
def State.emit (ds : List Diag) (s : State) : State :=
  { s with diagOut := s.diagOut ++ diagEntries s.draw ds, draw := s.draw + ds.length + 1 }

/-- An operation returns its status and result (R210, R22). No required event belongs to it. -/
def State.answer (r : OpReturn) (s : State) : State :=
  { s.emit [] with opOut := s.opOut ++ [r] }

/-- A test access, CAM_LOOKUP or a pure operation, is taken in WAIT_RX and STOPPED, and refused in WAIT_TX (R155,
R232, D30; log 8). -/
def testAccess (code : Byte) (s : State) (t : State) : Host.Outcome State Fault Refusal :=
  match s.phase with
  | .waitTx => .refused (.accessWhileSending code)
  | .waitRx => .next t
  | .stopped => .next t

/-- An operation internal to the dispatch step runs in WAIT_RX, the one phase in which that step runs (R30, R155,
R170; log 8). -/
def duringDispatch (code : Byte) (s : State) (t : State) : Host.Outcome State Fault Refusal :=
  match s.phase with
  | .waitRx => .next t
  | .waitTx => .refused (.notEnabled code)
  | .stopped => .refused (.notEnabled code)

/-- An operation that writes no state returns `r` (R54, R212). -/
def returns (code : Byte) (r : OpReturn) (s : State) : Host.Outcome State Fault Refusal :=
  testAccess code s (s.answer r)

/-- The phase after a frame: WAIT_TX exactly when there is a reply (R193). -/
def phaseAfter : Option Bytes → Phase
  | some _ => .waitTx
  | none => .waitRx

/-- The outcome of the dispatch step (R193): the CAM as the frame left it, the reply in `pending_tx`, the phase,
`k_in + 1`, the required events emitted, and DISPATCH's own return, whose status is OK: every path of R200 returns,
and no other status is DISPATCH's to raise (R9, R210, R211, R215 to R217; log 9). -/
def State.endFrame (v : Verdict) (s : State) : State :=
  { s.emit v.diags with
    cam := v.cam
    pendingTx := v.reply.getD []
    phase := phaseAfter v.reply
    kIn := s.kIn + 1
    opOut := s.opOut ++ [⟨.ok, .dispatched v.reply⟩] }

/-- ABANDON, the block's trap entry (R213, R192): no reply, one diagnostic event, the CAM as it stands. The
phase it leaves, WAIT_RX, is `endFrame`'s for a verdict without reply. Nothing is saved, and the return from it
is no operation: the block takes its next frame (R225). -/
def abandonFrame (d : Diag) (cam : List CamEntry) : Verdict := ⟨none, [d], cam⟩

/-- Drop: no reply, no CAM change, no required event (R12, R182, R183, R189, R191). -/
def dropFrame (cam : List CamEntry) : Verdict := ⟨none, [], cam⟩

/-- The diagnostic event an upsert inside DISPATCH requires: CacheFull is reported and processing goes on
(R151, R175, R217). -/
def upsertDiags : OpReturn → List Diag
  | ⟨.cacheFull ip, _⟩ => [.cacheFull ip]
  | _ => []

/-- DISPATCH and the frame classes are enabled only in WAIT_RX, on a frame of legal length (R170, R246). -/
def acceptFrame (f : Bytes) (s : State) (t : Host.Outcome State Fault Refusal) :
    Host.Outcome State Fault Refusal :=
  if s.phase ≠ .waitRx then .refused (.notEnabled opDispatch)
  else if legalLength s.params.rxBufBytes f then t
  else .refused (.frameLength opDispatch f.length)

/-- A frame-class instruction runs on a frame of its own class (R83), and ends as the class's rules say. -/
def runClass (c : FrameClass) (f : Bytes) (s : State) (v : Verdict) : Host.Outcome State Fault Refusal :=
  acceptFrame f s
    (if classOf s.params.myIp f = c then .next (s.endFrame v) else .refused (.frameNotOfClass opDispatch))

/-- Closure or a read error ends the run (R196, R218): STOPPED, and everything else kept. -/
def State.stop (s : State) : State := { s.emit [] with phase := .stopped }

/-- TXOK (R195): the frame has left, `k_out + 1`, back to WAIT_RX. -/
def State.sent (s : State) : State :=
  { s.emit [] with
    kOut := s.kOut + 1
    txOut := s.txOut ++ [s.pendingTx]
    pendingTx := []
    phase := .waitRx }

/-- TXERR (R195, R219): the write error is logged, the reply dropped, back to WAIT_RX. -/
def State.sendFailed (s : State) : State :=
  { s.emit [.writeError] with pendingTx := [], phase := .waitRx }

end Sys2Proof.Machine
end

