-- ==== Sys2Proof/Machine/CamOps.lean ====
section
/-! DEFINITION. The ARP CAM's operations (43_arp_cam.md R150, R152, R155). -/

namespace Sys2Proof.Machine

/-- What CAM_LOOKUP returns: always OK, HIT or MISS (R152). -/
def lookupReturn : Option Mac → OpReturn
  | some mac => ⟨.ok, .hit mac⟩
  | none => ⟨.ok, .miss⟩

/-- `CAM_LOOKUP ip` (R152): no state written. -/
def execCamLookup (ip : Ip) (s : State) : Host.Outcome State Fault Refusal :=
  returns opCamLookup (lookupReturn (camLookup s.cam ip)) s

/-- `CAM_UPSERT hwtype, ip, mac` (R150), an operation internal to the dispatch step: a step refuses it as a command
(R30, R155, R232, D30; log 8) and performs it on the ARP frames of R175. -/
def execCamUpsert (hw : HwType) (ip : Ip) (mac : Mac) (s : State) : Host.Outcome State Fault Refusal :=
  let r := camUpsert s.cam (HwType.wire hw) ip mac
  duringDispatch opCamUpsert s { s.answer r.1 with cam := r.2 }

end Sys2Proof.Machine
end

