-- ==== Sys2Proof/Machine/Checksum.lean ====
section
/-! DEFINITION. The checksum engine (40_checksum.md). -/

namespace Sys2Proof.Machine

/-- The exact sum of the big-endian 16-bit words, an odd last byte padded with a zero byte (R100). -/
def wordSum : Bytes → Nat
  | [] => 0
  | [b] => b.toNat <<< 8
  | b0 :: b1 :: t => (b0.toNat * 256 + b1.toNat) + wordSum t

/-- `while s > 0xFFFF: s <- (s & 0xFFFF) + (s >> 16)` (R100). Each pass lowers s, so s passes are always enough
(log 15). -/
def foldCarry : Nat → Nat → Nat
  | 0, s => s
  | k + 1, s => if s > 0xFFFF then foldCarry k ((s &&& 0xFFFF) + (s >>> 16)) else s

/-- The Internet checksum of a byte string (R100). -/
def internetChecksum (b : Bytes) : Half :=
  ~~~ BitVec.ofNat 16 (foldCarry (wordSum b) (wordSum b))

/-- `CSUM B` (R100): always OK, no state written. -/
def execCsum (b : Bytes) (s : State) : Host.Outcome State Fault Refusal :=
  returns opCsum ⟨.ok, .checksum (internetChecksum b)⟩ s

end Sys2Proof.Machine
end

