-- ==== Sys2Proof/Machine/CodecLink.lean ====
section
/-! DEFINITION. The frame codec's operations on the link layer: Ethernet, ARP header, ARP/IPv4 payload
(41_codec_link.md R110 to R117). None of them writes state. -/

namespace Sys2Proof.Machine

/-- `ETH_DEC B` (R110). -/
def execEthDec (b : Bytes) (s : State) : Host.Outcome State Fault Refusal :=
  returns opEthDec ((decodeEth b).toReturn .eth) s

/-- `ETH_ENC h, Dst` (R111). -/
def execEthEnc (h : EthHeader) (dst : Bytes) (s : State) : Host.Outcome State Fault Refusal :=
  returns opEthEnc (encodeInto 14 (ethBytes h) dst) s

/-- `ARPH_DEC B` (R112). -/
def execArphDec (b : Bytes) (s : State) : Host.Outcome State Fault Refusal :=
  returns opArphDec ((decodeArph b).toReturn .arph) s

/-- `ARPH_ENC h, Dst` (R113). -/
def execArphEnc (h : ArpHeader) (dst : Bytes) (s : State) : Host.Outcome State Fault Refusal :=
  returns opArphEnc (encodeInto 8 (arphBytes h) dst) s

/-- `ARPP_DEC B` (R114). -/
def execArppDec (b : Bytes) (s : State) : Host.Outcome State Fault Refusal :=
  returns opArppDec ((decodeArpp b).toReturn .arpp) s

/-- `ARPP_ENC h, Dst` (R115). -/
def execArppEnc (h : ArpPayload) (dst : Bytes) (s : State) : Host.Outcome State Fault Refusal :=
  returns opArppEnc (encodeInto 20 (arppBytes h) dst) s

end Sys2Proof.Machine
end

