-- ==== Sys2Proof/Machine/CodecNetwork.lean ====
section
/-! DEFINITION. The frame codec's operations on the network layer: IPv4, ICMP, ICMP echo
(42_codec_network.md R130 to R135; 41_codec_link.md R116, R117). None of them writes state. -/

namespace Sys2Proof.Machine

/-- `IP4_DEC B` (R130). -/
def execIp4Dec (b : Bytes) (s : State) : Host.Outcome State Fault Refusal :=
  returns opIp4Dec ((decodeIp4 b).toReturn .ip4) s

/-- `IP4_ENC h, Dst` (R131). -/
def execIp4Enc (h : Ipv4Header) (dst : Bytes) (s : State) : Host.Outcome State Fault Refusal :=
  returns opIp4Enc (encodeInto 20 (ip4Bytes h) dst) s

/-- `ICMP_DEC B` (R132). -/
def execIcmpDec (b : Bytes) (s : State) : Host.Outcome State Fault Refusal :=
  returns opIcmpDec ((decodeIcmp b).toReturn .icmp) s

/-- `ICMP_ENC h, Dst` (R133). -/
def execIcmpEnc (h : IcmpHeader) (dst : Bytes) (s : State) : Host.Outcome State Fault Refusal :=
  returns opIcmpEnc (encodeInto 4 (icmpBytes h) dst) s

/-- `ECHO_DEC B` (R134). -/
def execEchoDec (b : Bytes) (s : State) : Host.Outcome State Fault Refusal :=
  returns opEchoDec ((decodeEcho b).toReturn .echo) s

/-- `ECHO_ENC h, Dst` (R135). -/
def execEchoEnc (h : EchoHeader) (dst : Bytes) (s : State) : Host.Outcome State Fault Refusal :=
  returns opEchoEnc (encodeInto 4 (echoBytes h) dst) s

end Sys2Proof.Machine
end

