-- ==== Sys2Proof/Machine/DispatchMux.lean ====
section
/-! DEFINITION. The dispatch multiplexer as one function over the codec (44_dispatch.md R170 to R193, R200). -/

namespace Sys2Proof.Machine

/-- A decode inside DISPATCH: on success processing goes on, and on Malformed or Unsupported the frame is
abandoned (R192, R213). -/
def Decoded.orAbandon {α : Type} (d : Decoded α) (cam : List CamEntry) (k : α → Bytes → Verdict) : Verdict :=
  match d with
  | .ok h rest => k h rest
  | .malformed l => abandonFrame (.malformed l) cam
  | .unsupported l f v => abandonFrame (.unsupported l f v) cam

/-- The ARP reply frame (R176): the sender's own address in the Ethernet destination, sizes copied from the
request, sender fields the block's own, target fields the request's sender, 18 zero bytes. -/
def arpReplyOf (p : Params) (ah : ArpHeader) (ap : ArpPayload) : Bytes :=
  ethBytes ⟨ap.smac, p.myMac, .arp⟩ ++
    arphBytes ⟨ah.hwtype, ah.protype, ah.hwsize, ah.prosize, .arpReply⟩ ++
    arppBytes ⟨p.myMac, p.myIp, ap.smac, ap.sip⟩ ++ zeros 18

/-- The ARP path (R173 to R177), on the bytes after the Ethernet header. -/
def dispatchArp (p : Params) (cam : List CamEntry) (r1 : Bytes) : Verdict :=
  (decodeArph r1).orAbandon cam fun ah r2 =>
    (decodeArpp r2).orAbandon cam fun ap _ =>
      let r := camUpsert cam (HwType.wire ah.hwtype) ap.sip ap.smac
      match ah.opcode with
      | .arpRequest => ⟨some (arpReplyOf p ah ap), upsertDiags r.1, r.2⟩
      | .arpReply => ⟨none, upsertDiags r.1, r.2⟩
      | .rarpRequest => ⟨none, upsertDiags r.1, r.2⟩
      | .rarpReply => ⟨none, upsertDiags r.1, r.2⟩

/-- The ICMP message of the echo reply (R186): type EchoReply, code 0, the checksum over the whole message with
its own field zero. -/
def echoMessage (eh : EchoHeader) (payload : Bytes) : Bytes :=
  icmpBytes ⟨.echoReply, 0#8,
      internetChecksum ([0#8, 0#8, 0#8, 0#8] ++ be16 eh.id ++ be16 eh.seq ++ payload)⟩ ++
    echoBytes eh ++ payload

/-- The IPv4 header of the echo reply with its checksum field zero (R187): source and destination swapped, the
length recomputed, everything else copied. -/
def replyIp4 (iph : Ipv4Header) (payload : Bytes) : Ipv4Header :=
  { iph with
    src := iph.dst
    dst := iph.src
    totalLen := BitVec.ofNat 16 ((28 + payload.length) % 65536)
    checksum := 0#16 }

/-- The checksum field of the reply's IPv4 header: left zero, or computed over the header (R188). -/
def sealIp4 (m : CsumMode) (h : Ipv4Header) : Ipv4Header :=
  match m with
  | .zero => h
  | .computed => { h with checksum := internetChecksum (ip4Bytes h) }

/-- The echo reply frame for the resolved peer (R190). -/
def echoReplyOf (p : Params) (peer : Mac) (iph : Ipv4Header) (eh : EchoHeader) (payload : Bytes) : Bytes :=
  ethBytes ⟨peer, p.myMac, .ipv4⟩ ++ ip4Bytes (sealIp4 p.replyCsum (replyIp4 iph payload)) ++
    echoMessage eh payload

/-- Next-hop resolution (R189): a miss discards the reply silently, a hit sends it. -/
def echoVerdict (p : Params) (cam : List CamEntry) (iph : Ipv4Header) (eh : EchoHeader) (payload : Bytes) :
    Verdict :=
  match camLookup cam iph.src with
  | none => dropFrame cam
  | some peer => ⟨some (echoReplyOf p peer iph eh payload), [], cam⟩

/-- The IPv4 path (R180 to R191), on the bytes after the Ethernet header. ICMP is protocol 1 (R81, K2;
log 17). -/
def dispatchIpv4 (p : Params) (cam : List CamEntry) (r1 : Bytes) : Verdict :=
  (decodeIp4 r1).orAbandon cam fun iph r2 =>
    if iph.dst ≠ p.myIp then dropFrame cam
    else if iph.proto ≠ 1#8 then dropFrame cam
    else (decodeIcmp r2).orAbandon cam fun ih r3 =>
      match ih.type with
      | .echoReply => dropFrame cam
      | .destinationUnreachable => dropFrame cam
      | .echoRequest => (decodeEcho r3).orAbandon cam fun eh payload => echoVerdict p cam iph eh payload

/-- The dispatch function (R200): the reply or none, the required events, and the CAM. There is no filter on the
Ethernet destination (R171). -/
def dispatchFrame (p : Params) (cam : List CamEntry) (f : Bytes) : Verdict :=
  (decodeEth f).orAbandon cam fun eth r1 =>
    match eth.ethertype with
    | .rarp => ⟨none, [.dropEthertype (EtherType.wire .rarp)], cam⟩
    | .arp => dispatchArp p cam r1
    | .ipv4 => dispatchIpv4 p cam r1

/-- `DISPATCH F` (R170, R193). -/
def execDispatch (f : Bytes) (s : State) : Host.Outcome State Fault Refusal :=
  acceptFrame f s (.next (s.endFrame (dispatchFrame s.params s.cam f)))

end Sys2Proof.Machine
end

