-- ==== Sys2Proof/Machine/FrameClasses.lean ====
section
/-! DEFINITION. The 21 frame classes (30_encoding.md R83), each with the effect its row and its rules give it,
written over the frame's absolute offsets (R70, R178, R190). That DISPATCH (DispatchMux.lean) has on every
frame the effect of the frame's class is a statement, not a definition. -/

namespace Sys2Proof.Machine

/-- Row 1: abandon, Malformed(eth) (R171). -/
def execFEthShort (f : Bytes) (s : State) : Host.Outcome State Fault Refusal :=
  runClass .ethShort f s (abandonFrame (.malformed .eth) s.cam)

/-- Row 2: abandon, Unsupported(ethertype) (R171). -/
def execFEthUnknown (f : Bytes) (s : State) : Host.Outcome State Fault Refusal :=
  runClass .ethUnknown f s (abandonFrame (.unsupported .eth .ethertype (frameEt f)) s.cam)

/-- Row 3: drop, logged (R172). -/
def execFEthRarp (f : Bytes) (s : State) : Host.Outcome State Fault Refusal :=
  runClass .ethRarp f s ⟨none, [.dropEthertype 0x8035#16], s.cam⟩

/-- Row 4: abandon, Malformed(arp_header) (R173). -/
def execFArpShort (f : Bytes) (s : State) : Host.Outcome State Fault Refusal :=
  runClass .arpShort f s (abandonFrame (.malformed .arpHeader) s.cam)

/-- Row 5: abandon, Unsupported(hwtype) (R173). -/
def execFArpBadHw (f : Bytes) (s : State) : Host.Outcome State Fault Refusal :=
  runClass .arpBadHw f s (abandonFrame (.unsupported .arpHeader .hwtype (frameHw f)) s.cam)

/-- Row 6: abandon, Unsupported(protype) (R173). -/
def execFArpBadPt (f : Bytes) (s : State) : Host.Outcome State Fault Refusal :=
  runClass .arpBadPt f s (abandonFrame (.unsupported .arpHeader .protype (framePt f)) s.cam)

/-- Row 7: abandon, Unsupported(opcode) (R173). -/
def execFArpBadOp (f : Bytes) (s : State) : Host.Outcome State Fault Refusal :=
  runClass .arpBadOp f s (abandonFrame (.unsupported .arpHeader .opcode (frameOp f)) s.cam)

/-- Row 8: abandon, Malformed(arp_payload) (R174). -/
def execFArpPayloadShort (f : Bytes) (s : State) : Host.Outcome State Fault Refusal :=
  runClass .arpPayloadShort f s (abandonFrame (.malformed .arpPayload) s.cam)

/-- The upsert of an ARP frame's sender: `CAM_UPSERT Ethernet, F[28..32), F[22..28)` (R175). -/
def senderUpsert (f : Bytes) (cam : List CamEntry) : OpReturn × List CamEntry :=
  camUpsert cam 1#16 (rd32 f 28) (rd48 f 22)

/-- The ARP reply frame by absolute offset: the table of R178. -/
def arpReplyLayout (p : Params) (f : Bytes) : Bytes :=
  slice f 22 28 ++ be48 p.myMac ++ [0x08#8, 0x06#8] ++ [0x00#8, 0x01#8] ++ [0x08#8, 0x00#8] ++ slice f 18 20 ++
    [0x00#8, 0x02#8] ++ be48 p.myMac ++ be32 p.myIp ++ slice f 22 28 ++ slice f 28 32 ++ zeros 18

/-- Row 9: upsert the sender, then send the ARP reply, whatever the target address (R175, R176, R179), and even
when the CAM is full (R151). -/
def execFArpRequest (f : Bytes) (s : State) : Host.Outcome State Fault Refusal :=
  let r := senderUpsert f s.cam
  runClass .arpRequest f s ⟨some (arpReplyLayout s.params f), upsertDiags r.1, r.2⟩

/-- Row 10: upsert the sender only (R175, R177). -/
def execFArpReply (f : Bytes) (s : State) : Host.Outcome State Fault Refusal :=
  let r := senderUpsert f s.cam
  runClass .arpReply f s ⟨none, upsertDiags r.1, r.2⟩

/-- Row 11: upsert the sender only (R175, R177). -/
def execFRarpRequest (f : Bytes) (s : State) : Host.Outcome State Fault Refusal :=
  let r := senderUpsert f s.cam
  runClass .rarpRequest f s ⟨none, upsertDiags r.1, r.2⟩

/-- Row 12: upsert the sender only (R175, R177). -/
def execFRarpReply (f : Bytes) (s : State) : Host.Outcome State Fault Refusal :=
  let r := senderUpsert f s.cam
  runClass .rarpReply f s ⟨none, upsertDiags r.1, r.2⟩

/-- Row 13: abandon, Malformed(ipv4) (R180). -/
def execFIpShort (f : Bytes) (s : State) : Host.Outcome State Fault Refusal :=
  runClass .ipShort f s (abandonFrame (.malformed .ipv4) s.cam)

/-- Row 14: drop (R182). -/
def execFIpNotMine (f : Bytes) (s : State) : Host.Outcome State Fault Refusal :=
  runClass .ipNotMine f s (dropFrame s.cam)

/-- Row 15: drop (R183). -/
def execFIpOtherProto (f : Bytes) (s : State) : Host.Outcome State Fault Refusal :=
  runClass .ipOtherProto f s (dropFrame s.cam)

/-- Row 16: abandon, Malformed(icmp) (R184). -/
def execFIcmpShort (f : Bytes) (s : State) : Host.Outcome State Fault Refusal :=
  runClass .icmpShort f s (abandonFrame (.malformed .icmp) s.cam)

/-- Row 17: abandon, Unsupported(icmp type) (R184). -/
def execFIcmpUnknown (f : Bytes) (s : State) : Host.Outcome State Fault Refusal :=
  runClass .icmpUnknown f s (abandonFrame (.unsupported .icmp .icmpType ((frameTy f).setWidth 16)) s.cam)

/-- Row 18: drop, no action (R191). -/
def execFIcmpEchoReply (f : Bytes) (s : State) : Host.Outcome State Fault Refusal :=
  runClass .icmpEchoReply f s (dropFrame s.cam)

/-- Row 19: drop, no action (R191). -/
def execFIcmpDestUnreach (f : Bytes) (s : State) : Host.Outcome State Fault Refusal :=
  runClass .icmpDestUnreach f s (dropFrame s.cam)

/-- Row 20: abandon, Malformed(echo) (R185). -/
def execFEchoShort (f : Bytes) (s : State) : Host.Outcome State Fault Refusal :=
  runClass .echoShort f s (abandonFrame (.malformed .echo) s.cam)

/-- The echo reply's IPv4 header by absolute offset, with this checksum field: bytes 14 to 33 of R190's table. -/
def echoIp4Layout (f : Bytes) (csum : Half) : Bytes :=
  slice f 14 16 ++ be 2 ((f.length - 14) % 65536) ++ slice f 18 24 ++ be16 csum ++ slice f 30 34 ++
    slice f 26 30

/-- The echo reply's IPv4 checksum field (R188). -/
def echoIp4Csum (m : CsumMode) (f : Bytes) : Half :=
  match m with
  | .zero => 0#16
  | .computed => internetChecksum (echoIp4Layout f 0#16)

/-- The echo reply frame by absolute offset: the table of R190. -/
def echoReplyLayout (p : Params) (peer : Mac) (f : Bytes) : Bytes :=
  be48 peer ++ be48 p.myMac ++ [0x08#8, 0x00#8] ++ echoIp4Layout f (echoIp4Csum p.replyCsum f) ++
    [0x00#8, 0x00#8] ++ be16 (internetChecksum (zeros 4 ++ f.drop 38)) ++ slice f 38 42 ++ f.drop 42

/-- Row 21: build the echo reply and send it if the CAM holds the IPv4 source, else discard it silently
(R185 to R190). -/
def execFEchoRequest (f : Bytes) (s : State) : Host.Outcome State Fault Refusal :=
  runClass .echoRequest f s
    (match camLookup s.cam (rd32 f 26) with
      | none => dropFrame s.cam
      | some peer => ⟨some (echoReplyLayout s.params peer f), [], s.cam⟩)

end Sys2Proof.Machine
end

