-- ==== Sys2Proof/Machine/Dispatch.lean ====
section
/-! DEFINITION. What one instruction does: one arm per row of spec/opcode_table.json. -/

namespace Sys2Proof.Machine

def exec (i : Instr) (s : State) : Host.Outcome State Fault Refusal :=
  match i with
  | .csum b => Sys2Proof.Machine.execCsum b s
  | .ethDec b => Sys2Proof.Machine.execEthDec b s
  | .ethEnc h dst => Sys2Proof.Machine.execEthEnc h dst s
  | .arphDec b => Sys2Proof.Machine.execArphDec b s
  | .arphEnc h dst => Sys2Proof.Machine.execArphEnc h dst s
  | .arppDec b => Sys2Proof.Machine.execArppDec b s
  | .arppEnc h dst => Sys2Proof.Machine.execArppEnc h dst s
  | .ip4Dec b => Sys2Proof.Machine.execIp4Dec b s
  | .ip4Enc h dst => Sys2Proof.Machine.execIp4Enc h dst s
  | .icmpDec b => Sys2Proof.Machine.execIcmpDec b s
  | .icmpEnc h dst => Sys2Proof.Machine.execIcmpEnc h dst s
  | .echoDec b => Sys2Proof.Machine.execEchoDec b s
  | .echoEnc h dst => Sys2Proof.Machine.execEchoEnc h dst s
  | .camLookup ip => Sys2Proof.Machine.execCamLookup ip s
  | .camUpsert hw ip mac => Sys2Proof.Machine.execCamUpsert hw ip mac s
  | .dispatch f => Sys2Proof.Machine.execDispatch f s
  | .fEthShort f => Sys2Proof.Machine.execFEthShort f s
  | .fEthUnknown f => Sys2Proof.Machine.execFEthUnknown f s
  | .fEthRarp f => Sys2Proof.Machine.execFEthRarp f s
  | .fArpShort f => Sys2Proof.Machine.execFArpShort f s
  | .fArpBadHw f => Sys2Proof.Machine.execFArpBadHw f s
  | .fArpBadPt f => Sys2Proof.Machine.execFArpBadPt f s
  | .fArpBadOp f => Sys2Proof.Machine.execFArpBadOp f s
  | .fArpPayloadShort f => Sys2Proof.Machine.execFArpPayloadShort f s
  | .fArpRequest f => Sys2Proof.Machine.execFArpRequest f s
  | .fArpReply f => Sys2Proof.Machine.execFArpReply f s
  | .fRarpRequest f => Sys2Proof.Machine.execFRarpRequest f s
  | .fRarpReply f => Sys2Proof.Machine.execFRarpReply f s
  | .fIpShort f => Sys2Proof.Machine.execFIpShort f s
  | .fIpNotMine f => Sys2Proof.Machine.execFIpNotMine f s
  | .fIpOtherProto f => Sys2Proof.Machine.execFIpOtherProto f s
  | .fIcmpShort f => Sys2Proof.Machine.execFIcmpShort f s
  | .fIcmpUnknown f => Sys2Proof.Machine.execFIcmpUnknown f s
  | .fIcmpEchoReply f => Sys2Proof.Machine.execFIcmpEchoReply f s
  | .fIcmpDestUnreach f => Sys2Proof.Machine.execFIcmpDestUnreach f s
  | .fEchoShort f => Sys2Proof.Machine.execFEchoShort f s
  | .fEchoRequest f => Sys2Proof.Machine.execFEchoRequest f s

end Sys2Proof.Machine
end

