-- ==== Sys2Proof/Machine/Flags.lean ====
section
/-! DEFINITION. The block has no status flags or condition codes (10_state.md R22); an operation's outcome is a
status value. This file gives the statuses' numbers and the port statuses (60_exceptions.md R210). -/

namespace Sys2Proof.Machine

/-- The numeric status codes of R210. -/
def Status.code : Status → Nat
  | .ok => 0
  | .malformed _ => 1
  | .unsupported _ _ _ => 2
  | .bufferTooSmall _ => 3
  | .cacheFull _ => 4
  | .transportClosed => 5
  | .transportReadError => 6
  | .transportWriteError => 7

/-- The code of the status Refused (R210), which a step answers as a refusal (R214). -/
def refusedCode : Nat := 8

/-- The status the receive port raises in WAIT_RX on a stimulus, if it raises one (R210, R246: a delivery of
length 0 is closure, not a frame; log 13). -/
def receiveStatus : Stimulus → Option Status
  | .rx [] => some .transportClosed
  | .rx (_ :: _) => none
  | .rxClose => some .transportClosed
  | .rxError => some .transportReadError
  | .txOk => none
  | .txErr => none
  | .cmd _ => none

/-- The status the transmit port answers with in WAIT_TX, if the stimulus is an answer (R195, R210). -/
def transmitStatus : Stimulus → Option Status
  | .txOk => some .ok
  | .txErr => some .transportWriteError
  | .rx _ => none
  | .rxClose => none
  | .rxError => none
  | .cmd _ => none

end Sys2Proof.Machine
end

