-- ==== Sys2Proof/Machine/Sequencer.lean ====
section
/-! DEFINITION. The sequencer around the dispatch step and the operation boundary: what the block does with one
host stimulus in each phase (44_dispatch.md R193 to R197; 60_exceptions.md R210, R214, R232). -/

namespace Sys2Proof.Machine

/-- A stimulus that decodes to no instruction is refused by name (R214, I9). -/
def refusalOf : Reject → Refusal
  | .noOperationCode => .noOperationCode
  | .reservedCode c => .reservedCode c
  | .operandOutsideType c => .operandOutsideType c
  | .frameLength n => .frameLength opDispatch n
  | .notAnInstruction => .noMove

/-- The code of an operation that the host has no way to issue (R232, D30; log 8): CAM_UPSERT, since only the
dispatch step writes the CAM (R30), and DISPATCH, since the receive port is the only source of frames. CAM_LOOKUP
and the pure operations are the test access of R232, and a frame class is a frame the receive port delivered. -/
def withheldCode : Instr → Option Byte
  | .camUpsert _ _ _ => some opCamUpsert
  | .dispatch _ => some opDispatch
  | .csum _ | .camLookup _ => none
  | .ethDec _ | .arphDec _ | .arppDec _ | .ip4Dec _ | .icmpDec _ | .echoDec _ => none
  | .ethEnc _ _ | .arphEnc _ _ | .arppEnc _ _ | .ip4Enc _ _ | .icmpEnc _ _ | .echoEnc _ _ => none
  | .fEthShort _ | .fEthUnknown _ | .fEthRarp _ => none
  | .fArpShort _ | .fArpBadHw _ | .fArpBadPt _ | .fArpBadOp _ | .fArpPayloadShort _ => none
  | .fArpRequest _ | .fArpReply _ | .fRarpRequest _ | .fRarpReply _ => none
  | .fIpShort _ | .fIpNotMine _ | .fIpOtherProto _ => none
  | .fIcmpShort _ | .fIcmpUnknown _ | .fIcmpEchoReply _ | .fIcmpDestUnreach _ => none
  | .fEchoShort _ | .fEchoRequest _ => none

/-- Run an instruction the host brings about: a frame it delivers or a test access it issues. -/
def runFromHost (i : Instr) (s : State) : Host.Outcome State Fault Refusal :=
  match withheldCode i with
  | some c => .refused (.notExposed c)
  | none => exec i s

/-- Run the instruction a stimulus decodes to. -/
def runStimulus (st : Stimulus) (s : State) : Host.Outcome State Fault Refusal :=
  match decode s.params st with
  | .ok i => runFromHost i s
  | .error r => .refused (refusalOf r)

/-- WAIT_RX: closure and a read error stop the block (R196, R218), a frame or an operation runs, an answer of the
transmit port is no move (R232). -/
def stepInWaitRx (st : Stimulus) (s : State) : Host.Outcome State Fault Refusal :=
  match receiveStatus st with
  | some _ => .next s.stop
  | none => runStimulus st s

/-- WAIT_TX: the transmit port's answer (R195). An operation is refused by its own gate (R155), and the receive
port is not read (R194, R232). -/
def stepInWaitTx (st : Stimulus) (s : State) : Host.Outcome State Fault Refusal :=
  match transmitStatus st with
  | some .ok => .next s.sent
  | some _ => .next s.sendFailed
  | none => runStimulus st s

/-- One host stimulus, already taken from the host's list. In STOPPED only a test access runs (R155, R197). -/
def onStimulus (st : Stimulus) (s : State) : Host.Outcome State Fault Refusal :=
  match s.phase with
  | .waitRx => stepInWaitRx st s
  | .waitTx => stepInWaitTx st s
  | .stopped => runStimulus st s

/-- The host has nothing more: the block has no step (I8, R197; log 6). -/
def hostSilent (ph : Phase) : Fault :=
  match ph with
  | .waitRx => .stuckInWaitRx
  | .waitTx => .stuckInWaitTx
  | .stopped => .stopped

/-- The state once the next stimulus has been taken from the host's list. -/
def State.taken (rest : List Stimulus) (s : State) : State := { s with host := rest }

/-- One step of the block: take the host's next stimulus and act on it. -/
def stepBody (s : State) : Host.Outcome State Fault Refusal :=
  match s.host with
  | [] => .fault (hostSilent s.phase)
  | st :: rest => onStimulus st (s.taken rest)

end Sys2Proof.Machine
end

