-- ==== Sys2Proof/Machine/Step.lean ====
section
/-! DEFINITION. One step of the machine, and how a word of the opcode table is placed where the next step takes
its stimulus from. -/

namespace Sys2Proof.Machine

/-- One step of the block. It fetches no instruction (R21, R59): it takes the host's next stimulus (R87). -/
def step (s : State) : Host.Outcome State Fault Refusal := stepBody s

/-- The state with the stimulus an opcode-table word stands for as the host's next one (logs 3 and 5). -/
def State.withFetchWord (s : State) (nbits w : Nat) : State :=
  { s with host := fetchStimulus s.params nbits w :: s.host }

end Sys2Proof.Machine
end

