-- ==== Sys2Proof/Safety.lean ====
section
/-! DEFINITION. What counts as a good state of the block (10_state.md R25 to R29), and the vocabulary the
statements use: the state an operation or a frame leaves written field by field, big-endian fields as
concatenated bytes, and when two states differ only in what must not matter. -/

namespace Sys2Proof.Machine

/-- (I1) Uniqueness: no two valid entries hold the same (hwtype, ip) (R25). -/
abbrev CamUnique (cam : List CamEntry) : Prop :=
  cam.Pairwise fun a b => a.valid = true → b.valid = true → ¬ (a.hwtype = b.hwtype ∧ a.ip = b.ip)

/-- (I2) Prefix: a free entry is followed by free entries only (R25). -/
abbrev CamPrefix (cam : List CamEntry) : Prop :=
  cam.Pairwise fun a b => b.valid = true → a.valid = true

/-- A valid entry's hardware type is Ethernet, the one known value (R79, R150). -/
abbrev CamEthernet (cam : List CamEntry) : Prop :=
  ∀ e ∈ cam, e.valid = true → e.hwtype = 1#16

/-- The CAM's part of the invariant. -/
abbrev CamInv (arpCap : Nat) (cam : List CamEntry) : Prop :=
  cam.length = arpCap ∧ CamUnique cam ∧ CamPrefix cam ∧ CamEthernet cam

/-- `pending_tx` holds a frame that fits the transmit buffer exactly in WAIT_TX, and is empty in every other
phase (R27). -/
abbrev PendingInv (p : Params) (phase : Phase) (pending : Bytes) : Prop :=
  (phase = .waitTx ↔ pending ≠ []) ∧ pending.length ≤ p.txBufBytes

/-- The ghost counters (R29): every frame sent was counted, and no more replies were sent or are held than frames
were accepted (R198). -/
abbrev CountInv (phase : Phase) (kIn kOut : Nat) (txOut : List Bytes) : Prop :=
  txOut.length = kOut ∧ kOut + (if phase = .waitTx then 1 else 0) ≤ kIn

/-- The invariant of the block. -/
abbrev State.Inv (s : State) : Prop :=
  s.params.ok ∧ CamInv s.params.arpCap s.cam ∧ PendingInv s.params s.phase s.pendingTx ∧
    CountInv s.phase s.kIn s.kOut s.txOut

/-- Two outcomes agree: both go on, in states related by `R`, or both stop for the same reason. -/
def SameOutcome (R : State → State → Prop) : Host.Outcome State Fault Refusal → Host.Outcome State Fault Refusal → Prop
  | .next s, .next t => R s t
  | .fault a, .fault b => a = b
  | .refused a, .refused b => a = b
  | _, _ => False

/-- The state without what the diagnostic port has carried. -/
def State.quiet (s : State) : State := { s with diagOut := [], draw := 0 }

/-- Two CAMs that differ at most in what their free entries hold (R241). -/
abbrev CamAlike (c d : List CamEntry) : Prop :=
  List.Forall₂ (fun a b => a.valid = b.valid ∧ (a.valid = true → a = b)) c d

/-- Two states that differ at most in what the free entries of their CAMs hold (R241). -/
abbrev State.AlikeButFreeEntries (s t : State) : Prop :=
  { s with cam := [] } = { t with cam := [] } ∧ CamAlike s.cam t.cam

/-- Run instructions one after another, stopping at the first that does not go on. -/
def runAll : List Instr → State → Host.Outcome State Fault Refusal
  | [], s => .next s
  | i :: is, s =>
    match exec i s with
    | .next t => runAll is t
    | .fault r => .fault r
    | .refused r => .refused r

end Sys2Proof.Machine

namespace Sys2Proof.Claim

open Sys2Proof.Machine

/-- The state an operation that writes no state leaves: its return on the operation port (R210), one burst of
permitted diagnostic events (R223), nothing else. That the two ports are recorded in State is the model's choice
(logs 10 and 12). -/
def returned (r : OpReturn) (s : State) : State :=
  { s with
    opOut := s.opOut ++ [r]
    diagOut := s.diagOut ++ diagEntries s.draw []
    draw := s.draw + 1 }

/-- The state after a frame that got no reply (R193, second case). DISPATCH's own status is OK (log 9); the ports'
records are the model's (logs 10 and 12). -/
def frameWithoutReply (ds : List Diag) (cam : List CamEntry) (s : State) : State :=
  { s with
    cam := cam
    phase := .waitRx
    pendingTx := []
    kIn := s.kIn + 1
    opOut := s.opOut ++ [⟨.ok, .dispatched none⟩]
    diagOut := s.diagOut ++ diagEntries s.draw ds
    draw := s.draw + ds.length + 1 }

/-- The state after a frame that got the reply R (R193, first case). DISPATCH's own status is OK (log 9); the ports'
records are the model's (logs 10 and 12). -/
def frameWithReply (reply : Bytes) (ds : List Diag) (cam : List CamEntry) (s : State) : State :=
  { s with
    cam := cam
    phase := .waitTx
    pendingTx := reply
    kIn := s.kIn + 1
    opOut := s.opOut ++ [⟨.ok, .dispatched (some reply)⟩]
    diagOut := s.diagOut ++ diagEntries s.draw ds
    draw := s.draw + ds.length + 1 }

/-- A big-endian 16-bit field: the most significant byte first (R50). -/
def half (a b : Byte) : Half := a ++ b

/-- An IPv4 address in wire order (R50). -/
def addr (a b c d : Byte) : Ip := a ++ b ++ c ++ d

/-- A MAC address in wire order (R50). -/
def mac (a b c d e f : Byte) : Mac := a ++ b ++ c ++ d ++ e ++ f

/-- The six bytes of a MAC address in wire order. -/
def macBytes (m : Mac) : Bytes :=
  [m.extractLsb' 40 8, m.extractLsb' 32 8, m.extractLsb' 24 8, m.extractLsb' 16 8, m.extractLsb' 8 8,
    m.extractLsb' 0 8]

/-- The four bytes of an IPv4 address in wire order. -/
def addrBytes (a : Ip) : Bytes :=
  [a.extractLsb' 24 8, a.extractLsb' 16 8, a.extractLsb' 8 8, a.extractLsb' 0 8]

/-- The two bytes of a 16-bit field in wire order. -/
def halfBytes (v : Half) : Bytes := [v.extractLsb' 8 8, v.extractLsb' 0 8]

/-- The sum R100 accumulates, by byte position: the bytes at even offsets are the high bytes of their words. -/
def weightedSum (b : Bytes) : Nat :=
  ∑ i ∈ Finset.range b.length, (b.getD i 0#8).toNat * (if i % 2 = 0 then 256 else 1)

/-- The sum of R100 in a 32-bit accumulator (R101). -/
def wordSum32 : Bytes → BitVec 32
  | [] => 0
  | [b] => b.setWidth 32 <<< 8
  | b0 :: b1 :: t => (b0 ++ b1).setWidth 32 + wordSum32 t

/-- The first k bytes of `a` from offset i are those of `b` from offset j. -/
abbrev sameBytes (a : Bytes) (i : Nat) (b : Bytes) (j k : Nat) : Prop :=
  ∀ n < k, a.getD (i + n) 0#8 = b.getD (j + n) 0#8

/-- The command that stands for an instruction begins with this operation code (R86). -/
abbrev hasCode (c : Byte) (i : Instr) : Prop := ∃ b, encode i = .cmd (c :: b)

/-- The operation code R86 gives an operation; none for a frame class. -/
def codeOf : Instr → Option Byte
  | .csum _ => some 0x01#8
  | .ethDec _ => some 0x10#8
  | .ethEnc _ _ => some 0x11#8
  | .arphDec _ => some 0x12#8
  | .arphEnc _ _ => some 0x13#8
  | .arppDec _ => some 0x14#8
  | .arppEnc _ _ => some 0x15#8
  | .ip4Dec _ => some 0x16#8
  | .ip4Enc _ _ => some 0x17#8
  | .icmpDec _ => some 0x18#8
  | .icmpEnc _ _ => some 0x19#8
  | .echoDec _ => some 0x1A#8
  | .echoEnc _ _ => some 0x1B#8
  | .camLookup _ => some 0x20#8
  | .camUpsert _ _ _ => some 0x21#8
  | .dispatch _ => some 0x30#8
  | .fEthShort _ => none
  | .fEthUnknown _ => none
  | .fEthRarp _ => none
  | .fArpShort _ => none
  | .fArpBadHw _ => none
  | .fArpBadPt _ => none
  | .fArpBadOp _ => none
  | .fArpPayloadShort _ => none
  | .fArpRequest _ => none
  | .fArpReply _ => none
  | .fRarpRequest _ => none
  | .fRarpReply _ => none
  | .fIpShort _ => none
  | .fIpNotMine _ => none
  | .fIpOtherProto _ => none
  | .fIcmpShort _ => none
  | .fIcmpUnknown _ => none
  | .fIcmpEchoReply _ => none
  | .fIcmpDestUnreach _ => none
  | .fEchoShort _ => none
  | .fEchoRequest _ => none

/-- The round-trip laws of one format of S bytes (R118): (a) encoding into enough room and decoding what was
written gives the header back and leaves the rest of the region as the rest; (b) a header that was decoded
encodes to exactly the bytes it was decoded from. -/
def roundTrip {H : Type} (S : Nat) (dec : Bytes → Instr) (enc : H → Bytes → Instr)
    (value : H → Bytes → OpValue) : Prop :=
  (∀ (s : State) (h : H) (dst : Bytes), s.phase ≠ .waitTx → S ≤ dst.length →
    ∃ r, exec (enc h dst) s = .next (returned ⟨.ok, .region r S⟩ s) ∧
      exec (dec r) s = .next (returned ⟨.ok, value h (dst.drop S)⟩ s)) ∧
  (∀ (s : State) (h : H) (b rest : Bytes),
    exec (dec b) s = .next (returned ⟨.ok, value h rest⟩ s) →
      rest = b.drop S ∧ exec (enc h (b.take S)) s = .next (returned ⟨.ok, .region (b.take S) S⟩ s))

end Sys2Proof.Claim
end

