-- ==== Sys2Proof/WellFormed.lean ====
section
/-! DEFINITION. Which instruction terms are well formed: the operand conditions that the types of Syntax.lean
do not already carry (30_encoding.md R82, R83; 60_exceptions.md R214). -/

namespace Sys2Proof

open Sys2Proof.Machine

/-- A frame-class row applies to a frame of a legal length (R246) that is of that class (R83). -/
abbrev wellFormedFrame (p : Params) (c : FrameClass) (f : Bytes) : Prop :=
  legalLength p.rxBufBytes f ∧ classOf p.myIp f = c

/-- Well-formedness of an instruction, for one construction of the block (the class of a frame depends on
MY_IP and its legal length on RX_BUF_BYTES). The other operations take any value of their operand types. -/
def Instr.wellFormed (p : Params) : Instr → Bool
  | .csum _ => true
  | .ethDec _ => true
  | .ethEnc _ _ => true
  | .arphDec _ => true
  | .arphEnc _ _ => true
  | .arppDec _ => true
  | .arppEnc _ _ => true
  | .ip4Dec _ => true
  | .ip4Enc _ _ => true
  | .icmpDec _ => true
  | .icmpEnc _ _ => true
  | .echoDec _ => true
  | .echoEnc _ _ => true
  | .camLookup _ => true
  | .camUpsert _ _ _ => true
  | .dispatch f => decide (legalLength p.rxBufBytes f)
  | .fEthShort f => decide (wellFormedFrame p .ethShort f)
  | .fEthUnknown f => decide (wellFormedFrame p .ethUnknown f)
  | .fEthRarp f => decide (wellFormedFrame p .ethRarp f)
  | .fArpShort f => decide (wellFormedFrame p .arpShort f)
  | .fArpBadHw f => decide (wellFormedFrame p .arpBadHw f)
  | .fArpBadPt f => decide (wellFormedFrame p .arpBadPt f)
  | .fArpBadOp f => decide (wellFormedFrame p .arpBadOp f)
  | .fArpPayloadShort f => decide (wellFormedFrame p .arpPayloadShort f)
  | .fArpRequest f => decide (wellFormedFrame p .arpRequest f)
  | .fArpReply f => decide (wellFormedFrame p .arpReply f)
  | .fRarpRequest f => decide (wellFormedFrame p .rarpRequest f)
  | .fRarpReply f => decide (wellFormedFrame p .rarpReply f)
  | .fIpShort f => decide (wellFormedFrame p .ipShort f)
  | .fIpNotMine f => decide (wellFormedFrame p .ipNotMine f)
  | .fIpOtherProto f => decide (wellFormedFrame p .ipOtherProto f)
  | .fIcmpShort f => decide (wellFormedFrame p .icmpShort f)
  | .fIcmpUnknown f => decide (wellFormedFrame p .icmpUnknown f)
  | .fIcmpEchoReply f => decide (wellFormedFrame p .icmpEchoReply f)
  | .fIcmpDestUnreach f => decide (wellFormedFrame p .icmpDestUnreach f)
  | .fEchoShort f => decide (wellFormedFrame p .echoShort f)
  | .fEchoRequest f => decide (wellFormedFrame p .echoRequest f)

end Sys2Proof
end

