-- ==== Sys2Proof/Certificates/Slice0/Obligations.lean ====
section
/-! DEFINITION. The statements for the provers. Each docstring names the rule of spec/ it formalises. A statement
over states ranges over every construction of the block, since the parameters are a field of State.

A test access is stated in the phases that may issue it, WAIT_RX and STOPPED, and CAM_UPSERT in WAIT_RX, where the
dispatch step runs (R155, R232; log 8). A whole next state
also says what the block's ports have delivered: what `returned`, `frameWithoutReply` and `frameWithReply` put in
`opOut`, `diagOut` and `draw` is the model's record of them (logs 10 and 12), with the free values of R223 in it,
and no statement rests on what a free value is. -/

open Sys2Proof Sys2Proof.Machine Sys2Proof.Claim

/-! ## Reset, parameters, invariant -/

/-- R240: what construction leaves in every piece of state, for every choice of the construction inputs; the
default of IPV4_REPLY_CSUM (R7) is what the model's own reset is constructed with. -/
def Obligations.ConstructionGivesResetState : Prop :=
  (∀ p : Params,
    (State.construct p).params = p ∧
    (State.construct p).cam.length = p.arpCap ∧
    (∀ e ∈ (State.construct p).cam, e.valid = false) ∧
    (State.construct p).phase = .waitRx ∧
    (State.construct p).pendingTx = [] ∧
    (State.construct p).kIn = 0 ∧ (State.construct p).kOut = 0) ∧
  State.reset = State.construct State.reset.params ∧ State.reset.params.replyCsum = .zero

/-- The invariant holds after every lawful construction (R240, R243). -/
def Obligations.InvariantHoldsAfterConstruction : Prop :=
  ∀ p : Params, p.ok → (State.construct p).Inv

/-- Every step keeps the invariant: the CAM's uniqueness and prefix (R25), a held reply exactly in WAIT_TX and
within the transmit buffer (R27, R216), the ghost counters (R29). -/
def Obligations.EveryStepKeepsInvariant : Prop :=
  ∀ s t : State, s.Inv → step s = .next t → t.Inv

/-- R25, each invariant in the rule's own words: uniqueness, prefix, monotonicity. The spec marks them "derived: from
43_arp_cam.md rules R150 and R153". -/
def Obligations.CamUniquePrefixMonotone : Prop :=
  ∀ s t : State, s.Inv → step s = .next t →
    (∀ (i j : Nat) (hi : i < t.cam.length) (hj : j < t.cam.length), i ≠ j →
      t.cam[i].valid = true → t.cam[j].valid = true →
        ¬ (t.cam[i].hwtype = t.cam[j].hwtype ∧ t.cam[i].ip = t.cam[j].ip)) ∧
    (∃ count, count ≤ t.params.arpCap ∧ t.cam.length = t.params.arpCap ∧
      ∀ (i : Nat) (hi : i < t.cam.length), t.cam[i].valid = true ↔ i < count) ∧
    (∀ (i : Nat) (hi : i < s.cam.length), s.cam[i].valid = true →
      ∃ hi' : i < t.cam.length, t.cam[i].valid = true ∧ t.cam[i].hwtype = s.cam[i].hwtype ∧
        t.cam[i].ip = s.cam[i].ip)

/-- R244: no instruction and no step changes MY_MAC, MY_IP or another construction input. -/
def Obligations.ParametersNeverChange : Prop :=
  (∀ (i : Instr) (s t : State), exec i s = .next t → t.params = s.params) ∧
  (∀ s t : State, step s = .next t → t.params = s.params)

/-! ## Decoding and the step -/

/-- A step runs the instruction its stimulus decodes to, on the state with that stimulus taken from the host's
list; except that the host has no move for CAM_UPSERT and DISPATCH as commands, which are refused by their codes
(R232, D30; log 8). -/
def Obligations.StepRunsDecodedInstruction : Prop :=
  ∀ (s : State) (st : Stimulus) (rest : List Stimulus) (i : Instr),
    s.host = st :: rest → decode s.params st = .ok i →
    ((∀ hw ip m, i ≠ .camUpsert hw ip m) → (∀ f, i ≠ .dispatch f) → step s = exec i { s with host := rest }) ∧
    (∀ hw ip m, i = .camUpsert hw ip m → step s = .refused (.notExposed 0x21#8)) ∧
    (∀ f, i = .dispatch f → step s = .refused (.notExposed 0x30#8))

/-- Every well-formed instruction, with every operand, is what its own encoding decodes to. -/
def Obligations.DecodeInvertsEncode : Prop :=
  ∀ (p : Params) (i : Instr), i.wellFormed p = true → decode p (encode i) = .ok i

/-- The other direction: a stimulus that decodes is exactly the encoding of its instruction, so no bit of it is
dropped; and the instruction of a received frame is well formed (R83, R246). -/
def Obligations.EncodeInvertsDecode : Prop :=
  ∀ (p : Params) (st : Stimulus) (i : Instr), decode p st = .ok i →
    encode i = st ∧ ((∃ f, st = .rx f) → i.wellFormed p = true)

/-- R86: an operation's code is the one of R86's table, and a step on a command with any other code is refused. -/
def Obligations.OperationCodesOfTheTable : Prop :=
  (∀ (p : Params) (c : Byte) (b : Bytes) (i : Instr),
    decode p (.cmd (c :: b)) = .ok i → codeOf i = some c) ∧
  (∀ i : Instr, ∀ c, codeOf i = some c → ∃ b, encode i = .cmd (c :: b)) ∧
  (∀ (s : State) (c : Byte) (b : Bytes) (rest : List Stimulus), s.host = .cmd (c :: b) :: rest →
    c ∉ [0x01#8, 0x10#8, 0x11#8, 0x12#8, 0x13#8, 0x14#8, 0x15#8, 0x16#8, 0x17#8, 0x18#8, 0x19#8, 0x1A#8,
      0x1B#8, 0x20#8, 0x21#8, 0x30#8] → step s = .refused (.reservedCode c))

/-- R83: for every frame of a legal length there is exactly one well-formed frame-class instruction. -/
def Obligations.ExactlyOneClassPerFrame : Prop :=
  ∀ (p : Params) (f : Bytes), legalLength p.rxBufBytes f →
    ∃! i : Instr, encode i = .rx f ∧ i.wellFormed p = true

/-- A few words written out from R86 and from the frames of R70 to R77. -/
def Obligations.SampleWordsDecode : Prop :=
  decode Config.reference (.cmd [0x01#8, 0x45#8, 0x00#8]) = .ok (.csum [0x45#8, 0x00#8]) ∧
  decode Config.reference (.cmd [0x20#8, 0x0a#8, 0x00#8, 0x00#8, 0x03#8]) =
    .ok (.camLookup 0x0a000003#32) ∧
  decode Config.reference (.cmd [0x02#8]) = .error (.reservedCode 0x02#8) ∧
  decode Config.reference (.rx [0x02#8]) = .ok (.fEthShort [0x02#8])

/-! ## Checksum engine -/

/-- R100: CSUM always completes with status OK and writes no state; its result is the complement of the folded
sum of the bytes, the even-offset ones as high bytes. The exact accumulator is the spec's own decision D17 (log 15). -/
def Obligations.ChecksumIsComplementOfFoldedSum : Prop :=
  (∀ b, hasCode 0x01#8 (.csum b)) ∧
  ∀ (s : State) (b : Bytes), s.phase ≠ .waitTx →
    exec (.csum b) s = .next (returned ⟨.ok, .checksum
      (if weightedSum b = 0 then 0xFFFF#16
        else BitVec.ofNat 16 (65535 - (1 + (weightedSum b - 1) % 65535)))⟩ s)

/-- R102: with the checksum written into a zero field at an even offset, CSUM of the whole gives 0x0000,
for even and odd lengths. The spec marks it "derived: from rule R100". -/
def Obligations.ChecksumVerifiesItself : Prop :=
  ∀ (s : State) (b : Bytes) (o : Nat) (c : Half), s.phase ≠ .waitTx →
    o % 2 = 0 → o + 1 < b.length → b.getD o 0#8 = 0#8 → b.getD (o + 1) 0#8 = 0#8 →
    exec (.csum b) s = .next (returned ⟨.ok, .checksum c⟩ s) →
    exec (.csum (memWrite b o 2 c.toNat)) s = .next (returned ⟨.ok, .checksum 0#16⟩ s)

/-- R101: a 32-bit accumulator gives the same checksum for every input of at most 131072 bytes. -/
def Obligations.ThirtyTwoBitAccumulatorSuffices : Prop :=
  ∀ (s : State) (b : Bytes), s.phase ≠ .waitTx → b.length ≤ 131072 →
    exec (.csum b) s = .next (returned ⟨.ok, .checksum
      (~~~ BitVec.ofNat 16 (foldCarry (wordSum32 b).toNat (wordSum32 b).toNat))⟩ s)

/-! ## Frame codec -/

/-- R110: ETH_DEC on a short input, and on 14 bytes and a rest, byte by byte. -/
def Obligations.EthDecReadsHeader : Prop :=
  (∀ b, hasCode 0x10#8 (.ethDec b)) ∧
  ∀ s : State, s.phase ≠ .waitTx →
    (∀ b : Bytes, b.length < 14 →
      exec (.ethDec b) s = .next (returned ⟨.malformed .eth, .nothing⟩ s)) ∧
    (∀ (d0 d1 d2 d3 d4 d5 s0 s1 s2 s3 s4 s5 e0 e1 : Byte) (rest : Bytes),
      exec (.ethDec (d0 :: d1 :: d2 :: d3 :: d4 :: d5 :: s0 :: s1 :: s2 :: s3 :: s4 :: s5 :: e0 :: e1 :: rest)) s =
        .next (returned
          (if half e0 e1 = 0x0800#16 then
            ⟨.ok, .eth ⟨mac d0 d1 d2 d3 d4 d5, mac s0 s1 s2 s3 s4 s5, .ipv4⟩ rest⟩
          else if half e0 e1 = 0x0806#16 then
            ⟨.ok, .eth ⟨mac d0 d1 d2 d3 d4 d5, mac s0 s1 s2 s3 s4 s5, .arp⟩ rest⟩
          else if half e0 e1 = 0x8035#16 then
            ⟨.ok, .eth ⟨mac d0 d1 d2 d3 d4 d5, mac s0 s1 s2 s3 s4 s5, .rarp⟩ rest⟩
          else ⟨.unsupported .eth .ethertype (half e0 e1), .nothing⟩) s))

/-- R112: ARPH_DEC on a short input, and on 8 bytes and a rest; the enumerated fields in offset order (R220).
The order and the unchecked sizes are the spec's own decisions D19 and D10 (logs 29 and 22). -/
def Obligations.ArphDecReadsHeader : Prop :=
  (∀ b, hasCode 0x12#8 (.arphDec b)) ∧
  ∀ s : State, s.phase ≠ .waitTx →
    (∀ b : Bytes, b.length < 8 →
      exec (.arphDec b) s = .next (returned ⟨.malformed .arpHeader, .nothing⟩ s)) ∧
    (∀ (h0 h1 p0 p1 hs ps o0 o1 : Byte) (rest : Bytes),
      exec (.arphDec (h0 :: h1 :: p0 :: p1 :: hs :: ps :: o0 :: o1 :: rest)) s =
        .next (returned
          (if half h0 h1 ≠ 1#16 then ⟨.unsupported .arpHeader .hwtype (half h0 h1), .nothing⟩
          else if half p0 p1 ≠ 0x0800#16 then ⟨.unsupported .arpHeader .protype (half p0 p1), .nothing⟩
          else if half o0 o1 = 1#16 then ⟨.ok, .arph ⟨.ethernet, .ipv4, hs, ps, .arpRequest⟩ rest⟩
          else if half o0 o1 = 2#16 then ⟨.ok, .arph ⟨.ethernet, .ipv4, hs, ps, .arpReply⟩ rest⟩
          else if half o0 o1 = 3#16 then ⟨.ok, .arph ⟨.ethernet, .ipv4, hs, ps, .rarpRequest⟩ rest⟩
          else if half o0 o1 = 4#16 then ⟨.ok, .arph ⟨.ethernet, .ipv4, hs, ps, .rarpReply⟩ rest⟩
          else ⟨.unsupported .arpHeader .opcode (half o0 o1), .nothing⟩) s))

/-- R114: ARPP_DEC on a short input, and on 20 bytes and a rest. -/
def Obligations.ArppDecReadsPayload : Prop :=
  (∀ b, hasCode 0x14#8 (.arppDec b)) ∧
  ∀ s : State, s.phase ≠ .waitTx →
    (∀ b : Bytes, b.length < 20 →
      exec (.arppDec b) s = .next (returned ⟨.malformed .arpPayload, .nothing⟩ s)) ∧
    (∀ (a0 a1 a2 a3 a4 a5 b0 b1 b2 b3 c0 c1 c2 c3 c4 c5 d0 d1 d2 d3 : Byte) (rest : Bytes),
      exec (.arppDec (a0 :: a1 :: a2 :: a3 :: a4 :: a5 :: b0 :: b1 :: b2 :: b3 :: c0 :: c1 :: c2 :: c3 :: c4 :: c5 ::
          d0 :: d1 :: d2 :: d3 :: rest)) s =
        .next (returned ⟨.ok, .arpp ⟨mac a0 a1 a2 a3 a4 a5, addr b0 b1 b2 b3, mac c0 c1 c2 c3 c4 c5,
          addr d0 d1 d2 d3⟩ rest⟩ s))

/-- R130: IP4_DEC on a short input, and on 20 bytes and a rest; version, IHL, total length, protocol and checksum
take any value: the spec's own decisions D6, D8 and D9 (logs 29, 20 and 21). -/
def Obligations.Ip4DecReadsHeader : Prop :=
  (∀ b, hasCode 0x16#8 (.ip4Dec b)) ∧
  ∀ s : State, s.phase ≠ .waitTx →
    (∀ b : Bytes, b.length < 20 →
      exec (.ip4Dec b) s = .next (returned ⟨.malformed .ipv4, .nothing⟩ s)) ∧
    (∀ (vi tos l0 l1 i0 i1 f0 f1 ttl pr k0 k1 s0 s1 s2 s3 d0 d1 d2 d3 : Byte) (rest : Bytes),
      exec (.ip4Dec (vi :: tos :: l0 :: l1 :: i0 :: i1 :: f0 :: f1 :: ttl :: pr :: k0 :: k1 :: s0 :: s1 :: s2 :: s3 ::
          d0 :: d1 :: d2 :: d3 :: rest)) s =
        .next (returned ⟨.ok, .ip4
          { verIhl := vi, tos := tos, totalLen := half l0 l1, id := half i0 i1, flagsFrag := half f0 f1,
            ttl := ttl, proto := pr, checksum := half k0 k1, src := addr s0 s1 s2 s3,
            dst := addr d0 d1 d2 d3 } rest⟩ s))

/-- R132: ICMP_DEC on a short input, and on 4 bytes and a rest; the code and the checksum take any value: the
spec's own decisions D33 and D8 (logs 28 and 20). -/
def Obligations.IcmpDecReadsHeader : Prop :=
  (∀ b, hasCode 0x18#8 (.icmpDec b)) ∧
  ∀ s : State, s.phase ≠ .waitTx →
    (∀ b : Bytes, b.length < 4 →
      exec (.icmpDec b) s = .next (returned ⟨.malformed .icmp, .nothing⟩ s)) ∧
    (∀ (ty code k0 k1 : Byte) (rest : Bytes),
      exec (.icmpDec (ty :: code :: k0 :: k1 :: rest)) s =
        .next (returned
          (if ty = 0#8 then ⟨.ok, .icmp ⟨.echoReply, code, half k0 k1⟩ rest⟩
          else if ty = 3#8 then ⟨.ok, .icmp ⟨.destinationUnreachable, code, half k0 k1⟩ rest⟩
          else if ty = 8#8 then ⟨.ok, .icmp ⟨.echoRequest, code, half k0 k1⟩ rest⟩
          else ⟨.unsupported .icmp .icmpType (half 0#8 ty), .nothing⟩) s))

/-- R134: ECHO_DEC on a short input, and on 4 bytes and a rest. -/
def Obligations.EchoDecReadsHeader : Prop :=
  (∀ b, hasCode 0x1A#8 (.echoDec b)) ∧
  ∀ s : State, s.phase ≠ .waitTx →
    (∀ b : Bytes, b.length < 4 →
      exec (.echoDec b) s = .next (returned ⟨.malformed .echo, .nothing⟩ s)) ∧
    (∀ (i0 i1 q0 q1 : Byte) (rest : Bytes),
      exec (.echoDec (i0 :: i1 :: q0 :: q1 :: rest)) s =
        .next (returned ⟨.ok, .echo ⟨half i0 i1, half q0 q1⟩ rest⟩ s))

/-- R111: ETH_ENC writes 14 bytes, byte by byte, or raises BufferTooSmall and leaves the region. -/
def Obligations.EthEncWritesHeader : Prop :=
  (∀ h dst, hasCode 0x11#8 (.ethEnc h dst)) ∧
  ∀ (s : State) (h : EthHeader) (dst : Bytes), s.phase ≠ .waitTx →
    exec (.ethEnc h dst) s = .next (returned
      (if dst.length < 14 then ⟨.bufferTooSmall 14, .region dst 0⟩
      else ⟨.ok, .region (macBytes h.dstMac ++ macBytes h.srcMac ++
        (match h.ethertype with
          | .ipv4 => [0x08#8, 0x00#8]
          | .arp => [0x08#8, 0x06#8]
          | .rarp => [0x80#8, 0x35#8]) ++ dst.drop 14) 14⟩) s)

/-- R113: ARPH_ENC writes 8 bytes or raises BufferTooSmall and leaves the region. -/
def Obligations.ArphEncWritesHeader : Prop :=
  (∀ h dst, hasCode 0x13#8 (.arphEnc h dst)) ∧
  ∀ (s : State) (h : ArpHeader) (dst : Bytes), s.phase ≠ .waitTx →
    exec (.arphEnc h dst) s = .next (returned
      (if dst.length < 8 then ⟨.bufferTooSmall 8, .region dst 0⟩
      else ⟨.ok, .region ([0x00#8, 0x01#8, 0x08#8, 0x00#8, h.hwsize, h.prosize, 0x00#8] ++
        (match h.opcode with
          | .arpRequest => [0x01#8]
          | .arpReply => [0x02#8]
          | .rarpRequest => [0x03#8]
          | .rarpReply => [0x04#8]) ++ dst.drop 8) 8⟩) s)

/-- R115: ARPP_ENC writes 20 bytes or raises BufferTooSmall and leaves the region. -/
def Obligations.ArppEncWritesPayload : Prop :=
  (∀ h dst, hasCode 0x15#8 (.arppEnc h dst)) ∧
  ∀ (s : State) (h : ArpPayload) (dst : Bytes), s.phase ≠ .waitTx →
    exec (.arppEnc h dst) s = .next (returned
      (if dst.length < 20 then ⟨.bufferTooSmall 20, .region dst 0⟩
      else ⟨.ok, .region (macBytes h.smac ++ addrBytes h.sip ++ macBytes h.dmac ++ addrBytes h.dip ++
        dst.drop 20) 20⟩) s)

/-- R131: IP4_ENC writes 20 bytes, the checksum field as given, or raises BufferTooSmall and leaves the region. -/
def Obligations.Ip4EncWritesHeader : Prop :=
  (∀ h dst, hasCode 0x17#8 (.ip4Enc h dst)) ∧
  ∀ (s : State) (h : Ipv4Header) (dst : Bytes), s.phase ≠ .waitTx →
    exec (.ip4Enc h dst) s = .next (returned
      (if dst.length < 20 then ⟨.bufferTooSmall 20, .region dst 0⟩
      else ⟨.ok, .region ([h.verIhl, h.tos] ++ halfBytes h.totalLen ++ halfBytes h.id ++
        halfBytes h.flagsFrag ++ [h.ttl, h.proto] ++ halfBytes h.checksum ++ addrBytes h.src ++
        addrBytes h.dst ++ dst.drop 20) 20⟩) s)

/-- R133: ICMP_ENC writes 4 bytes, the checksum as given, or raises BufferTooSmall and leaves the region. -/
def Obligations.IcmpEncWritesHeader : Prop :=
  (∀ h dst, hasCode 0x19#8 (.icmpEnc h dst)) ∧
  ∀ (s : State) (h : IcmpHeader) (dst : Bytes), s.phase ≠ .waitTx →
    exec (.icmpEnc h dst) s = .next (returned
      (if dst.length < 4 then ⟨.bufferTooSmall 4, .region dst 0⟩
      else ⟨.ok, .region ((match h.type with
          | .echoReply => [0x00#8]
          | .destinationUnreachable => [0x03#8]
          | .echoRequest => [0x08#8]) ++ [h.code] ++ halfBytes h.checksum ++ dst.drop 4) 4⟩) s)

/-- R135: ECHO_ENC writes 4 bytes or raises BufferTooSmall and leaves the region. -/
def Obligations.EchoEncWritesHeader : Prop :=
  (∀ h dst, hasCode 0x1B#8 (.echoEnc h dst)) ∧
  ∀ (s : State) (h : EchoHeader) (dst : Bytes), s.phase ≠ .waitTx →
    exec (.echoEnc h dst) s = .next (returned
      (if dst.length < 4 then ⟨.bufferTooSmall 4, .region dst 0⟩
      else ⟨.ok, .region (halfBytes h.id ++ halfBytes h.seq ++ dst.drop 4) 4⟩) s)

/-- R118: both round-trip laws, for each of the six formats. -/
def Obligations.CodecRoundTrips : Prop :=
  roundTrip 14 .ethDec .ethEnc .eth ∧ roundTrip 8 .arphDec .arphEnc .arph ∧
  roundTrip 20 .arppDec .arppEnc .arpp ∧ roundTrip 20 .ip4Dec .ip4Enc .ip4 ∧
  roundTrip 4 .icmpDec .icmpEnc .icmp ∧ roundTrip 4 .echoDec .echoEnc .echo

/-! ## ARP CAM -/

/-- R152: CAM_LOOKUP always completes with status OK: the MAC of the lowest valid entry with the address, else a
miss; it writes no state. -/
def Obligations.LookupFindsLowestValidEntry : Prop :=
  (∀ ip, hasCode 0x20#8 (.camLookup ip)) ∧
  ∀ (s : State) (ip : Ip), s.phase ≠ .waitTx →
    (∀ (i : Nat) (hi : i < s.cam.length), s.cam[i].valid = true → s.cam[i].ip = ip →
      (∀ (j : Nat) (hj : j < i), s.cam[j].valid = true → s.cam[j].ip ≠ ip) →
      exec (.camLookup ip) s = .next (returned ⟨.ok, .hit s.cam[i].mac⟩ s)) ∧
    ((∀ e ∈ s.cam, e.valid = true → e.ip ≠ ip) →
      exec (.camLookup ip) s = .next (returned ⟨.ok, .miss⟩ s))

/-- R150: CAM_UPSERT updates the MAC of the lowest entry that holds the key; without one it fills the lowest free
entry; without one of either it raises CacheFull and changes no entry. It runs in WAIT_RX, the phase of the dispatch
step it is internal to, and is refused in the others (R155; log 8). -/
def Obligations.UpsertUpdatesInsertsOrRejects : Prop :=
  (∀ ip m, hasCode 0x21#8 (.camUpsert .ethernet ip m)) ∧
  (∀ (s : State) (ip : Ip) (m : Mac), s.phase ≠ .waitRx →
    exec (.camUpsert .ethernet ip m) s = .refused (.notEnabled 0x21#8)) ∧
  ∀ (s : State) (ip : Ip) (m : Mac), s.phase = .waitRx →
    (∀ (i : Nat) (hi : i < s.cam.length),
      s.cam[i].valid = true → s.cam[i].hwtype = 1#16 → s.cam[i].ip = ip →
      (∀ (j : Nat) (hj : j < i), ¬ (s.cam[j].valid = true ∧ s.cam[j].hwtype = 1#16 ∧ s.cam[j].ip = ip)) →
      exec (.camUpsert .ethernet ip m) s =
        .next { returned ⟨.ok, .updated i⟩ s with cam := s.cam.set i { s.cam[i] with mac := m } }) ∧
    ((∀ e ∈ s.cam, ¬ (e.valid = true ∧ e.hwtype = 1#16 ∧ e.ip = ip)) →
      (∀ (i : Nat) (hi : i < s.cam.length), s.cam[i].valid = false →
        (∀ (j : Nat) (hj : j < i), s.cam[j].valid = true) →
        exec (.camUpsert .ethernet ip m) s =
          .next { returned ⟨.ok, .inserted i⟩ s with
            cam := s.cam.set i { valid := true, hwtype := 1#16, ip := ip, mac := m } }) ∧
      ((∀ e ∈ s.cam, e.valid = true) →
        exec (.camUpsert .ethernet ip m) s = .next (returned ⟨.cacheFull ip, .nothing⟩ s)))

/-- R154 (a) to (c): from an empty CAM, upserts of distinct keys up to the capacity insert at 0, 1, 2, …; the next
distinct key raises CacheFull and changes no entry; a key already present updates and consumes no slot. -/
def Obligations.CamHoldsExactlyItsCapacity : Prop :=
  ∀ (s : State) (ks : List (Ip × Mac)), s.phase = .waitRx → (∀ e ∈ s.cam, e.valid = false) →
    (ks.map Prod.fst).Nodup → ks.length ≤ s.cam.length →
    ∃ t, runAll (ks.map fun k => .camUpsert .ethernet k.1 k.2) s = .next t ∧
      t.opOut = s.opOut ++ (List.range ks.length).map (fun i => ⟨.ok, .inserted i⟩) ∧
      (∀ (ip : Ip) (m : Mac), ks.length = s.cam.length → ip ∉ ks.map Prod.fst →
        exec (.camUpsert .ethernet ip m) t = .next (returned ⟨.cacheFull ip, .nothing⟩ t)) ∧
      (∀ (i : Nat) (hi : i < ks.length) (m : Mac), ∃ u,
        exec (.camUpsert .ethernet ks[i].1 m) t = .next u ∧ u.opOut = t.opOut ++ [⟨.ok, .updated i⟩] ∧
        u.cam.countP (fun e => e.valid) = ks.length)

/-- R154 (d): after any sequence of upserts, CAM_LOOKUP gives the MAC of the latest one for that address that
succeeded, and what it gave before if none did. -/
def Obligations.LookupGivesLatestUpsert : Prop :=
  ∀ (s t : State) (ks : List (Ip × Mac)) (ip : Ip), s.Inv →
    runAll (ks.map fun k => .camUpsert .ethernet k.1 k.2) s = .next t →
    ∃ rs : List OpReturn, t.opOut = s.opOut ++ rs ∧ rs.length = ks.length ∧
      camLookup t.cam ip =
        (ks.zip rs).foldl (fun acc kr => if kr.1.1 = ip ∧ kr.2.status = .ok then some kr.1.2 else acc)
          (camLookup s.cam ip)

/-- R30, with R153 and R175: only the dispatch step writes the CAM. A step that changes it took, in WAIT_RX, a frame
of one of the four ARP classes, and the CAM it leaves is what the CAM_UPSERT of the frame's sender makes of it. -/
def Obligations.OnlyUpsertWritesCam : Prop :=
  ∀ s t : State, step s = .next t → t.cam ≠ s.cam →
    s.phase = .waitRx ∧ ∃ f rest, s.host = .rx f :: rest ∧
      classOf s.params.myIp f ∈ [.arpRequest, .arpReply, .rarpRequest, .rarpReply] ∧
      ∃ u, exec (.camUpsert .ethernet (rd32 f 28) (rd48 f 22)) s = .next u ∧ t.cam = u.cam

/-! ## Frame classes and DISPATCH -/

/-- R171, R173, R174, R180, R184, R185 with R192 and R213: on a frame that fails a decode, the frame's class
instruction abandons it: one diagnostic event, no reply, the CAM unchanged, WAIT_RX. The ICMP clauses rest on
protocol 1 being ICMP (R81, K2; log 17), and which fields are Unsupported and which is named on the spec's own
decisions D5, D6 and D19 (R220, I11; log 29). -/
def Obligations.FailedDecodesAbandonTheFrame : Prop :=
  ∀ (s : State) (f : Bytes), s.phase = .waitRx → legalLength s.params.rxBufBytes f →
    (f.length < 14 →
      exec (.fEthShort f) s = .next (frameWithoutReply [.malformed .eth] s.cam s)) ∧
    (14 ≤ f.length → frameEt f ∉ [0x0800#16, 0x0806#16, 0x8035#16] →
      exec (.fEthUnknown f) s =
        .next (frameWithoutReply [.unsupported .eth .ethertype (frameEt f)] s.cam s)) ∧
    (14 ≤ f.length → frameEt f = 0x0806#16 → f.length < 22 →
      exec (.fArpShort f) s = .next (frameWithoutReply [.malformed .arpHeader] s.cam s)) ∧
    (22 ≤ f.length → frameEt f = 0x0806#16 → frameHw f ≠ 1#16 →
      exec (.fArpBadHw f) s =
        .next (frameWithoutReply [.unsupported .arpHeader .hwtype (frameHw f)] s.cam s)) ∧
    (22 ≤ f.length → frameEt f = 0x0806#16 → frameHw f = 1#16 → framePt f ≠ 0x0800#16 →
      exec (.fArpBadPt f) s =
        .next (frameWithoutReply [.unsupported .arpHeader .protype (framePt f)] s.cam s)) ∧
    (22 ≤ f.length → frameEt f = 0x0806#16 → frameHw f = 1#16 → framePt f = 0x0800#16 →
      frameOp f ∉ [1#16, 2#16, 3#16, 4#16] →
      exec (.fArpBadOp f) s =
        .next (frameWithoutReply [.unsupported .arpHeader .opcode (frameOp f)] s.cam s)) ∧
    (22 ≤ f.length → frameEt f = 0x0806#16 → frameHw f = 1#16 → framePt f = 0x0800#16 →
      frameOp f ∈ [1#16, 2#16, 3#16, 4#16] → f.length < 42 →
      exec (.fArpPayloadShort f) s = .next (frameWithoutReply [.malformed .arpPayload] s.cam s)) ∧
    (14 ≤ f.length → frameEt f = 0x0800#16 → f.length < 34 →
      exec (.fIpShort f) s = .next (frameWithoutReply [.malformed .ipv4] s.cam s)) ∧
    (34 ≤ f.length → frameEt f = 0x0800#16 → frameDst f = s.params.myIp → framePr f = 1#8 → f.length < 38 →
      exec (.fIcmpShort f) s = .next (frameWithoutReply [.malformed .icmp] s.cam s)) ∧
    (38 ≤ f.length → frameEt f = 0x0800#16 → frameDst f = s.params.myIp → framePr f = 1#8 →
      frameTy f ∉ [0#8, 3#8, 8#8] →
      exec (.fIcmpUnknown f) s =
        .next (frameWithoutReply [.unsupported .icmp .icmpType (half 0#8 (frameTy f))] s.cam s)) ∧
    (38 ≤ f.length → frameEt f = 0x0800#16 → frameDst f = s.params.myIp → framePr f = 1#8 →
      frameTy f = 8#8 → f.length < 42 →
      exec (.fEchoShort f) s = .next (frameWithoutReply [.malformed .echo] s.cam s))

/-- R172, R182, R183, R191: the dropped classes. Only RARP requires a diagnostic event, and a datagram that is not
for the block is dropped whatever its ICMP part holds (R221). The exact comparison and the silence are the spec's own
decisions D31 and D29 (logs 27 and 31); that protocol 1 is ICMP is general knowledge (R81, K2; log 17). -/
def Obligations.UnhandledFramesAreDropped : Prop :=
  ∀ (s : State) (f : Bytes), s.phase = .waitRx → legalLength s.params.rxBufBytes f →
    (14 ≤ f.length → frameEt f = 0x8035#16 →
      exec (.fEthRarp f) s = .next (frameWithoutReply [.dropEthertype 0x8035#16] s.cam s)) ∧
    (34 ≤ f.length → frameEt f = 0x0800#16 → frameDst f ≠ s.params.myIp →
      exec (.fIpNotMine f) s = .next (frameWithoutReply [] s.cam s)) ∧
    (34 ≤ f.length → frameEt f = 0x0800#16 → frameDst f = s.params.myIp → framePr f ≠ 1#8 →
      exec (.fIpOtherProto f) s = .next (frameWithoutReply [] s.cam s)) ∧
    (38 ≤ f.length → frameEt f = 0x0800#16 → frameDst f = s.params.myIp → framePr f = 1#8 →
      frameTy f = 0#8 → exec (.fIcmpEchoReply f) s = .next (frameWithoutReply [] s.cam s)) ∧
    (38 ≤ f.length → frameEt f = 0x0800#16 → frameDst f = s.params.myIp → framePr f = 1#8 →
      frameTy f = 3#8 → exec (.fIcmpDestUnreach f) s = .next (frameWithoutReply [] s.cam s))

/-- R175, R177, R151: an ARP reply, RARP request or RARP reply does the CAM_UPSERT of its sender and nothing else;
CacheFull is reported as a diagnostic event and the frame is otherwise processed, the spec's own decision D15
(log 25). -/
def Obligations.ArpFramesUpsertTheSender : Prop :=
  ∀ (s : State) (f : Bytes), s.phase = .waitRx → legalLength s.params.rxBufBytes f →
    42 ≤ f.length → frameEt f = 0x0806#16 → frameHw f = 1#16 → framePt f = 0x0800#16 →
    ∃ (u : State) (r : OpReturn),
      exec (.camUpsert .ethernet (rd32 f 28) (rd48 f 22)) s = .next u ∧ u.opOut = s.opOut ++ [r] ∧
      (frameOp f = 2#16 → exec (.fArpReply f) s = .next (frameWithoutReply
        (if r.status = .cacheFull (rd32 f 28) then [.cacheFull (rd32 f 28)] else []) u.cam s)) ∧
      (frameOp f = 3#16 → exec (.fRarpRequest f) s = .next (frameWithoutReply
        (if r.status = .cacheFull (rd32 f 28) then [.cacheFull (rd32 f 28)] else []) u.cam s)) ∧
      (frameOp f = 4#16 → exec (.fRarpReply f) s = .next (frameWithoutReply
        (if r.status = .cacheFull (rd32 f 28) then [.cacheFull (rd32 f 28)] else []) u.cam s))

/-- R176 and R178, with R175, R151 and R179: an ARP request upserts its sender and is answered with the 60 bytes of
R178's table, whatever its target address and even when the CAM is full. The copied sizes, the Ethernet header and
the reply at a full CAM are the spec's own decisions D10, D11 and D15 (logs 22, 23 and 25). -/
def Obligations.ArpRequestIsAnswered : Prop :=
  ∀ (s : State) (f : Bytes), s.phase = .waitRx → legalLength s.params.rxBufBytes f →
    42 ≤ f.length → frameEt f = 0x0806#16 → frameHw f = 1#16 → framePt f = 0x0800#16 → frameOp f = 1#16 →
    ∃ (u : State) (r : OpReturn) (reply : Bytes),
      exec (.camUpsert .ethernet (rd32 f 28) (rd48 f 22)) s = .next u ∧ u.opOut = s.opOut ++ [r] ∧
      exec (.fArpRequest f) s = .next (frameWithReply reply
        (if r.status = .cacheFull (rd32 f 28) then [.cacheFull (rd32 f 28)] else []) u.cam s) ∧
      reply.length = 60 ∧
      sameBytes reply 0 f 22 6 ∧
      sameBytes reply 6 (macBytes s.params.myMac) 0 6 ∧
      sameBytes reply 12 [0x08#8, 0x06#8, 0x00#8, 0x01#8, 0x08#8, 0x00#8] 0 6 ∧
      sameBytes reply 18 f 18 2 ∧
      sameBytes reply 20 [0x00#8, 0x02#8] 0 2 ∧
      sameBytes reply 22 (macBytes s.params.myMac) 0 6 ∧
      sameBytes reply 28 (addrBytes s.params.myIp) 0 4 ∧
      sameBytes reply 32 f 22 10 ∧
      sameBytes reply 42 [] 0 18

/-- R189 and R190, with R186 to R188: an echo request addressed to the block is answered, when the CAM holds its
IPv4 source, with the frame of R190's table, and is otherwise discarded silently. The unchecked request, the payload's
extent, the Ethernet header, the copied IPv4 fields and the missing padding are the spec's own decisions D8, D33, D9,
D11, D12 and D27 (logs 20, 28, 21, 23, 24 and 26), the discard D14 (log 30). That protocol 1 is ICMP is general
knowledge (R81, K2; log 17). -/
def Obligations.EchoRequestIsAnswered : Prop :=
  ∀ (s : State) (f : Bytes), s.phase = .waitRx → legalLength s.params.rxBufBytes f → s.params.ok →
    42 ≤ f.length → frameEt f = 0x0800#16 → frameDst f = s.params.myIp → framePr f = 1#8 → frameTy f = 8#8 →
    (camLookup s.cam (rd32 f 26) = none →
      exec (.fEchoRequest f) s = .next (frameWithoutReply [] s.cam s)) ∧
    (∀ peer, camLookup s.cam (rd32 f 26) = some peer → ∃ reply : Bytes,
      exec (.fEchoRequest f) s = .next (frameWithReply reply [] s.cam s) ∧
      reply.length = f.length ∧
      sameBytes reply 0 (macBytes peer) 0 6 ∧
      sameBytes reply 6 (macBytes s.params.myMac) 0 6 ∧
      sameBytes reply 12 [0x08#8, 0x00#8] 0 2 ∧
      sameBytes reply 14 f 14 2 ∧
      half (reply.getD 16 0#8) (reply.getD 17 0#8) = BitVec.ofNat 16 (f.length - 14) ∧ f.length - 14 < 65536 ∧
      sameBytes reply 18 f 18 6 ∧
      (s.params.replyCsum = .zero → sameBytes reply 24 [] 0 2) ∧
      (s.params.replyCsum = .computed → half (reply.getD 24 0#8) (reply.getD 25 0#8) =
        internetChecksum (slice reply 14 24 ++ [0x00#8, 0x00#8] ++ slice reply 26 34)) ∧
      sameBytes reply 26 f 30 4 ∧
      sameBytes reply 30 f 26 4 ∧
      sameBytes reply 34 [0x00#8, 0x00#8] 0 2 ∧
      half (reply.getD 36 0#8) (reply.getD 37 0#8) =
        internetChecksum ([0x00#8, 0x00#8, 0x00#8, 0x00#8] ++ f.drop 38) ∧
      sameBytes reply 38 f 38 (f.length - 38))

/-- R186 and R188: the echo reply's ICMP message verifies to 0x0000, and so does its IPv4 header when
IPV4_REPLY_CSUM is COMPUTED. -/
def Obligations.EchoReplyChecksumsVerify : Prop :=
  ∀ (s t : State) (f : Bytes), exec (.fEchoRequest f) s = .next t → t.phase = .waitTx →
    internetChecksum (t.pendingTx.drop 34) = 0#16 ∧
    (s.params.replyCsum = .computed → internetChecksum (slice t.pendingTx 14 34) = 0#16) ∧
    (s.params.replyCsum = .zero → slice t.pendingTx 24 26 = [0#8, 0#8])

/-- R200 and R83: on every frame, DISPATCH, written layer by layer over the codec, completes and leaves exactly the
state that the instruction of the frame's class leaves, written row by row over absolute offsets. -/
def Obligations.DispatchIsItsFrameClass : Prop :=
  ∀ (s : State) (f : Bytes), s.phase = .waitRx → legalLength s.params.rxBufBytes f →
    ∃ t, exec (.dispatch f) s = .next t ∧
      exec (instrOfClass (classOf s.params.myIp f) f) s = .next t

/-- R198 and R216: an accepted frame yields at most one reply; it is 60 bytes for an ARP request, as long as the
request for an echo request, none for every other class; and it always fits the transmit buffer. -/
def Obligations.AtMostOneReplyPerFrame : Prop :=
  ∀ (s t : State) (f : Bytes), exec (.dispatch f) s = .next t →
    (t.phase = .waitTx ↔ t.pendingTx ≠ []) ∧
    (t.phase = .waitTx → classOf s.params.myIp f = .arpRequest ∧ t.pendingTx.length = 60 ∨
      classOf s.params.myIp f = .echoRequest ∧ t.pendingTx.length = f.length) ∧
    (classOf s.params.myIp f = .arpRequest → t.phase = .waitTx) ∧
    t.pendingTx.length ≤ s.params.txBufBytes ∧ t.txOut = s.txOut

/-- R199: classes outside the four ARP ones leave the CAM, and classes outside F_ARP_REQUEST and F_ECHO_REQUEST
emit no frame. The spec marks it "derived: from rules R171 to R192". -/
def Obligations.OtherClassesHaveNoSideEffect : Prop :=
  ∀ (s t : State) (c : FrameClass) (f : Bytes), exec (instrOfClass c f) s = .next t →
    (c ∉ [.arpRequest, .arpReply, .rarpRequest, .rarpReply] → t.cam = s.cam) ∧
    (c ∉ [.arpRequest, .echoRequest] → t.phase = .waitRx ∧ t.pendingTx = [] ∧ t.txOut = s.txOut)

/-- R221 and R192: a frame requires at most one diagnostic event, and a frame that is abandoned changes no CAM
entry and gets no reply. -/
def Obligations.AtMostOneRequiredEventPerFrame : Prop :=
  ∀ (s t : State) (f : Bytes), exec (.dispatch f) s = .next t →
    ∃ ds : List Diag, requiredDiags t.diagOut = requiredDiags s.diagOut ++ ds ∧ ds.length ≤ 1 ∧
      ∀ d ∈ ds, ((∃ l, d = .malformed l) ∨ (∃ l fi v, d = .unsupported l fi v)) →
        t.cam = s.cam ∧ t.phase = .waitRx ∧ t.pendingTx = []

/-- D7, the spec's own decision (R171): two frames that differ only in their Ethernet destination are processed
alike; there is no MAC filter. Log 19. -/
def Obligations.EthernetDestinationIsNotFiltered : Prop :=
  ∀ (s : State) (f g : Bytes), f.length = g.length → f.drop 6 = g.drop 6 →
    exec (.dispatch f) s = exec (.dispatch g) s

/-- R179: the target fields of an ARP request play no part: two requests that differ only in bytes 32 to 41 get
the same reply and leave the same CAM. -/
def Obligations.ArpTargetIsNotChecked : Prop :=
  ∀ (s : State) (f g : Bytes), f.length = g.length → f.take 32 = g.take 32 → f.drop 42 = g.drop 42 →
    frameEt f = 0x0806#16 → exec (.dispatch f) s = exec (.dispatch g) s

/-! ## The sequencer -/

/-- R195: in WAIT_TX, TXOK sends the held frame and TXERR logs the error and drops it; both go back to WAIT_RX. The
transport contract is the spec's own decision D20 (log 34). -/
def Obligations.TransmitAnswersEndTheWait : Prop :=
  ∀ (s : State) (rest : List Stimulus), s.phase = .waitTx →
    (s.host = .txOk :: rest → step s = .next { s with
      host := rest, kOut := s.kOut + 1, txOut := s.txOut ++ [s.pendingTx], pendingTx := [], phase := .waitRx,
      diagOut := s.diagOut ++ diagEntries s.draw [], draw := s.draw + 1 }) ∧
    (s.host = .txErr :: rest → step s = .next { s with
      host := rest, pendingTx := [], phase := .waitRx,
      diagOut := s.diagOut ++ diagEntries s.draw [.writeError], draw := s.draw + 2 })

/-- R196: in WAIT_RX, closure or a read error stops the block and keeps everything else. A delivery of length 0 is
closure (R246; log 13). -/
def Obligations.ReceiveClosureStopsTheBlock : Prop :=
  ∀ (s : State) (st : Stimulus) (rest : List Stimulus), s.phase = .waitRx →
    s.host = st :: rest → st ∈ [.rxClose, .rxError, .rx []] →
    step s = .next { s with
      host := rest, phase := .stopped, diagOut := s.diagOut ++ diagEntries s.draw [], draw := s.draw + 1 }

/-- R197: nothing leaves STOPPED. No step changes the phase, the CAM, the held frame, the counters or the frames
sent, and a stimulus of the receive or the transmit port runs no step; what still runs is the test access of R232
(log 8). -/
def Obligations.StoppedIsTerminal : Prop :=
  ∀ s t : State, s.phase = .stopped → step s = .next t →
    t.phase = .stopped ∧ t.cam = s.cam ∧ t.pendingTx = s.pendingTx ∧ t.kIn = s.kIn ∧ t.kOut = s.kOut ∧
      t.txOut = s.txOut ∧ ∃ b rest, s.host = .cmd b :: rest

/-- R194: while a reply is held no frame is taken: a step in WAIT_TX takes the transmit port's answer and nothing
else, accepts no frame and leaves the CAM. -/
def Obligations.NoFrameIsTakenWhileSending : Prop :=
  ∀ s t : State, s.phase = .waitTx → step s = .next t →
    t.phase = .waitRx ∧ t.kIn = s.kIn ∧ t.cam = s.cam ∧ t.pendingTx = [] ∧
      ∃ rest, s.host = .txOk :: rest ∨ s.host = .txErr :: rest

/-- R193 and R194: the accepted frames are counted one by one, each taken in WAIT_RX. -/
def Obligations.FramesAreAcceptedInWaitRxOnly : Prop :=
  ∀ s t : State, step s = .next t →
    (t.kIn = s.kIn ∨ t.kIn = s.kIn + 1 ∧ s.phase = .waitRx) ∧
    (t.phase = .waitTx → s.phase = .waitRx ∧ t.kIn = s.kIn + 1)

/-- R155, R232 and D30: in WAIT_TX a test access is refused, and so are the two operations that only run in WAIT_RX;
each refusal records the operation's code (R210). Log 8. -/
def Obligations.OperationsAreRefusedWhileSending : Prop :=
  ∀ (s : State) (i : Instr) (c : Byte), s.phase = .waitTx → codeOf i = some c →
    exec i s = .refused (if c = 0x21#8 ∨ c = 0x30#8 then .notEnabled c else .accessWhileSending c)

/-- R232: the test access writes nothing. A step on a command that goes on was in WAIT_RX or STOPPED and leaves
everything but the model's record of the ports (logs 8, 10 and 12): the host cannot write the CAM or the
configuration, and cannot bring a frame in by a command. -/
def Obligations.TestAccessWritesNothing : Prop :=
  ∀ (s t : State) (b : Bytes) (rest : List Stimulus), s.host = .cmd b :: rest → step s = .next t →
    s.phase ≠ .waitTx ∧ ∃ r, t = returned r { s with host := rest }

/-- R246 and R214: a frame longer than RX_BUF_BYTES is admitted by no step. -/
def Obligations.OverlongFramesAreNotAdmitted : Prop :=
  ∀ (s : State) (f : Bytes) (rest : List Stimulus), s.params.rxBufBytes < f.length →
    (s.host = .rx f :: rest → step s = .refused (.frameLength 0x30#8 f.length)) ∧
    (s.phase = .waitRx → exec (.dispatch f) s = .refused (.frameLength 0x30#8 f.length))

/-- I8 and R197: a host that delivers nothing leaves the block without a step, in each phase by name. Log 6. -/
def Obligations.SilentHostLeavesNoStep : Prop :=
  ∀ s : State, s.host = [] →
    step s = .fault (match s.phase with
      | .waitRx => .stuckInWaitRx
      | .waitTx => .stuckInWaitTx
      | .stopped => .stopped)

/-! ## Whole-machine rules -/

/-- Every well-formed instruction completes in WAIT_RX. -/
def Obligations.WellFormedInstructionsComplete : Prop :=
  ∀ (s : State) (i : Instr), s.phase = .waitRx → i.wellFormed s.params = true → ∃ t, exec i s = .next t

/-- R210 to R212 and R215 to R217: every operation returns exactly one status, each status comes from the operations
named for it and from no other, DISPATCH's is OK, the port statuses are no operation's, and an operation that raises
one has written nothing. -/
def Obligations.StatusesComeFromTheirOperations : Prop :=
  ∀ (s t : State) (i : Instr), exec i s = .next t → ∃ r, t.opOut = s.opOut ++ [r] ∧
    (∀ l, r.status = .malformed l →
      ∃ b, (i = .ethDec b ∧ l = .eth ∧ b.length < 14) ∨ (i = .arphDec b ∧ l = .arpHeader ∧ b.length < 8) ∨
        (i = .arppDec b ∧ l = .arpPayload ∧ b.length < 20) ∨ (i = .ip4Dec b ∧ l = .ipv4 ∧ b.length < 20) ∨
        (i = .icmpDec b ∧ l = .icmp ∧ b.length < 4) ∨ (i = .echoDec b ∧ l = .echo ∧ b.length < 4)) ∧
    (∀ l fi v, r.status = .unsupported l fi v →
      ∃ b, (i = .ethDec b ∧ l = .eth ∧ fi = .ethertype ∧ v ∉ [0x0800#16, 0x0806#16, 0x8035#16]) ∨
        (i = .arphDec b ∧ l = .arpHeader ∧ (fi = .hwtype ∧ v ≠ 1#16 ∨ fi = .protype ∧ v ≠ 0x0800#16 ∨
          fi = .opcode ∧ v ∉ [1#16, 2#16, 3#16, 4#16])) ∨
        (i = .icmpDec b ∧ l = .icmp ∧ fi = .icmpType ∧ v ∉ [0#16, 3#16, 8#16])) ∧
    (∀ n, r.status = .bufferTooSmall n → ∃ dst : Bytes, dst.length < n ∧
      ((∃ h, i = .ethEnc h dst ∧ n = 14) ∨ (∃ h, i = .arphEnc h dst ∧ n = 8) ∨ (∃ h, i = .arppEnc h dst ∧ n = 20) ∨
        (∃ h, i = .ip4Enc h dst ∧ n = 20) ∨ (∃ h, i = .icmpEnc h dst ∧ n = 4) ∨
        (∃ h, i = .echoEnc h dst ∧ n = 4))) ∧
    (∀ ip, r.status = .cacheFull ip → ∃ hw m, i = .camUpsert hw ip m) ∧
    r.status ∉ [.transportClosed, .transportReadError, .transportWriteError] ∧
    (codeOf i = none ∨ codeOf i = some 0x30#8 → r.status = .ok) ∧
    (r.status ≠ .ok → t = returned r s)

/-- R54: CSUM, the codec and CAM_LOOKUP change no state: whatever they return, every piece of the block's state
and its frame output stay. -/
def Obligations.PureOperationsWriteNothing : Prop :=
  ∀ (s t : State) (i : Instr), codeOf i ≠ none → (∀ f, i ≠ .dispatch f) →
    (∀ hw ip m, i ≠ .camUpsert hw ip m) → exec i s = .next t →
    t.params = s.params ∧ t.cam = s.cam ∧ t.phase = s.phase ∧ t.pendingTx = s.pendingTx ∧ t.kIn = s.kIn ∧
      t.kOut = s.kOut ∧ t.txOut = s.txOut ∧ t.host = s.host ∧ ∃ r, t.opOut = s.opOut ++ [r]

/-- R224: diagnostics never change behaviour. Two states that differ only in what the diagnostic port has carried
and in the free draws step alike, and emit the same required events. -/
def Obligations.DiagnosticsNeverChangeBehaviour : Prop :=
  ∀ s t : State, s.quiet = t.quiet →
    SameOutcome (fun a b => a.quiet = b.quiet ∧
      ∃ ds, requiredDiags a.diagOut = requiredDiags s.diagOut ++ ds ∧
        requiredDiags b.diagOut = requiredDiags t.diagOut ++ ds) (step s) (step t)

/-- R241: no rule reads what a free CAM entry holds. Two states that differ only there step alike, and still differ
only there. -/
def Obligations.FreeEntriesAreNeverRead : Prop :=
  ∀ s t : State, s.AlikeButFreeEntries t →
    SameOutcome State.AlikeButFreeEntries (step s) (step t)
end

