-- ==== Sys2Proof/Laws/Bytes.lean ====
section
/-! SUPPORT. Big-endian reading and writing (20_memory.md R50; 00_scope.md R9): reading what was written, writing
back what was read, and the two in terms of concatenated bytes. -/

namespace Sys2Proof.Machine

open Sys2Proof.Claim

/-- The number a byte string stands for, its first byte the most significant one. -/
def val (b : Bytes) : Nat := b.foldl (fun acc x => acc * 256 + x.toNat) 0

theorem memRead_eq_val (b : Bytes) (off n : Nat) : memRead b off n = val ((b.drop off).take n) := rfl

theorem foldl_val (b : Bytes) (a : Nat) :
    b.foldl (fun acc x => acc * 256 + x.toNat) a = a * 256 ^ b.length + val b := by
  unfold val
  induction b generalizing a with
  | nil => simp
  | cons x b ih =>
    simp only [List.foldl_cons, List.length_cons]
    rw [ih, ih (0 * 256 + x.toNat)]
    ring

@[simp] theorem val_nil : val [] = 0 := rfl

theorem val_cons (x : Byte) (b : Bytes) : val (x :: b) = x.toNat * 256 ^ b.length + val b := by
  rw [val, List.foldl_cons, foldl_val]; simp

theorem val_lt (b : Bytes) : val b < 256 ^ b.length := by
  induction b with
  | nil => simp
  | cons x b ih =>
    rw [val_cons, List.length_cons, pow_succ]
    have := x.isLt
    nlinarith [Nat.pow_pos (n := b.length) (show 0 < 256 by decide)]

@[simp] theorem be_length (n v : Nat) : (be n v).length = n := by
  induction n with
  | zero => rfl
  | succ n ih => simp [be, ih]

@[simp] theorem be16_length (v : Half) : (be16 v).length = 2 := be_length _ _
@[simp] theorem be32_length (v : Ip) : (be32 v).length = 4 := be_length _ _
@[simp] theorem be48_length (v : Mac) : (be48 v).length = 6 := be_length _ _
@[simp] theorem zeros_length (n : Nat) : (zeros n).length = n := List.length_replicate

theorem val_be (n v : Nat) : val (be n v) = v % 256 ^ n := by
  induction n with
  | zero => simp [be, Nat.mod_one]
  | succ n ih =>
    rw [be, val_cons, be_length, ih, Nat.mod_pow_succ, BitVec.toNat_ofNat, Nat.shiftRight_eq_div_pow,
      pow_mul]
    norm_num
    ring

theorem be_mod (n v : Nat) : be n (v % 256 ^ n) = be n v := by
  suffices h : ∀ k, k ≤ n → be k (v % 256 ^ n) = be k v from h n le_rfl
  intro k
  induction k with
  | zero => simp [be]
  | succ k ih =>
    intro hk
    rw [be, be, ih (by omega)]
    congr 1
    apply BitVec.eq_of_toNat_eq
    simp only [BitVec.toNat_ofNat, Nat.shiftRight_eq_div_pow, pow_mul]
    norm_num
    have h : (256 : Nat) ^ n = 256 ^ k * 256 ^ (n - k) := by rw [← pow_add]; congr 1; omega
    rw [h, Nat.mod_mul_right_div_self]
    have h2 : (256 : Nat) ^ (n - k) = 256 * 256 ^ (n - k - 1) := by
      rw [← pow_succ']; congr 1; omega
    rw [h2, Nat.mod_mul_right_mod]

/-- Writing back the number that was read gives the same bytes. -/
theorem be_val (b : Bytes) : be b.length (val b) = b := by
  induction b with
  | nil => rfl
  | cons x b ih =>
    rw [List.length_cons, be, val_cons]
    have hlt := val_lt b
    congr 1
    · apply BitVec.eq_of_toNat_eq
      rw [BitVec.toNat_ofNat, Nat.shiftRight_eq_div_pow, pow_mul]
      norm_num
      rw [Nat.add_comm, Nat.add_mul_div_right _ _ (by positivity), Nat.div_eq_of_lt hlt, Nat.zero_add]
      exact Nat.mod_eq_of_lt x.isLt
    · rw [← be_mod, Nat.add_comm, Nat.add_mul_mod_self_right, Nat.mod_eq_of_lt hlt, ih]

theorem val_inj {a b : Bytes} (hl : a.length = b.length) (hv : val a = val b) : a = b := by
  rw [← be_val a, ← be_val b, hl, hv]

theorem toNat_append (x : BitVec m) (y : BitVec n) : (x ++ y).toNat = x.toNat * 2 ^ n + y.toNat := by
  rw [BitVec.toNat_append, ← Nat.shiftLeft_add_eq_or_of_lt y.isLt, Nat.shiftLeft_eq]

theorem half_toNat (a b : Byte) : (half a b).toNat = val [a, b] := by
  show (a ++ b : BitVec (8 + 8)).toNat = _
  rw [toNat_append]
  simp [val_cons]

theorem addr_toNat (a b c d : Byte) : (addr a b c d).toNat = val [a, b, c, d] := by
  simp only [addr, toNat_append, val_cons, val_nil, List.length_cons, List.length_nil]
  ring

theorem mac_toNat (a b c d e f : Byte) : (mac a b c d e f).toNat = val [a, b, c, d, e, f] := by
  simp only [mac, toNat_append, val_cons, val_nil, List.length_cons, List.length_nil]
  ring

theorem be16_half (a b : Byte) : be16 (half a b) = [a, b] := by
  rw [be16, half_toNat]; exact be_val [a, b]

theorem be32_addr (a b c d : Byte) : be32 (addr a b c d) = [a, b, c, d] := by
  rw [be32, addr_toNat]; exact be_val [a, b, c, d]

theorem be48_mac (a b c d e f : Byte) : be48 (mac a b c d e f) = [a, b, c, d, e, f] := by
  rw [be48, mac_toNat]; exact be_val [a, b, c, d, e, f]

theorem ofNat_shiftRight_eq_extract {w : Nat} (v : BitVec w) (k : Nat) :
    BitVec.ofNat 8 (v.toNat >>> k) = v.extractLsb' k 8 := by
  apply BitVec.eq_of_toNat_eq
  simp [BitVec.extractLsb'_toNat]

theorem be16_eq (v : Half) : be16 v = halfBytes v := by
  simp [be16, be, halfBytes, ofNat_shiftRight_eq_extract, ← ofNat_shiftRight_eq_extract v 0]

theorem be32_eq (v : Ip) : be32 v = addrBytes v := by
  simp [be32, be, addrBytes, ofNat_shiftRight_eq_extract, ← ofNat_shiftRight_eq_extract v 0]

theorem be48_eq (v : Mac) : be48 v = macBytes v := by
  simp [be48, be, macBytes, ofNat_shiftRight_eq_extract, ← ofNat_shiftRight_eq_extract v 0]

theorem ofNat_val {w : Nat} (l : Bytes) (h : 256 ^ l.length = 2 ^ w) : (BitVec.ofNat w (val l)).toNat = val l := by
  rw [BitVec.toNat_ofNat, ← h]
  exact Nat.mod_eq_of_lt (val_lt l)

/-- A 16-bit field is its two bytes, the first the most significant (R50). -/
theorem rd16_of_drop {b : Bytes} {off : Nat} {x y : Byte} {t : Bytes} (h : b.drop off = x :: y :: t) :
    rd16 b off = half x y := by
  apply BitVec.eq_of_toNat_eq
  rw [rd16, memRead_eq_val, h, half_toNat, show (x :: y :: t).take 2 = [x, y] from rfl]
  exact ofNat_val [x, y] (by norm_num)

/-- An IPv4 address is its four bytes in wire order (R50). -/
theorem rd32_of_drop {b : Bytes} {off : Nat} {x y z w : Byte} {t : Bytes}
    (h : b.drop off = x :: y :: z :: w :: t) : rd32 b off = addr x y z w := by
  apply BitVec.eq_of_toNat_eq
  rw [rd32, memRead_eq_val, h, addr_toNat, show (x :: y :: z :: w :: t).take 4 = [x, y, z, w] from rfl]
  exact ofNat_val [x, y, z, w] (by norm_num)

/-- A MAC address is its six bytes in wire order (R50). -/
theorem rd48_of_drop {b : Bytes} {off : Nat} {x y z u v w : Byte} {t : Bytes}
    (h : b.drop off = x :: y :: z :: u :: v :: w :: t) : rd48 b off = mac x y z u v w := by
  apply BitVec.eq_of_toNat_eq
  rw [rd48, memRead_eq_val, h, mac_toNat, show (x :: y :: z :: u :: v :: w :: t).take 6 = [x, y, z, u, v, w] from rfl]
  exact ofNat_val [x, y, z, u, v, w] (by norm_num)

theorem ofNat_toNat_mod {w : Nat} (n : Nat) (v : BitVec w) (h : 256 ^ n = 2 ^ w) (l : Bytes)
    (hl : l = be n v.toNat) : BitVec.ofNat w (val l) = v := by
  apply BitVec.eq_of_toNat_eq
  rw [hl, val_be, BitVec.toNat_ofNat, h, Nat.mod_mod, Nat.mod_eq_of_lt v.isLt]

/-- Reading a field where its own bytes stand gives the field. -/
theorem rd16_be16_append {pre : Bytes} {off : Nat} (v : Half) (t : Bytes) (h : pre.length = off) :
    rd16 (pre ++ (be16 v ++ t)) off = v := by
  apply ofNat_toNat_mod 2 v rfl
  rw [← h, List.drop_left, ← be16_length v, List.take_left]; rfl

theorem rd32_be32_append {pre : Bytes} {off : Nat} (v : Ip) (t : Bytes) (h : pre.length = off) :
    rd32 (pre ++ (be32 v ++ t)) off = v := by
  apply ofNat_toNat_mod 4 v rfl
  rw [← h, List.drop_left, ← be32_length v, List.take_left]; rfl

theorem rd48_be48_append {pre : Bytes} {off : Nat} (v : Mac) (t : Bytes) (h : pre.length = off) :
    rd48 (pre ++ (be48 v ++ t)) off = v := by
  apply ofNat_toNat_mod 6 v rfl
  rw [← h, List.drop_left, ← be48_length v, List.take_left]; rfl

theorem be_memRead {b : Bytes} {off n : Nat} (h : off + n ≤ b.length) :
    be n (memRead b off n) = (b.drop off).take n := by
  have hl : ((b.drop off).take n).length = n := by simp; omega
  have := be_val ((b.drop off).take n)
  rwa [hl] at this

theorem memRead_lt (b : Bytes) (off n : Nat) : memRead b off n < 256 ^ n := by
  refine lt_of_lt_of_le (val_lt _) (Nat.pow_le_pow_right (by decide) ?_)
  simp

/-- Writing back a field that was read gives the bytes it was read from. -/
theorem be16_rd16 {b : Bytes} {off : Nat} (h : off + 2 ≤ b.length) : be16 (rd16 b off) = slice b off (off + 2) := by
  rw [be16, rd16, BitVec.toNat_ofNat, show 2 ^ 16 = 256 ^ 2 from rfl, be_mod, be_memRead h]
  simp [slice]

theorem be32_rd32 {b : Bytes} {off : Nat} (h : off + 4 ≤ b.length) : be32 (rd32 b off) = slice b off (off + 4) := by
  rw [be32, rd32, BitVec.toNat_ofNat, show 2 ^ 32 = 256 ^ 4 from rfl, be_mod, be_memRead h]
  simp [slice]

theorem be48_rd48 {b : Bytes} {off : Nat} (h : off + 6 ≤ b.length) : be48 (rd48 b off) = slice b off (off + 6) := by
  rw [be48, rd48, BitVec.toNat_ofNat, show 2 ^ 48 = 256 ^ 6 from rfl, be_mod, be_memRead h]
  simp [slice]

/-- Reading in the rest of a byte string is reading further on in the string. -/
theorem memRead_drop (b : Bytes) (k off n : Nat) : memRead (b.drop k) off n = memRead b (k + off) n := by
  simp [memRead, List.drop_drop]

theorem rd8_drop (b : Bytes) (k off : Nat) : rd8 (b.drop k) off = rd8 b (k + off) := by
  simp [rd8, List.getD_eq_getElem?_getD]

theorem rd16_drop (b : Bytes) (k off : Nat) : rd16 (b.drop k) off = rd16 b (k + off) := by
  rw [rd16, rd16, memRead_drop]

theorem rd32_drop (b : Bytes) (k off : Nat) : rd32 (b.drop k) off = rd32 b (k + off) := by
  rw [rd32, rd32, memRead_drop]

theorem rd48_drop (b : Bytes) (k off : Nat) : rd48 (b.drop k) off = rd48 b (k + off) := by
  rw [rd48, rd48, memRead_drop]

/-- The byte at an offset is the slice of one byte there. -/
theorem rd8_slice {b : Bytes} {off : Nat} (h : off < b.length) : [rd8 b off] = slice b off (off + 1) := by
  rw [rd8, slice, List.getD_eq_getElem _ _ h, List.drop_eq_getElem_cons h, Nat.add_sub_cancel_left]
  rfl

theorem slice_append {b : Bytes} {i j k : Nat} (hij : i ≤ j) (hjk : j ≤ k) :
    slice b i j ++ slice b j k = slice b i k := by
  unfold slice
  have h : k - i = (j - i) + (k - j) := by omega
  rw [h, List.take_add, List.drop_drop]
  congr 3
  omega

theorem slice_length {b : Bytes} {i j : Nat} (h : j ≤ b.length) : (slice b i j).length = j - i := by
  simp [slice]; omega

end Sys2Proof.Machine
end

