-- ==== Sys2Proof/Laws/State.lean ====
section
/-! SUPPORT. One lemma per field and per update of the state, each true by unfolding: later proofs cite these and
unfold no record update. -/

namespace Sys2Proof.Machine.State

@[simp] theorem emit_params (s : State) (ds : List Diag) : (s.emit ds).params = s.params := rfl
@[simp] theorem emit_cam (s : State) (ds : List Diag) : (s.emit ds).cam = s.cam := rfl
@[simp] theorem emit_phase (s : State) (ds : List Diag) : (s.emit ds).phase = s.phase := rfl
@[simp] theorem emit_pendingTx (s : State) (ds : List Diag) : (s.emit ds).pendingTx = s.pendingTx := rfl
@[simp] theorem emit_kIn (s : State) (ds : List Diag) : (s.emit ds).kIn = s.kIn := rfl
@[simp] theorem emit_kOut (s : State) (ds : List Diag) : (s.emit ds).kOut = s.kOut := rfl
@[simp] theorem emit_txOut (s : State) (ds : List Diag) : (s.emit ds).txOut = s.txOut := rfl
@[simp] theorem emit_diagOut (s : State) (ds : List Diag) : (s.emit ds).diagOut = s.diagOut ++ diagEntries s.draw ds := rfl
@[simp] theorem emit_opOut (s : State) (ds : List Diag) : (s.emit ds).opOut = s.opOut := rfl
@[simp] theorem emit_draw (s : State) (ds : List Diag) : (s.emit ds).draw = s.draw + ds.length + 1 := rfl
@[simp] theorem emit_host (s : State) (ds : List Diag) : (s.emit ds).host = s.host := rfl

@[simp] theorem answer_params (s : State) (r : OpReturn) : (s.answer r).params = s.params := rfl
@[simp] theorem answer_cam (s : State) (r : OpReturn) : (s.answer r).cam = s.cam := rfl
@[simp] theorem answer_phase (s : State) (r : OpReturn) : (s.answer r).phase = s.phase := rfl
@[simp] theorem answer_pendingTx (s : State) (r : OpReturn) : (s.answer r).pendingTx = s.pendingTx := rfl
@[simp] theorem answer_kIn (s : State) (r : OpReturn) : (s.answer r).kIn = s.kIn := rfl
@[simp] theorem answer_kOut (s : State) (r : OpReturn) : (s.answer r).kOut = s.kOut := rfl
@[simp] theorem answer_txOut (s : State) (r : OpReturn) : (s.answer r).txOut = s.txOut := rfl
@[simp] theorem answer_diagOut (s : State) (r : OpReturn) : (s.answer r).diagOut = s.diagOut ++ diagEntries s.draw [] := rfl
@[simp] theorem answer_opOut (s : State) (r : OpReturn) : (s.answer r).opOut = s.opOut ++ [r] := rfl
@[simp] theorem answer_draw (s : State) (r : OpReturn) : (s.answer r).draw = s.draw + 1 := rfl
@[simp] theorem answer_host (s : State) (r : OpReturn) : (s.answer r).host = s.host := rfl

@[simp] theorem endFrame_params (s : State) (v : Verdict) : (s.endFrame v).params = s.params := rfl
@[simp] theorem endFrame_cam (s : State) (v : Verdict) : (s.endFrame v).cam = v.cam := rfl
@[simp] theorem endFrame_phase (s : State) (v : Verdict) : (s.endFrame v).phase = phaseAfter v.reply := rfl
@[simp] theorem endFrame_pendingTx (s : State) (v : Verdict) : (s.endFrame v).pendingTx = v.reply.getD [] := rfl
@[simp] theorem endFrame_kIn (s : State) (v : Verdict) : (s.endFrame v).kIn = s.kIn + 1 := rfl
@[simp] theorem endFrame_kOut (s : State) (v : Verdict) : (s.endFrame v).kOut = s.kOut := rfl
@[simp] theorem endFrame_txOut (s : State) (v : Verdict) : (s.endFrame v).txOut = s.txOut := rfl
@[simp] theorem endFrame_diagOut (s : State) (v : Verdict) : (s.endFrame v).diagOut = s.diagOut ++ diagEntries s.draw v.diags := rfl
@[simp] theorem endFrame_opOut (s : State) (v : Verdict) : (s.endFrame v).opOut = s.opOut ++ [⟨.ok, .dispatched v.reply⟩] := rfl
@[simp] theorem endFrame_draw (s : State) (v : Verdict) : (s.endFrame v).draw = s.draw + v.diags.length + 1 := rfl
@[simp] theorem endFrame_host (s : State) (v : Verdict) : (s.endFrame v).host = s.host := rfl

@[simp] theorem stop_params (s : State) : (s.stop).params = s.params := rfl
@[simp] theorem stop_cam (s : State) : (s.stop).cam = s.cam := rfl
@[simp] theorem stop_phase (s : State) : (s.stop).phase = .stopped := rfl
@[simp] theorem stop_pendingTx (s : State) : (s.stop).pendingTx = s.pendingTx := rfl
@[simp] theorem stop_kIn (s : State) : (s.stop).kIn = s.kIn := rfl
@[simp] theorem stop_kOut (s : State) : (s.stop).kOut = s.kOut := rfl
@[simp] theorem stop_txOut (s : State) : (s.stop).txOut = s.txOut := rfl
@[simp] theorem stop_diagOut (s : State) : (s.stop).diagOut = s.diagOut ++ diagEntries s.draw [] := rfl
@[simp] theorem stop_opOut (s : State) : (s.stop).opOut = s.opOut := rfl
@[simp] theorem stop_draw (s : State) : (s.stop).draw = s.draw + 1 := rfl
@[simp] theorem stop_host (s : State) : (s.stop).host = s.host := rfl

@[simp] theorem sent_params (s : State) : (s.sent).params = s.params := rfl
@[simp] theorem sent_cam (s : State) : (s.sent).cam = s.cam := rfl
@[simp] theorem sent_phase (s : State) : (s.sent).phase = .waitRx := rfl
@[simp] theorem sent_pendingTx (s : State) : (s.sent).pendingTx = [] := rfl
@[simp] theorem sent_kIn (s : State) : (s.sent).kIn = s.kIn := rfl
@[simp] theorem sent_kOut (s : State) : (s.sent).kOut = s.kOut + 1 := rfl
@[simp] theorem sent_txOut (s : State) : (s.sent).txOut = s.txOut ++ [s.pendingTx] := rfl
@[simp] theorem sent_diagOut (s : State) : (s.sent).diagOut = s.diagOut ++ diagEntries s.draw [] := rfl
@[simp] theorem sent_opOut (s : State) : (s.sent).opOut = s.opOut := rfl
@[simp] theorem sent_draw (s : State) : (s.sent).draw = s.draw + 1 := rfl
@[simp] theorem sent_host (s : State) : (s.sent).host = s.host := rfl

@[simp] theorem sendFailed_params (s : State) : (s.sendFailed).params = s.params := rfl
@[simp] theorem sendFailed_cam (s : State) : (s.sendFailed).cam = s.cam := rfl
@[simp] theorem sendFailed_phase (s : State) : (s.sendFailed).phase = .waitRx := rfl
@[simp] theorem sendFailed_pendingTx (s : State) : (s.sendFailed).pendingTx = [] := rfl
@[simp] theorem sendFailed_kIn (s : State) : (s.sendFailed).kIn = s.kIn := rfl
@[simp] theorem sendFailed_kOut (s : State) : (s.sendFailed).kOut = s.kOut := rfl
@[simp] theorem sendFailed_txOut (s : State) : (s.sendFailed).txOut = s.txOut := rfl
@[simp] theorem sendFailed_diagOut (s : State) : (s.sendFailed).diagOut = s.diagOut ++ diagEntries s.draw [.writeError] := rfl
@[simp] theorem sendFailed_opOut (s : State) : (s.sendFailed).opOut = s.opOut := rfl
@[simp] theorem sendFailed_draw (s : State) : (s.sendFailed).draw = s.draw + 2 := rfl
@[simp] theorem sendFailed_host (s : State) : (s.sendFailed).host = s.host := rfl

@[simp] theorem taken_params (s : State) (rest : List Stimulus) : (s.taken rest).params = s.params := rfl
@[simp] theorem taken_cam (s : State) (rest : List Stimulus) : (s.taken rest).cam = s.cam := rfl
@[simp] theorem taken_phase (s : State) (rest : List Stimulus) : (s.taken rest).phase = s.phase := rfl
@[simp] theorem taken_pendingTx (s : State) (rest : List Stimulus) : (s.taken rest).pendingTx = s.pendingTx := rfl
@[simp] theorem taken_kIn (s : State) (rest : List Stimulus) : (s.taken rest).kIn = s.kIn := rfl
@[simp] theorem taken_kOut (s : State) (rest : List Stimulus) : (s.taken rest).kOut = s.kOut := rfl
@[simp] theorem taken_txOut (s : State) (rest : List Stimulus) : (s.taken rest).txOut = s.txOut := rfl
@[simp] theorem taken_diagOut (s : State) (rest : List Stimulus) : (s.taken rest).diagOut = s.diagOut := rfl
@[simp] theorem taken_opOut (s : State) (rest : List Stimulus) : (s.taken rest).opOut = s.opOut := rfl
@[simp] theorem taken_draw (s : State) (rest : List Stimulus) : (s.taken rest).draw = s.draw := rfl
@[simp] theorem taken_host (s : State) (rest : List Stimulus) : (s.taken rest).host = rest := rfl

@[simp] theorem withFetchWord_params (s : State) (nbits w : Nat) : (s.withFetchWord nbits w).params = s.params := rfl
@[simp] theorem withFetchWord_cam (s : State) (nbits w : Nat) : (s.withFetchWord nbits w).cam = s.cam := rfl
@[simp] theorem withFetchWord_phase (s : State) (nbits w : Nat) : (s.withFetchWord nbits w).phase = s.phase := rfl
@[simp] theorem withFetchWord_pendingTx (s : State) (nbits w : Nat) : (s.withFetchWord nbits w).pendingTx = s.pendingTx := rfl
@[simp] theorem withFetchWord_kIn (s : State) (nbits w : Nat) : (s.withFetchWord nbits w).kIn = s.kIn := rfl
@[simp] theorem withFetchWord_kOut (s : State) (nbits w : Nat) : (s.withFetchWord nbits w).kOut = s.kOut := rfl
@[simp] theorem withFetchWord_txOut (s : State) (nbits w : Nat) : (s.withFetchWord nbits w).txOut = s.txOut := rfl
@[simp] theorem withFetchWord_diagOut (s : State) (nbits w : Nat) : (s.withFetchWord nbits w).diagOut = s.diagOut := rfl
@[simp] theorem withFetchWord_opOut (s : State) (nbits w : Nat) : (s.withFetchWord nbits w).opOut = s.opOut := rfl
@[simp] theorem withFetchWord_draw (s : State) (nbits w : Nat) : (s.withFetchWord nbits w).draw = s.draw := rfl
@[simp] theorem withFetchWord_host (s : State) (nbits w : Nat) : (s.withFetchWord nbits w).host = fetchStimulus s.params nbits w :: s.host := rfl

@[simp] theorem construct_params (p : Params) : (State.construct p).params = p := rfl
@[simp] theorem construct_cam (p : Params) : (State.construct p).cam = (List.range p.arpCap).map freeEntry := rfl
@[simp] theorem construct_phase (p : Params) : (State.construct p).phase = .waitRx := rfl
@[simp] theorem construct_pendingTx (p : Params) : (State.construct p).pendingTx = [] := rfl
@[simp] theorem construct_kIn (p : Params) : (State.construct p).kIn = 0 := rfl
@[simp] theorem construct_kOut (p : Params) : (State.construct p).kOut = 0 := rfl
@[simp] theorem construct_txOut (p : Params) : (State.construct p).txOut = [] := rfl
@[simp] theorem construct_diagOut (p : Params) : (State.construct p).diagOut = [] := rfl
@[simp] theorem construct_opOut (p : Params) : (State.construct p).opOut = [] := rfl
@[simp] theorem construct_draw (p : Params) : (State.construct p).draw = 0 := rfl
@[simp] theorem construct_host (p : Params) : (State.construct p).host = [] := rfl

end Sys2Proof.Machine.State
end

