-- ==== Sys2Proof/Laws/Ops.lean ====
section
/-! SUPPORT. What each shared operation can do, said once, and the states the statements name as the model's own
updates. -/

namespace Sys2Proof.Machine

open Sys2Proof.Claim

theorem answer_eq_returned (r : OpReturn) (s : State) : s.answer r = returned r s := rfl

theorem endFrame_none (ds : List Diag) (cam : List CamEntry) (s : State) :
    s.endFrame ⟨none, ds, cam⟩ = frameWithoutReply ds cam s := rfl

theorem endFrame_some (r : Bytes) (ds : List Diag) (cam : List CamEntry) (s : State) :
    s.endFrame ⟨some r, ds, cam⟩ = frameWithReply r ds cam s := rfl

/-- A test access goes on, to the given state, exactly when the phase is not WAIT_TX. -/
theorem testAccess_next_iff {c : Byte} {s t u : State} : testAccess c s t = .next u ↔ s.phase ≠ .waitTx ∧ u = t := by
  unfold testAccess
  cases h : s.phase <;> simp [eq_comm]

theorem testAccess_of_idle {s : State} (h : s.phase ≠ .waitTx) (c : Byte) (t : State) :
    testAccess c s t = .next t :=
  testAccess_next_iff.2 ⟨h, rfl⟩

theorem testAccess_of_sending {s : State} (h : s.phase = .waitTx) (c : Byte) (t : State) :
    testAccess c s t = .refused (.accessWhileSending c) := by
  simp [testAccess, h]

theorem testAccess_never_faults (c : Byte) (s t : State) (r : Fault) : testAccess c s t ≠ .fault r := by
  unfold testAccess; cases s.phase <;> simp

/-- An operation internal to the dispatch step goes on exactly in WAIT_RX. -/
theorem duringDispatch_next_iff {c : Byte} {s t u : State} :
    duringDispatch c s t = .next u ↔ s.phase = .waitRx ∧ u = t := by
  unfold duringDispatch
  cases h : s.phase <;> simp [eq_comm]

theorem duringDispatch_of_waiting {s : State} (h : s.phase = .waitRx) (c : Byte) (t : State) :
    duringDispatch c s t = .next t := duringDispatch_next_iff.2 ⟨h, rfl⟩

/-- Outside WAIT_RX it is refused, by its code. -/
theorem duringDispatch_of_not_waiting {s : State} (h : s.phase ≠ .waitRx) (c : Byte) (t : State) :
    duringDispatch c s t = .refused (.notEnabled c) := by
  unfold duringDispatch
  cases hp : s.phase <;> simp_all

theorem returns_of_idle {s : State} (h : s.phase ≠ .waitTx) (c : Byte) (r : OpReturn) :
    returns c r s = .next (returned r s) := testAccess_of_idle h _ _

/-- An operation that writes no state: if it goes on, its state is the one `returned` writes out. -/
theorem returns_next_iff {c : Byte} {r : OpReturn} {s u : State} :
    returns c r s = .next u ↔ s.phase ≠ .waitTx ∧ u = returned r s := testAccess_next_iff

/-- A frame is accepted exactly in WAIT_RX at a legal length. -/
theorem acceptFrame_next_iff {f : Bytes} {s u : State} {o : Host.Outcome State Fault Refusal} :
    acceptFrame f s o = .next u ↔ s.phase = .waitRx ∧ legalLength s.params.rxBufBytes f ∧ o = .next u := by
  unfold acceptFrame
  by_cases hp : s.phase = .waitRx
  · by_cases hl : legalLength s.params.rxBufBytes f
    · rw [if_neg (not_not.2 hp), if_pos hl]
      exact ⟨fun h => ⟨hp, hl, h⟩, fun h => h.2.2⟩
    · rw [if_neg (not_not.2 hp), if_neg hl]
      exact ⟨fun h => (nomatch h), fun h => absurd h.2.1 hl⟩
  · rw [if_pos hp]
    exact ⟨fun h => (nomatch h), fun h => absurd h.1 hp⟩

theorem acceptFrame_of_waiting {f : Bytes} {s : State} (hp : s.phase = .waitRx)
    (hl : legalLength s.params.rxBufBytes f) (o : Host.Outcome State Fault Refusal) :
    acceptFrame f s o = o := by
  simp [acceptFrame, hp, hl]

/-- A frame-class instruction goes on exactly on an accepted frame of its class, and ends as its verdict says. -/
theorem runClass_next_iff {c : FrameClass} {f : Bytes} {s u : State} {v : Verdict} :
    runClass c f s v = .next u ↔
      s.phase = .waitRx ∧ legalLength s.params.rxBufBytes f ∧ classOf s.params.myIp f = c ∧
        u = s.endFrame v := by
  rw [runClass, acceptFrame_next_iff]
  constructor
  · rintro ⟨hp, hl, h⟩
    split at h
    · exact ⟨hp, hl, ‹_›, (Host.Outcome.next.inj h).symm⟩
    · cases h
  · rintro ⟨hp, hl, hc, rfl⟩
    exact ⟨hp, hl, by simp [hc]⟩

theorem runClass_of_class {c : FrameClass} {f : Bytes} {s : State} (hp : s.phase = .waitRx)
    (hl : legalLength s.params.rxBufBytes f) (hc : classOf s.params.myIp f = c) (v : Verdict) :
    runClass c f s v = .next (s.endFrame v) := runClass_next_iff.2 ⟨hp, hl, hc, rfl⟩

/-- The required events of a step's output are the ones it was given, in order (R222). -/
theorem requiredDiags_diagEntries (n : Nat) (ds : List Diag) : requiredDiags (diagEntries n ds) = ds := by
  induction ds generalizing n with
  | nil => rfl
  | cons d ds ih => simp [diagEntries, requiredDiags, ih]

theorem requiredDiags_append (a b : List DiagEntry) :
    requiredDiags (a ++ b) = requiredDiags a ++ requiredDiags b := by
  induction a with
  | nil => rfl
  | cons e a ih => cases e <;> simp [requiredDiags, ih]

end Sys2Proof.Machine
end

