-- ==== Sys2Proof/Laws/Cam.lean ====
section
/-! SUPPORT. What CAM_UPSERT and CAM_LOOKUP do to the list of entries (43_arp_cam.md R150, R152): the three cases of
an upsert, and that an upsert keeps the CAM's invariants (10_state.md R25). -/

namespace Sys2Proof.Machine

@[simp] theorem setMac_valid (m : Mac) (e : CamEntry) : (e.setMac m).valid = e.valid := rfl
@[simp] theorem setMac_hwtype (m : Mac) (e : CamEntry) : (e.setMac m).hwtype = e.hwtype := rfl
@[simp] theorem setMac_ip (m : Mac) (e : CamEntry) : (e.setMac m).ip = e.ip := rfl
@[simp] theorem setMac_mac (m : Mac) (e : CamEntry) : (e.setMac m).mac = m := rfl

theorem hasKey_iff {hw : Half} {ip : Ip} {e : CamEntry} :
    e.hasKey hw ip = true ↔ e.valid = true ∧ e.hwtype = hw ∧ e.ip = ip := by
  simp [CamEntry.hasKey, and_assoc]

theorem hasIp_iff {ip : Ip} {e : CamEntry} : e.hasIp ip = true ↔ e.valid = true ∧ e.ip = ip := by
  simp [CamEntry.hasIp]

theorem isFree_iff {e : CamEntry} : e.isFree = true ↔ e.valid = false := by
  simp [CamEntry.isFree]

/-- `i` is the lowest index whose entry satisfies `p`. -/
def LowestIndex (p : CamEntry → Bool) (cam : List CamEntry) (i : Nat) : Prop :=
  ∃ hi : i < cam.length, p cam[i] = true ∧ ∀ (j : Nat) (hj : j < i), p (cam[j]'(hj.trans hi)) = false

theorem findIdx?_eq_some {p : CamEntry → Bool} {cam : List CamEntry} {i : Nat} :
    cam.findIdx? p = some i ↔ LowestIndex p cam i := by
  rw [List.findIdx?_eq_some_iff_getElem]
  simp [LowestIndex]

theorem findIdx?_eq_none {p : CamEntry → Bool} {cam : List CamEntry} :
    cam.findIdx? p = none ↔ ∀ e ∈ cam, p e = false := by
  simp [List.findIdx?_eq_none_iff]

/-- The three cases of an upsert (R150). -/
theorem camUpsert_cases (cam : List CamEntry) (hw : Half) (ip : Ip) (m : Mac) :
    (∃ i, LowestIndex (CamEntry.hasKey hw ip) cam i ∧
      camUpsert cam hw ip m = (⟨.ok, .updated i⟩, cam.modify i (CamEntry.setMac m))) ∨
    (∃ i, (∀ e ∈ cam, e.hasKey hw ip = false) ∧ LowestIndex CamEntry.isFree cam i ∧
      camUpsert cam hw ip m = (⟨.ok, .inserted i⟩, cam.set i ⟨true, hw, ip, m⟩)) ∨
    ((∀ e ∈ cam, e.hasKey hw ip = false) ∧ (∀ e ∈ cam, e.isFree = false) ∧
      camUpsert cam hw ip m = (⟨.cacheFull ip, .nothing⟩, cam)) := by
  unfold camUpsert
  cases h : cam.findIdx? (CamEntry.hasKey hw ip) with
  | some i => exact .inl ⟨i, findIdx?_eq_some.1 h, rfl⟩
  | none =>
    cases h' : cam.findIdx? CamEntry.isFree with
    | some i => exact .inr (.inl ⟨i, findIdx?_eq_none.1 h, findIdx?_eq_some.1 h', rfl⟩)
    | none => exact .inr (.inr ⟨findIdx?_eq_none.1 h, findIdx?_eq_none.1 h', rfl⟩)

theorem camUpsert_of_key {cam : List CamEntry} {hw : Half} {ip : Ip} {i : Nat} (m : Mac)
    (h : LowestIndex (CamEntry.hasKey hw ip) cam i) :
    camUpsert cam hw ip m = (⟨.ok, .updated i⟩, cam.modify i (CamEntry.setMac m)) := by
  simp [camUpsert, findIdx?_eq_some.2 h]

theorem camUpsert_of_free {cam : List CamEntry} {hw : Half} {ip : Ip} {i : Nat} (m : Mac)
    (hk : ∀ e ∈ cam, e.hasKey hw ip = false) (h : LowestIndex CamEntry.isFree cam i) :
    camUpsert cam hw ip m = (⟨.ok, .inserted i⟩, cam.set i ⟨true, hw, ip, m⟩) := by
  simp [camUpsert, findIdx?_eq_none.2 hk, findIdx?_eq_some.2 h]

theorem camUpsert_of_full {cam : List CamEntry} {hw : Half} {ip : Ip} (m : Mac)
    (hk : ∀ e ∈ cam, e.hasKey hw ip = false) (h : ∀ e ∈ cam, e.isFree = false) :
    camUpsert cam hw ip m = (⟨.cacheFull ip, .nothing⟩, cam) := by
  simp [camUpsert, findIdx?_eq_none.2 hk, findIdx?_eq_none.2 h]

/-- Every entry after an upsert: the old one, the old one with a new MAC, or, where a free one was, the new one. -/
theorem camUpsert_getElem {cam : List CamEntry} {hw : Half} {ip : Ip} {m : Mac} {j : Nat}
    (hj : j < (camUpsert cam hw ip m).2.length) :
    ∃ hj' : j < cam.length,
      (camUpsert cam hw ip m).2[j] = cam[j] ∨
      ((camUpsert cam hw ip m).2[j] = cam[j].setMac m ∧ cam[j].hasKey hw ip = true) ∨
      ((camUpsert cam hw ip m).2[j] = ⟨true, hw, ip, m⟩ ∧ LowestIndex CamEntry.isFree cam j ∧
        ∀ e ∈ cam, e.hasKey hw ip = false) := by
  rcases camUpsert_cases cam hw ip m with ⟨i, hi, h⟩ | ⟨i, hk, hi, h⟩ | ⟨-, -, h⟩
  · simp only [h, List.length_modify] at hj ⊢
    refine ⟨hj, ?_⟩
    by_cases hij : i = j
    · subst hij; exact .inr (.inl ⟨by simp, hi.2.1⟩)
    · exact .inl (by simp [hij])
  · simp only [h, List.length_set] at hj ⊢
    refine ⟨hj, ?_⟩
    by_cases hij : i = j
    · subst hij; exact .inr (.inr ⟨by simp, hi, hk⟩)
    · exact .inl (by simp [hij])
  · refine ⟨by simpa [h] using hj, .inl ?_⟩
    simp [h]

@[simp] theorem camUpsert_length (cam : List CamEntry) (hw : Half) (ip : Ip) (m : Mac) :
    (camUpsert cam hw ip m).2.length = cam.length := by
  rcases camUpsert_cases cam hw ip m with ⟨i, -, h⟩ | ⟨i, -, -, h⟩ | ⟨-, -, h⟩ <;> simp [h]

/-- The status of an upsert: OK or CacheFull, and nothing else (R150). -/
theorem camUpsert_status (cam : List CamEntry) (hw : Half) (ip : Ip) (m : Mac) :
    (camUpsert cam hw ip m).1.status = .ok ∨ (camUpsert cam hw ip m).1.status = .cacheFull ip := by
  rcases camUpsert_cases cam hw ip m with ⟨i, -, h⟩ | ⟨i, -, -, h⟩ | ⟨-, -, h⟩ <;> simp [h]

/-- An upsert never frees an entry and never changes a valid entry's key (R25 (I3)). -/
theorem camUpsert_keeps_keys {cam : List CamEntry} {hw : Half} {ip : Ip} {m : Mac} {i : Nat}
    (hi : i < cam.length) (hv : cam[i].valid = true) :
    ∃ hi' : i < (camUpsert cam hw ip m).2.length, (camUpsert cam hw ip m).2[i].valid = true ∧
      (camUpsert cam hw ip m).2[i].hwtype = cam[i].hwtype ∧ (camUpsert cam hw ip m).2[i].ip = cam[i].ip := by
  refine ⟨by simpa using hi, ?_⟩
  obtain ⟨_, h | ⟨h, _⟩ | ⟨_, ⟨_, h, _⟩, _⟩⟩ := camUpsert_getElem (hw := hw) (ip := ip) (m := m) (by simpa using hi)
  · simp [h, hv]
  · simp [h, hv]
  · simp [isFree_iff.1 h] at hv

/-- An upsert of an Ethernet key keeps the CAM's invariants (R25). -/
theorem camUpsert_keeps_inv {n : Nat} {cam : List CamEntry} (hc : CamInv n cam) (ip : Ip) (m : Mac) :
    CamInv n (camUpsert cam 1#16 ip m).2 := by
  obtain ⟨hl, hu, hp, he⟩ := hc
  rw [CamUnique, List.pairwise_iff_getElem] at hu
  rw [CamPrefix, List.pairwise_iff_getElem] at hp
  have getCase := fun (j : Nat) (hj : j < (camUpsert cam 1#16 ip m).2.length) => camUpsert_getElem hj
  refine ⟨by simpa using hl, ?_, ?_, ?_⟩
  · rw [CamUnique, List.pairwise_iff_getElem]
    intro i j hi hj hij hvi hvj hkey
    obtain ⟨hi', ci⟩ := getCase i hi
    obtain ⟨hj', cj⟩ := getCase j hj
    rcases ci with ci | ⟨ci, -⟩ | ⟨ci, cif, ci'⟩ <;> rcases cj with cj | ⟨cj, -⟩ | ⟨cj, cjf, cj'⟩ <;>
      simp only [ci, cj, setMac_valid, setMac_hwtype, setMac_ip] at hvi hvj hkey
    all_goals first
      | exact hu i j hi' hj' hij hvi hvj hkey
      | exact Bool.eq_false_iff.1 (cj' _ (List.getElem_mem hi')) (hasKey_iff.2 ⟨hvi, hkey⟩)
      | exact Bool.eq_false_iff.1 (ci' _ (List.getElem_mem hj'))
          (hasKey_iff.2 ⟨hvj, hkey.1.symm, hkey.2.symm⟩)
      | (have := cjf.2.2 i hij; rw [cif.2.1] at this; cases this)
  · rw [CamPrefix, List.pairwise_iff_getElem]
    intro i j hi hj hij hvj
    obtain ⟨hi', ci⟩ := getCase i hi
    obtain ⟨hj', cj⟩ := getCase j hj
    have hvi : (camUpsert cam 1#16 ip m).2[i].valid = cam[i].valid ∨ (camUpsert cam 1#16 ip m).2[i].valid = true := by
      rcases ci with ci | ⟨ci, -⟩ | ⟨ci, -, -⟩ <;> simp [ci]
    rcases hvi with hvi | hvi
    · rw [hvi]
      rcases cj with cj | ⟨cj, -⟩ | ⟨cj, cjf, -⟩
      · rw [cj] at hvj; exact hp i j hi' hj' hij hvj
      · rw [cj] at hvj; exact hp i j hi' hj' hij hvj
      · simpa [CamEntry.isFree] using cjf.2.2 i hij
    · exact hvi
  · intro e hm hv
    obtain ⟨j, hj, rfl⟩ := List.getElem_of_mem hm
    obtain ⟨hj', cj⟩ := getCase j hj
    rcases cj with cj | ⟨cj, -⟩ | ⟨cj, -, -⟩ <;> rw [cj] at hv ⊢
    · exact he _ (List.getElem_mem hj') hv
    · simpa using he _ (List.getElem_mem hj') hv

/-- After construction every entry is free, so the CAM's invariants hold. -/
theorem freeEntries_inv (n : Nat) : CamInv n ((List.range n).map freeEntry) := by
  have free : ∀ e ∈ (List.range n).map freeEntry, e.valid = false := by
    intro e he
    obtain ⟨i, -, rfl⟩ := List.mem_map.1 he
    rfl
  refine ⟨by simp, ?_, ?_, ?_⟩
  · exact List.pairwise_of_forall_mem_list fun a ha b _ hv => by simp [free a ha] at hv
  · exact List.pairwise_of_forall_mem_list fun a _ b hb hv => by simp [free b hb] at hv
  · intro e he hv; simp [free e he] at hv

end Sys2Proof.Machine
end

