-- ==== Sys2Proof/Laws/Checksum.lean ====
section
/-! SUPPORT. The checksum engine's sum and fold (40_checksum.md R100): the fold keeps the sum modulo 65535 and is 0
only on 0, and the sum of a concatenation at an even length splits. -/

namespace Sys2Proof.Machine

/-- One end-around carry lowers a sum above 0xFFFF by a multiple of 65535. -/
theorem carry_eq (s : Nat) : (s &&& 0xFFFF) + (s >>> 16) + 65535 * (s / 65536) = s := by
  rw [show (0xFFFF : Nat) = 2 ^ 16 - 1 from rfl, Nat.and_two_pow_sub_one_eq_mod, Nat.shiftRight_eq_div_pow]
  omega

/-- What the fold computes: the residue modulo 65535 in 1..65535, and 0 on 0 (R100). -/
theorem foldCarry_eq {k s : Nat} (h : s ≤ k) :
    foldCarry k s = if s = 0 then 0 else 1 + (s - 1) % 65535 := by
  induction k generalizing s with
  | zero => simp [foldCarry, Nat.le_zero.1 h]
  | succ k ih =>
    have hc := carry_eq s
    rw [foldCarry]
    split
    · rw [ih (by omega)]
      have hpos : ¬ ((s &&& 0xFFFF) + (s >>> 16) = 0) := by
        rw [Nat.shiftRight_eq_div_pow] at hc ⊢; omega
      rw [if_neg hpos, if_neg (by omega)]
      omega
    · split <;> omega

theorem foldCarry_lt {k s : Nat} (h : s ≤ k) : foldCarry k s ≤ 65535 := by
  rw [foldCarry_eq h]; split <;> omega

/-- The checksum of a sum, in closed form (R100, its corner cases). -/
theorem complement_fold (s : Nat) :
    ~~~ BitVec.ofNat 16 (foldCarry s s) =
      if s = 0 then 0xFFFF#16 else BitVec.ofNat 16 (65535 - (1 + (s - 1) % 65535)) := by
  have h := foldCarry_eq (le_refl s)
  split
  · simp_all
  · rename_i hs
    rw [h, if_neg hs]
    apply BitVec.eq_of_toNat_eq
    simp only [BitVec.toNat_not, BitVec.toNat_ofNat]
    omega

theorem internetChecksum_eq (b : Bytes) :
    internetChecksum b = if wordSum b = 0 then 0xFFFF#16
      else BitVec.ofNat 16 (65535 - (1 + (wordSum b - 1) % 65535)) := complement_fold _

/-- The checksum is 0x0000 exactly when the sum is a nonzero multiple of 65535 (R100). -/
theorem internetChecksum_eq_zero_iff (b : Bytes) :
    internetChecksum b = 0#16 ↔ wordSum b ≠ 0 ∧ wordSum b % 65535 = 0 := by
  rw [internetChecksum_eq]
  split
  · simp_all
  · rename_i hs
    constructor
    · intro h
      have := congrArg BitVec.toNat h
      rw [BitVec.toNat_ofNat, show BitVec.toNat (0#16) = 0 from rfl] at this
      exact ⟨hs, by omega⟩
    · rintro ⟨-, h⟩
      apply BitVec.eq_of_toNat_eq
      rw [BitVec.toNat_ofNat, show BitVec.toNat (0#16) = 0 from rfl]
      omega

/-- The sum and its own checksum add up to a nonzero multiple of 65535. -/
theorem wordSum_add_checksum (b : Bytes) :
    wordSum b + (internetChecksum b).toNat ≠ 0 ∧ (wordSum b + (internetChecksum b).toNat) % 65535 = 0 := by
  rw [internetChecksum_eq]
  split
  · simp_all
  · simp only [BitVec.toNat_ofNat]
    omega

theorem wordSum_append {a : Bytes} (h : a.length % 2 = 0) (b : Bytes) :
    wordSum (a ++ b) = wordSum a + wordSum b := by
  induction a using wordSum.induct with
  | case1 => simp [wordSum]
  | case2 x => simp at h
  | case3 x y t ih =>
    simp only [List.cons_append, wordSum]
    rw [ih (by simp only [List.length_cons] at h; omega)]
    omega

theorem wordSum_be16 (v : Half) : wordSum (be16 v) = v.toNat := by
  have h : val (be16 v) = v.toNat := by
    rw [be16, val_be]; exact Nat.mod_eq_of_lt v.isLt
  rw [be16_eq] at h ⊢
  rw [← h]
  simp [Claim.halfBytes, wordSum, val_cons]

end Sys2Proof.Machine
end

