-- ==== Sys2Proof/Laws/Codec.lean ====
section
/-! SUPPORT. The six header formats: decoding what was encoded, re-encoding what was decoded (41_codec_link.md
R118), at the level of byte strings. -/

namespace Sys2Proof.Machine

@[simp] theorem ethBytes_length (h : EthHeader) : (ethBytes h).length = 14 := by simp [ethBytes]
@[simp] theorem arphBytes_length (h : ArpHeader) : (arphBytes h).length = 8 := by simp [arphBytes]
@[simp] theorem arppBytes_length (h : ArpPayload) : (arppBytes h).length = 20 := by simp [arppBytes]
@[simp] theorem ip4Bytes_length (h : Ipv4Header) : (ip4Bytes h).length = 20 := by simp [ip4Bytes]
@[simp] theorem icmpBytes_length (h : IcmpHeader) : (icmpBytes h).length = 4 := by simp [icmpBytes]
@[simp] theorem echoBytes_length (h : EchoHeader) : (echoBytes h).length = 4 := by simp [echoBytes]

@[simp] theorem EtherType.ofWire_wire (t : EtherType) : EtherType.ofWire (EtherType.wire t) = some t := by
  cases t <;> rfl
@[simp] theorem HwType.ofWire_wire (t : HwType) : HwType.ofWire (HwType.wire t) = some t := by
  cases t; rfl
@[simp] theorem ProtoType.ofWire_wire (t : ProtoType) : ProtoType.ofWire (ProtoType.wire t) = some t := by
  cases t; rfl
@[simp] theorem ArpOp.ofWire_wire (t : ArpOp) : ArpOp.ofWire (ArpOp.wire t) = some t := by
  cases t <;> rfl
@[simp] theorem IcmpType.ofWire_wire (t : IcmpType) : IcmpType.ofWire (IcmpType.wire t) = some t := by
  cases t <;> rfl

theorem EtherType.wire_of_ofWire {v : Half} {t : EtherType} (h : EtherType.ofWire v = some t) :
    EtherType.wire t = v := by
  unfold EtherType.ofWire at h
  split_ifs at h <;> simp_all [EtherType.wire] <;> subst h <;> rfl

theorem HwType.wire_of_ofWire {v : Half} {t : HwType} (h : HwType.ofWire v = some t) : HwType.wire t = v := by
  unfold HwType.ofWire at h
  split_ifs at h; simp_all [HwType.wire]

theorem ProtoType.wire_of_ofWire {v : Half} {t : ProtoType} (h : ProtoType.ofWire v = some t) :
    ProtoType.wire t = v := by
  unfold ProtoType.ofWire at h
  split_ifs at h; simp_all [ProtoType.wire]

theorem ArpOp.wire_of_ofWire {v : Half} {t : ArpOp} (h : ArpOp.ofWire v = some t) : ArpOp.wire t = v := by
  unfold ArpOp.ofWire at h
  split_ifs at h <;> simp_all [ArpOp.wire] <;> subst h <;> rfl

theorem IcmpType.wire_of_ofWire {v : Byte} {t : IcmpType} (h : IcmpType.ofWire v = some t) :
    IcmpType.wire t = v := by
  unfold IcmpType.ofWire at h
  split_ifs at h <;> simp_all [IcmpType.wire] <;> subst h <;> rfl

/-- Every byte of a byte string's first part is its slices in order. -/
theorem take_eq_slice (b : Bytes) (n : Nat) : b.take n = slice b 0 n := by simp [slice]

section Read
variable {pre : Bytes} {off : Nat}

theorem rd8_append (x : Byte) (t : Bytes) (h : pre.length = off) : rd8 (pre ++ x :: t) off = x := by
  subst h; simp [rd8, List.getD_eq_getElem?_getD]

end Read

/-- Decoding an encoded Ethernet header gives it back, and what follows is the rest (R118 (a)). -/
theorem decodeEth_ethBytes (h : EthHeader) (t : Bytes) : decodeEth (ethBytes h ++ t) = .ok h t := by
  have h0 : rd48 (ethBytes h ++ t) 0 = h.dstMac := by
    simpa [ethBytes] using rd48_be48_append (pre := []) h.dstMac (be48 h.srcMac ++ (be16 (EtherType.wire h.ethertype) ++ t)) rfl
  have h6 : rd48 (ethBytes h ++ t) 6 = h.srcMac := by
    simpa [ethBytes] using rd48_be48_append (pre := be48 h.dstMac) (off := 6) h.srcMac (be16 (EtherType.wire h.ethertype) ++ t) (by simp)
  have h12 : rd16 (ethBytes h ++ t) 12 = EtherType.wire h.ethertype := by
    simpa [ethBytes] using rd16_be16_append (pre := be48 h.dstMac ++ be48 h.srcMac) (off := 12) (EtherType.wire h.ethertype) t (by simp)
  rw [decodeEth, if_neg (by simp), h0, h6, h12, EtherType.ofWire_wire]
  simp

theorem decodeArph_arphBytes (h : ArpHeader) (t : Bytes) : decodeArph (arphBytes h ++ t) = .ok h t := by
  have h0 : rd16 (arphBytes h ++ t) 0 = HwType.wire h.hwtype := by
    simpa [arphBytes] using rd16_be16_append (pre := []) (HwType.wire h.hwtype) (be16 (ProtoType.wire h.protype) ++ ([h.hwsize, h.prosize] ++ (be16 (ArpOp.wire h.opcode) ++ t))) rfl
  have h2 : rd16 (arphBytes h ++ t) 2 = ProtoType.wire h.protype := by
    simpa [arphBytes] using rd16_be16_append (pre := be16 (HwType.wire h.hwtype)) (off := 2) (ProtoType.wire h.protype) ([h.hwsize, h.prosize] ++ (be16 (ArpOp.wire h.opcode) ++ t)) (by simp)
  have h4 : rd8 (arphBytes h ++ t) 4 = h.hwsize := by
    simpa [arphBytes] using rd8_append (pre := be16 (HwType.wire h.hwtype) ++ be16 (ProtoType.wire h.protype)) (off := 4) h.hwsize (h.prosize :: (be16 (ArpOp.wire h.opcode) ++ t)) (by simp)
  have h5 : rd8 (arphBytes h ++ t) 5 = h.prosize := by
    simpa [arphBytes] using rd8_append (pre := be16 (HwType.wire h.hwtype) ++ be16 (ProtoType.wire h.protype) ++ [h.hwsize]) (off := 5) h.prosize (be16 (ArpOp.wire h.opcode) ++ t) (by simp)
  have h6 : rd16 (arphBytes h ++ t) 6 = ArpOp.wire h.opcode := by
    simpa [arphBytes] using rd16_be16_append (pre := be16 (HwType.wire h.hwtype) ++ be16 (ProtoType.wire h.protype) ++ [h.hwsize, h.prosize]) (off := 6) (ArpOp.wire h.opcode) t (by simp)
  rw [decodeArph, if_neg (by simp), h0, h2, h4, h5, h6]
  simp

theorem decodeArpp_arppBytes (h : ArpPayload) (t : Bytes) : decodeArpp (arppBytes h ++ t) = .ok h t := by
  have h0 : rd48 (arppBytes h ++ t) 0 = h.smac := by
    simpa [arppBytes] using rd48_be48_append (pre := []) h.smac (be32 h.sip ++ (be48 h.dmac ++ (be32 h.dip ++ t))) rfl
  have h6 : rd32 (arppBytes h ++ t) 6 = h.sip := by
    simpa [arppBytes] using rd32_be32_append (pre := be48 h.smac) (off := 6) h.sip (be48 h.dmac ++ (be32 h.dip ++ t)) (by simp)
  have h10 : rd48 (arppBytes h ++ t) 10 = h.dmac := by
    simpa [arppBytes] using rd48_be48_append (pre := be48 h.smac ++ be32 h.sip) (off := 10) h.dmac (be32 h.dip ++ t) (by simp)
  have h16 : rd32 (arppBytes h ++ t) 16 = h.dip := by
    simpa [arppBytes] using rd32_be32_append (pre := be48 h.smac ++ be32 h.sip ++ be48 h.dmac) (off := 16) h.dip t (by simp)
  rw [decodeArpp, if_neg (by simp), h0, h6, h10, h16]
  simp

theorem decodeIp4_ip4Bytes (h : Ipv4Header) (t : Bytes) : decodeIp4 (ip4Bytes h ++ t) = .ok h t := by
  have e : ip4Bytes h ++ t = h.verIhl :: h.tos :: (be16 h.totalLen ++ (be16 h.id ++ (be16 h.flagsFrag ++
      (h.ttl :: h.proto :: (be16 h.checksum ++ (be32 h.src ++ (be32 h.dst ++ t))))))) := by simp [ip4Bytes]
  have h0 : rd8 (ip4Bytes h ++ t) 0 = h.verIhl := by rw [e]; rfl
  have h1 : rd8 (ip4Bytes h ++ t) 1 = h.tos := by rw [e]; rfl
  have h2 : rd16 (ip4Bytes h ++ t) 2 = h.totalLen := by
    rw [e]; simpa using rd16_be16_append (pre := [h.verIhl, h.tos]) (off := 2) h.totalLen _ rfl
  have h4 : rd16 (ip4Bytes h ++ t) 4 = h.id := by
    rw [e]; simpa using rd16_be16_append (pre := [h.verIhl, h.tos] ++ be16 h.totalLen) (off := 4) h.id _ (by simp)
  have h6 : rd16 (ip4Bytes h ++ t) 6 = h.flagsFrag := by
    rw [e]; simpa using rd16_be16_append (pre := [h.verIhl, h.tos] ++ be16 h.totalLen ++ be16 h.id) (off := 6) h.flagsFrag _ (by simp)
  have h8 : rd8 (ip4Bytes h ++ t) 8 = h.ttl := by
    rw [e]; simpa using rd8_append (pre := [h.verIhl, h.tos] ++ be16 h.totalLen ++ be16 h.id ++ be16 h.flagsFrag) (off := 8) h.ttl _ (by simp)
  have h9 : rd8 (ip4Bytes h ++ t) 9 = h.proto := by
    rw [e]; simpa using rd8_append (pre := [h.verIhl, h.tos] ++ be16 h.totalLen ++ be16 h.id ++ be16 h.flagsFrag ++ [h.ttl]) (off := 9) h.proto _ (by simp)
  have h10 : rd16 (ip4Bytes h ++ t) 10 = h.checksum := by
    rw [e]; simpa using rd16_be16_append (pre := [h.verIhl, h.tos] ++ be16 h.totalLen ++ be16 h.id ++ be16 h.flagsFrag ++ [h.ttl, h.proto]) (off := 10) h.checksum _ (by simp)
  have h12 : rd32 (ip4Bytes h ++ t) 12 = h.src := by
    rw [e]; simpa using rd32_be32_append (pre := [h.verIhl, h.tos] ++ be16 h.totalLen ++ be16 h.id ++ be16 h.flagsFrag ++ [h.ttl, h.proto] ++ be16 h.checksum) (off := 12) h.src _ (by simp)
  have h16 : rd32 (ip4Bytes h ++ t) 16 = h.dst := by
    rw [e]; simpa using rd32_be32_append (pre := [h.verIhl, h.tos] ++ be16 h.totalLen ++ be16 h.id ++ be16 h.flagsFrag ++ [h.ttl, h.proto] ++ be16 h.checksum ++ be32 h.src) (off := 16) h.dst t (by simp)
  rw [decodeIp4, if_neg (by simp), h0, h1, h2, h4, h6, h8, h9, h10, h12, h16]
  simp

theorem decodeIcmp_icmpBytes (h : IcmpHeader) (t : Bytes) : decodeIcmp (icmpBytes h ++ t) = .ok h t := by
  have h0 : rd8 (icmpBytes h ++ t) 0 = IcmpType.wire h.type := rfl
  have h1 : rd8 (icmpBytes h ++ t) 1 = h.code := rfl
  have h2 : rd16 (icmpBytes h ++ t) 2 = h.checksum := by
    simpa [icmpBytes] using rd16_be16_append (pre := [IcmpType.wire h.type, h.code]) (off := 2) h.checksum t rfl
  rw [decodeIcmp, if_neg (by simp), h0, h1, h2]
  simp

theorem decodeEcho_echoBytes (h : EchoHeader) (t : Bytes) : decodeEcho (echoBytes h ++ t) = .ok h t := by
  have h0 : rd16 (echoBytes h ++ t) 0 = h.id := by
    simpa [echoBytes] using rd16_be16_append (pre := []) h.id (be16 h.seq ++ t) rfl
  have h2 : rd16 (echoBytes h ++ t) 2 = h.seq := by
    simpa [echoBytes] using rd16_be16_append (pre := be16 h.id) (off := 2) h.seq t (by simp)
  rw [decodeEcho, if_neg (by simp), h0, h2]
  simp

/-- A decode succeeds exactly on an encoded header and a rest: re-encoding what was decoded gives the bytes it was
decoded from (R118 (b)). -/
theorem eq_of_decodeEth {b t : Bytes} {h : EthHeader} (hd : decodeEth b = .ok h t) : b = ethBytes h ++ t := by
  unfold decodeEth at hd
  split at hd
  · cases hd
  · split at hd
    · cases hd
    · rename_i hl et he
      cases hd
      rw [ethBytes, be48_rd48 (by omega), be48_rd48 (by omega), EtherType.wire_of_ofWire he,
        be16_rd16 (by omega), slice_append (by omega) (by omega), slice_append (by omega) (by omega), ← take_eq_slice,
        List.take_append_drop]

theorem two_rd8 {b : Bytes} {off : Nat} (h : off + 1 < b.length) :
    [rd8 b off, rd8 b (off + 1)] = slice b off (off + 2) := by
  have h1 := rd8_slice (b := b) (off := off) (by omega)
  have h2 := rd8_slice (b := b) (off := off + 1) h
  rw [← slice_append (j := off + 1) (by omega) (by omega), ← h1, ← h2]; rfl

theorem eq_of_decodeArph {b t : Bytes} {h : ArpHeader} (hd : decodeArph b = .ok h t) : b = arphBytes h ++ t := by
  unfold decodeArph at hd
  split at hd
  · cases hd
  · split at hd
    · cases hd
    · split at hd
      · cases hd
      · split at hd
        · cases hd
        · rename_i hl _ hw hhw _ pt hpt _ op hop
          cases hd
          rw [arphBytes, HwType.wire_of_ofWire hhw, ProtoType.wire_of_ofWire hpt, ArpOp.wire_of_ofWire hop,
            be16_rd16 (by omega), be16_rd16 (by omega), be16_rd16 (by omega), two_rd8 (by omega),
            slice_append (by omega) (by omega), slice_append (by omega) (by omega),
            slice_append (by omega) (by omega), ← take_eq_slice, List.take_append_drop]

theorem eq_of_decodeArpp {b t : Bytes} {h : ArpPayload} (hd : decodeArpp b = .ok h t) : b = arppBytes h ++ t := by
  unfold decodeArpp at hd
  split at hd
  · cases hd
  · cases hd
    rw [arppBytes, be48_rd48 (by omega), be32_rd32 (by omega), be48_rd48 (by omega), be32_rd32 (by omega),
      slice_append (by omega) (by omega), slice_append (by omega) (by omega), slice_append (by omega) (by omega),
      ← take_eq_slice, List.take_append_drop]

theorem eq_of_decodeIp4 {b t : Bytes} {h : Ipv4Header} (hd : decodeIp4 b = .ok h t) : b = ip4Bytes h ++ t := by
  unfold decodeIp4 at hd
  split at hd
  · cases hd
  · cases hd
    simp only [ip4Bytes]
    rw [two_rd8 (by omega), be16_rd16 (by omega), be16_rd16 (by omega), be16_rd16 (by omega), two_rd8 (by omega),
      be16_rd16 (by omega), be32_rd32 (by omega), be32_rd32 (by omega),
      slice_append (by omega) (by omega), slice_append (by omega) (by omega), slice_append (by omega) (by omega),
      slice_append (by omega) (by omega), slice_append (by omega) (by omega), slice_append (by omega) (by omega),
      slice_append (by omega) (by omega), ← take_eq_slice, List.take_append_drop]

theorem eq_of_decodeIcmp {b t : Bytes} {h : IcmpHeader} (hd : decodeIcmp b = .ok h t) : b = icmpBytes h ++ t := by
  unfold decodeIcmp at hd
  split at hd
  · cases hd
  · split at hd
    · cases hd
    · rename_i hl _ ty hty
      cases hd
      rw [icmpBytes, IcmpType.wire_of_ofWire hty, two_rd8 (by omega), be16_rd16 (by omega),
        slice_append (by omega) (by omega), ← take_eq_slice, List.take_append_drop]

theorem eq_of_decodeEcho {b t : Bytes} {h : EchoHeader} (hd : decodeEcho b = .ok h t) : b = echoBytes h ++ t := by
  unfold decodeEcho at hd
  split at hd
  · cases hd
  · cases hd
    rw [echoBytes, be16_rd16 (by omega), be16_rd16 (by omega), slice_append (by omega) (by omega),
      ← take_eq_slice, List.take_append_drop]

end Sys2Proof.Machine
end

