-- ==== Sys2Proof/Laws/Decode.lean ====
section
/-! SUPPORT. The command operands (30_encoding.md R82, R86; log 4): reading what was written, writing back what was
read, and the one step at which a code selects its operation. -/

namespace Sys2Proof

open Sys2Proof.Machine

/-- A conditional that has a value took one of its branches. -/
theorem ite_cases {α : Type} {c : Prop} [Decidable c] {a b x : α} (h : (if c then a else b) = x) :
    (c ∧ a = x) ∨ (¬ c ∧ b = x) := by
  by_cases hc : c
  · exact .inl ⟨hc, by rwa [if_pos hc] at h⟩
  · exact .inr ⟨hc, by rwa [if_neg hc] at h⟩

/-- An operation decodes exactly when its operands were read. -/
theorem withOperand_eq_ok {α : Type} {c : Byte} {o : Option α} {k : α → Instr} {i : Instr}
    (h : withOperand c o k = .ok i) : ∃ x, o = some x ∧ i = k x := by
  cases o with
  | none => cases h
  | some x => cases h; exact ⟨x, rfl, rfl⟩

theorem etherTypeOfTag_tag (t : EtherType) : etherTypeOfTag (tagOfEtherType t) = some t := by cases t <;> rfl
theorem hwTypeOfTag_tag (t : HwType) : hwTypeOfTag (tagOfHwType t) = some t := by cases t; rfl
theorem protoTypeOfTag_tag (t : ProtoType) : protoTypeOfTag (tagOfProtoType t) = some t := by cases t; rfl
theorem arpOpOfTag_tag (t : ArpOp) : arpOpOfTag (tagOfArpOp t) = some t := by cases t <;> rfl
theorem icmpTypeOfTag_tag (t : IcmpType) : icmpTypeOfTag (tagOfIcmpType t) = some t := by cases t <;> rfl

theorem tag_of_etherTypeOfTag {v : Byte} {t : EtherType} (h : etherTypeOfTag v = some t) : tagOfEtherType t = v := by
  unfold etherTypeOfTag at h
  split_ifs at h <;> simp_all [tagOfEtherType] <;> subst h <;> rfl

theorem tag_of_hwTypeOfTag {v : Byte} {t : HwType} (h : hwTypeOfTag v = some t) : tagOfHwType t = v := by
  unfold hwTypeOfTag at h
  split_ifs at h; simp_all [tagOfHwType]

theorem tag_of_protoTypeOfTag {v : Byte} {t : ProtoType} (h : protoTypeOfTag v = some t) : tagOfProtoType t = v := by
  unfold protoTypeOfTag at h
  split_ifs at h; simp_all [tagOfProtoType]

theorem tag_of_arpOpOfTag {v : Byte} {t : ArpOp} (h : arpOpOfTag v = some t) : tagOfArpOp t = v := by
  unfold arpOpOfTag at h
  split_ifs at h <;> simp_all [tagOfArpOp] <;> subst h <;> rfl

theorem tag_of_icmpTypeOfTag {v : Byte} {t : IcmpType} (h : icmpTypeOfTag v = some t) : tagOfIcmpType t = v := by
  unfold icmpTypeOfTag at h
  split_ifs at h <;> simp_all [tagOfIcmpType] <;> subst h <;> rfl

/-! Reading what was written. -/

theorem readEthOperand_written (h : EthHeader) (dst : Bytes) :
    readEthOperand (be48 h.dstMac ++ be48 h.srcMac ++ [tagOfEtherType h.ethertype] ++ dst) = some (h, dst) := by
  generalize hb : be48 h.dstMac ++ be48 h.srcMac ++ [tagOfEtherType h.ethertype] ++ dst = b
  have h0 : rd48 b 0 = h.dstMac := by
    simpa [← hb] using rd48_be48_append (pre := []) h.dstMac (be48 h.srcMac ++ (tagOfEtherType h.ethertype :: dst)) rfl
  have h6 : rd48 b 6 = h.srcMac := by
    simpa [← hb] using rd48_be48_append (pre := be48 h.dstMac) (off := 6) h.srcMac
      (tagOfEtherType h.ethertype :: dst) (by simp)
  have h12 : rd8 b 12 = tagOfEtherType h.ethertype := by
    simpa [← hb] using rd8_append (pre := be48 h.dstMac ++ be48 h.srcMac) (off := 12) (tagOfEtherType h.ethertype)
      dst (by simp)
  have hd : b.drop 13 = dst := by rw [← hb]; exact List.drop_left' (by simp)
  have hl : ¬ b.length < 13 := by rw [← hb]; simp; omega
  rw [readEthOperand, if_neg hl, h0, h6, h12, hd, etherTypeOfTag_tag]
  rfl

theorem readArphOperand_written (h : ArpHeader) (dst : Bytes) :
    readArphOperand ([h.hwsize, h.prosize, tagOfHwType h.hwtype, tagOfProtoType h.protype,
      tagOfArpOp h.opcode] ++ dst) = some (h, dst) := by
  simp [readArphOperand, rd8, hwTypeOfTag_tag, protoTypeOfTag_tag, arpOpOfTag_tag]

theorem readArppOperand_written (h : ArpPayload) (dst : Bytes) :
    readArppOperand (be48 h.smac ++ be32 h.sip ++ be48 h.dmac ++ be32 h.dip ++ dst) = some (h, dst) := by
  have hd := decodeArpp_arppBytes h dst
  unfold decodeArpp arppBytes at hd
  unfold readArppOperand
  rcases ite_cases hd with ⟨_, hd⟩ | ⟨hl, hd⟩
  · cases hd
  · injection hd with h1 h2
    rw [if_neg hl, h1, h2]

theorem readIp4Operand_written (h : Ipv4Header) (dst : Bytes) :
    readIp4Operand ([h.verIhl, h.tos] ++ be16 h.totalLen ++ be16 h.id ++ be16 h.flagsFrag ++
      [h.ttl, h.proto] ++ be16 h.checksum ++ be32 h.src ++ be32 h.dst ++ dst) = some (h, dst) := by
  have hd := decodeIp4_ip4Bytes h dst
  unfold decodeIp4 ip4Bytes at hd
  unfold readIp4Operand
  rcases ite_cases hd with ⟨_, hd⟩ | ⟨hl, hd⟩
  · cases hd
  · injection hd with h1 h2
    rw [if_neg hl, h1, h2]

theorem readIcmpOperand_written (h : IcmpHeader) (dst : Bytes) :
    readIcmpOperand ([h.code] ++ be16 h.checksum ++ [tagOfIcmpType h.type] ++ dst) = some (h, dst) := by
  generalize hb : [h.code] ++ be16 h.checksum ++ [tagOfIcmpType h.type] ++ dst = b
  have h0 : rd8 b 0 = h.code := by rw [← hb]; rfl
  have h1 : rd16 b 1 = h.checksum := by
    simpa [← hb] using rd16_be16_append (pre := [h.code]) (off := 1) h.checksum (tagOfIcmpType h.type :: dst) rfl
  have h3 : rd8 b 3 = tagOfIcmpType h.type := by
    simpa [← hb] using rd8_append (pre := h.code :: be16 h.checksum) (off := 3) (tagOfIcmpType h.type) dst (by simp)
  have hd : b.drop 4 = dst := by rw [← hb]; exact List.drop_left' (by simp)
  have hl : ¬ b.length < 4 := by rw [← hb]; simp; omega
  rw [readIcmpOperand, if_neg hl, h0, h1, h3, hd, icmpTypeOfTag_tag]
  rfl

theorem readEchoOperand_written (h : EchoHeader) (dst : Bytes) :
    readEchoOperand (be16 h.id ++ be16 h.seq ++ dst) = some (h, dst) := by
  have hd := decodeEcho_echoBytes h dst
  unfold decodeEcho echoBytes at hd
  unfold readEchoOperand
  rcases ite_cases hd with ⟨_, hd⟩ | ⟨hl, hd⟩
  · cases hd
  · injection hd with h1 h2
    rw [if_neg hl, h1, h2]

theorem readLookupOperand_written (ip : Ip) : readLookupOperand (be32 ip) = some ip := by
  have h0 := rd32_be32_append (pre := []) (off := 0) ip [] rfl
  simp only [List.nil_append, List.append_nil] at h0
  simp [readLookupOperand, h0]

theorem readUpsertOperand_written (hw : HwType) (ip : Ip) (m : Mac) :
    readUpsertOperand (be32 ip ++ be48 m ++ [tagOfHwType hw]) = some (hw, ip, m) := by
  generalize hb : be32 ip ++ be48 m ++ [tagOfHwType hw] = b
  have h0 : rd32 b 0 = ip := by
    simpa [← hb] using rd32_be32_append (pre := []) ip (be48 m ++ [tagOfHwType hw]) rfl
  have h4 : rd48 b 4 = m := by
    simpa [← hb] using rd48_be48_append (pre := be32 ip) (off := 4) m [tagOfHwType hw] (by simp)
  have h10 : rd8 b 10 = tagOfHwType hw := by
    simpa [← hb] using rd8_append (pre := be32 ip ++ be48 m) (off := 10) (tagOfHwType hw) [] (by simp)
  have hl : b.length = 11 := by rw [← hb]; simp
  rw [readUpsertOperand, if_pos hl, h0, h4, h10, hwTypeOfTag_tag]
  rfl

/-! Writing back what was read. -/

theorem readEthOperand_eq {b : Bytes} {o : EthHeader × Bytes} (h : readEthOperand b = some o) :
    b = be48 o.1.dstMac ++ be48 o.1.srcMac ++ [tagOfEtherType o.1.ethertype] ++ o.2 := by
  unfold readEthOperand at h
  rcases ite_cases h with ⟨_, h⟩ | ⟨hl, h⟩
  · cases h
  · obtain ⟨t, ht, rfl⟩ := Option.map_eq_some_iff.1 h
    simp only
    rw [be48_rd48 (by omega), be48_rd48 (by omega), tag_of_etherTypeOfTag ht, rd8_slice (by omega),
      slice_append (by omega) (by omega), slice_append (by omega) (by omega), ← take_eq_slice, List.take_append_drop]

theorem readArphOperand_eq {b : Bytes} {o : ArpHeader × Bytes} (h : readArphOperand b = some o) :
    b = [o.1.hwsize, o.1.prosize, tagOfHwType o.1.hwtype, tagOfProtoType o.1.protype,
      tagOfArpOp o.1.opcode] ++ o.2 := by
  unfold readArphOperand at h
  rcases ite_cases h with ⟨_, h⟩ | ⟨hl, h⟩
  · cases h
  · split at h
    · rename_i hw pt op h1 h2 h3
      cases h
      simp only [tag_of_hwTypeOfTag h1, tag_of_protoTypeOfTag h2, tag_of_arpOpOfTag h3]
      match b, hl with
      | x0 :: x1 :: x2 :: x3 :: x4 :: t, _ => rfl
      | [], hl | [_], hl | [_, _], hl | [_, _, _], hl | [_, _, _, _], hl => simp at hl
    · cases h

theorem readArppOperand_eq {b : Bytes} {o : ArpPayload × Bytes} (h : readArppOperand b = some o) :
    b = be48 o.1.smac ++ be32 o.1.sip ++ be48 o.1.dmac ++ be32 o.1.dip ++ o.2 := by
  unfold readArppOperand at h
  rcases ite_cases h with ⟨_, h⟩ | ⟨hl, h⟩
  · cases h
  · cases h
    exact eq_of_decodeArpp (h := ⟨_, _, _, _⟩) (by rw [decodeArpp, if_neg hl])

theorem readIp4Operand_eq {b : Bytes} {o : Ipv4Header × Bytes} (h : readIp4Operand b = some o) :
    b = [o.1.verIhl, o.1.tos] ++ be16 o.1.totalLen ++ be16 o.1.id ++ be16 o.1.flagsFrag ++
      [o.1.ttl, o.1.proto] ++ be16 o.1.checksum ++ be32 o.1.src ++ be32 o.1.dst ++ o.2 := by
  unfold readIp4Operand at h
  rcases ite_cases h with ⟨_, h⟩ | ⟨hl, h⟩
  · cases h
  · cases h
    exact eq_of_decodeIp4 (h := ⟨_, _, _, _, _, _, _, _, _, _⟩) (by rw [decodeIp4, if_neg hl])

theorem readIcmpOperand_eq {b : Bytes} {o : IcmpHeader × Bytes} (h : readIcmpOperand b = some o) :
    b = [o.1.code] ++ be16 o.1.checksum ++ [tagOfIcmpType o.1.type] ++ o.2 := by
  unfold readIcmpOperand at h
  rcases ite_cases h with ⟨_, h⟩ | ⟨hl, h⟩
  · cases h
  · obtain ⟨t, ht, rfl⟩ := Option.map_eq_some_iff.1 h
    simp only
    rw [be16_rd16 (by omega), tag_of_icmpTypeOfTag ht, rd8_slice (by omega), rd8_slice (by omega),
      slice_append (by omega) (by omega), slice_append (by omega) (by omega), ← take_eq_slice, List.take_append_drop]

theorem readEchoOperand_eq {b : Bytes} {o : EchoHeader × Bytes} (h : readEchoOperand b = some o) :
    b = be16 o.1.id ++ be16 o.1.seq ++ o.2 := by
  unfold readEchoOperand at h
  rcases ite_cases h with ⟨_, h⟩ | ⟨hl, h⟩
  · cases h
  · cases h
    exact eq_of_decodeEcho (h := ⟨_, _⟩) (by rw [decodeEcho, if_neg hl])

theorem readLookupOperand_eq {b : Bytes} {ip : Ip} (h : readLookupOperand b = some ip) : b = be32 ip := by
  unfold readLookupOperand at h
  rcases ite_cases h with ⟨hl, h⟩ | ⟨_, h⟩
  · cases h
    rw [be32_rd32 (by omega), slice, ← hl]; simp
  · cases h

theorem readUpsertOperand_eq {b : Bytes} {o : HwType × Ip × Mac} (h : readUpsertOperand b = some o) :
    b = be32 o.2.1 ++ be48 o.2.2 ++ [tagOfHwType o.1] := by
  unfold readUpsertOperand at h
  rcases ite_cases h with ⟨hl, h⟩ | ⟨_, h⟩
  · obtain ⟨t, ht, rfl⟩ := Option.map_eq_some_iff.1 h
    simp only
    rw [be32_rd32 (by omega), be48_rd48 (by omega), tag_of_hwTypeOfTag ht, rd8_slice (by omega),
      slice_append (by omega) (by omega), slice_append (by omega) (by omega), slice,
      show 10 + 1 - 0 = b.length by omega]
    simp
  · cases h

end Sys2Proof
end

