-- ==== Sys2Proof/Laws/Exec.lean ====
section
/-! SUPPORT. What an instruction and a step can do, said once: an operation returns and writes nothing, CAM_UPSERT
writes one upsert, a frame ends with a verdict whose CAM is the old one or one upsert and whose reply, if any, is
a 60-byte ARP reply or an echo reply as long as the request. -/

namespace Sys2Proof.Machine

open Sys2Proof.Claim

theorem arpReplyOf_length (p : Params) (ah : ArpHeader) (ap : ArpPayload) : (arpReplyOf p ah ap).length = 60 := by
  simp [arpReplyOf]

theorem echoMessage_length (eh : EchoHeader) (b : Bytes) : (echoMessage eh b).length = 8 + b.length := by
  simp [echoMessage]; omega

theorem echoReplyOf_length (p : Params) (m : Mac) (iph : Ipv4Header) (eh : EchoHeader) (b : Bytes) :
    (echoReplyOf p m iph eh b).length = 42 + b.length := by
  simp [echoReplyOf, echoMessage_length]; omega

theorem arpReplyLayout_length {f : Bytes} (h : 42 ≤ f.length) (p : Params) : (arpReplyLayout p f).length = 60 := by
  simp [arpReplyLayout, slice]; omega

theorem echoIp4Layout_length {f : Bytes} (h : 42 ≤ f.length) (c : Half) : (echoIp4Layout f c).length = 20 := by
  simp [echoIp4Layout, slice]; omega

theorem echoReplyLayout_length {f : Bytes} (h : 42 ≤ f.length) (p : Params) (m : Mac) :
    (echoReplyLayout p m f).length = f.length := by
  simp [echoReplyLayout, echoIp4Layout_length h, slice]; omega

/-- What an ARP class says of a frame whose ethertype is ARP (R83, rows 9 to 12). -/
theorem classOfArp_facts {f : Bytes}
    (h : classOfArp f ∈ [.arpRequest, .arpReply, .rarpRequest, .rarpReply]) :
    42 ≤ f.length ∧ frameHw f = 1#16 ∧ framePt f = 0x0800#16 := by
  unfold classOfArp at h
  split at h
  · simp at h
  split at h
  · simp at h
  rename_i hw
  split at h
  · simp at h
  rename_i pt
  split at h
  · simp at h
  split at h
  · simp at h
  exact ⟨by omega, not_not.1 hw, not_not.1 pt⟩

/-- The classes of the IPv4 rows are not ARP classes (R83). -/
theorem classOfIpv4_not_arp {ip : Ip} {f : Bytes} :
    classOfIpv4 ip f ∉ [.arpRequest, .arpReply, .rarpRequest, .rarpReply] := by
  unfold classOfIpv4
  repeat' split
  all_goals simp

/-- What the class of an ARP frame that decodes says of its length and fields (R83). -/
theorem classOf_arp_facts {ip : Ip} {f : Bytes}
    (h : classOf ip f ∈ [.arpRequest, .arpReply, .rarpRequest, .rarpReply]) :
    42 ≤ f.length ∧ frameEt f = 0x0806#16 ∧ frameHw f = 1#16 ∧ framePt f = 0x0800#16 := by
  unfold classOf at h
  split at h
  · simp at h
  split at h
  · simp at h
  split at h
  · simp at h
  split at h
  · obtain ⟨hl, hw, pt⟩ := classOfArp_facts h
    exact ⟨hl, ‹_›, hw, pt⟩
  · exact absurd h classOfIpv4_not_arp

/-- What the class of an echo request says of its length and fields (R83, row 21). -/
theorem classOf_echoRequest_facts {ip : Ip} {f : Bytes} (h : classOf ip f = .echoRequest) :
    42 ≤ f.length ∧ frameEt f = 0x0800#16 ∧ frameDst f = ip ∧ framePr f = 1#8 ∧ frameTy f = 8#8 := by
  unfold classOf at h
  split at h
  · cases h
  split at h
  · cases h
  rename_i het
  split at h
  · cases h
  split at h
  · unfold classOfArp at h
    repeat' split at h
    all_goals cases h
  · unfold classOfIpv4 at h
    split at h
    · cases h
    split at h
    · cases h
    rename_i hdst
    split at h
    · cases h
    rename_i hpr
    split at h
    · cases h
    split at h
    · cases h
    split at h
    · cases h
    split at h
    · cases h
    split at h
    · cases h
    exact ⟨by omega, by tauto, not_not.1 hdst, not_not.1 hpr, by tauto⟩

/-- What the verdict on a frame can be: the CAM as it was or after one upsert of an Ethernet key, and no reply, a
60-byte one, or one as long as the frame, which then holds at least 42 bytes. -/
def VerdictFacts (f : Bytes) (cam : List CamEntry) (v : Verdict) : Prop :=
  (v.cam = cam ∨ ∃ ip m, v.cam = (camUpsert cam 1#16 ip m).2) ∧
    ∀ r, v.reply = some r → r.length = 60 ∨ (r.length = f.length ∧ 42 ≤ f.length)

theorem verdictFacts_none (f : Bytes) (cam : List CamEntry) (ds : List Diag) : VerdictFacts f cam ⟨none, ds, cam⟩ :=
  ⟨.inl rfl, by simp⟩

theorem orAbandon_facts {α : Type} {f : Bytes} {cam : List CamEntry} {d : Decoded α} {k : α → Bytes → Verdict}
    (h : ∀ x t, d = .ok x t → VerdictFacts f cam (k x t)) : VerdictFacts f cam (d.orAbandon cam k) := by
  cases d with
  | ok x t => exact h x t rfl
  | malformed l => exact verdictFacts_none f cam _
  | unsupported l fi v => exact verdictFacts_none f cam _

theorem dispatchArp_facts (p : Params) (f : Bytes) (cam : List CamEntry) (r1 : Bytes) :
    VerdictFacts f cam (dispatchArp p cam r1) := by
  refine orAbandon_facts fun ah r2 _ => orAbandon_facts fun ap r3 _ => ?_
  have hup : ∀ rep ds, (∀ r, rep = some r → r.length = 60) → VerdictFacts f cam
      ⟨rep, ds, (camUpsert cam (HwType.wire ah.hwtype) ap.sip ap.smac).2⟩ :=
    fun rep ds hr => ⟨.inr ⟨ap.sip, ap.smac, rfl⟩, fun r h => .inl (hr r h)⟩
  cases ah.opcode
  · exact hup _ _ fun r h => by cases h; exact arpReplyOf_length p ah ap
  all_goals exact hup _ _ (by simp)

theorem dispatchIpv4_facts (p : Params) {f : Bytes} (hf : 14 ≤ f.length) (cam : List CamEntry) :
    VerdictFacts f cam (dispatchIpv4 p cam (f.drop 14)) := by
  refine orAbandon_facts fun iph r2 h2 => ?_
  split
  · exact verdictFacts_none f cam _
  split
  · exact verdictFacts_none f cam _
  refine orAbandon_facts fun ih r3 h3 => ?_
  have l2 := congrArg List.length (eq_of_decodeIp4 h2)
  have l3 := congrArg List.length (eq_of_decodeIcmp h3)
  cases ih.type
  · exact verdictFacts_none f cam _
  · exact verdictFacts_none f cam _
  refine orAbandon_facts fun eh b h4 => ?_
  have l4 := congrArg List.length (eq_of_decodeEcho h4)
  simp only [List.length_append, ip4Bytes_length, icmpBytes_length, echoBytes_length, List.length_drop] at l2 l3 l4
  unfold echoVerdict
  split
  · exact verdictFacts_none f cam _
  · refine ⟨.inl rfl, fun r hr => .inr ?_⟩
    cases hr
    rw [echoReplyOf_length]
    omega

theorem dispatchFrame_facts (p : Params) (cam : List CamEntry) (f : Bytes) :
    VerdictFacts f cam (dispatchFrame p cam f) := by
  refine orAbandon_facts fun eth r1 h1 => ?_
  have e := eq_of_decodeEth h1
  have hl : 14 ≤ f.length := by rw [e]; simp
  have hr : r1 = f.drop 14 := by rw [e]; simp
  cases eth.ethertype
  · simpa [hr] using dispatchIpv4_facts p hl cam
  · exact dispatchArp_facts p f cam r1
  · exact verdictFacts_none f cam _

/-- An operation that writes no state: not DISPATCH, not CAM_UPSERT, not a frame class. -/
def IsPure (i : Instr) : Prop :=
  codeOf i ≠ none ∧ (∀ f, i ≠ .dispatch f) ∧ ∀ hw ip m, i ≠ .camUpsert hw ip m

/-- What an instruction can do, if it goes on. -/
theorem exec_cases {i : Instr} {s t : State} (h : exec i s = .next t) :
    (IsPure i ∧ s.phase ≠ .waitTx ∧ ∃ r, t = returned r s) ∨
    (s.phase = .waitRx ∧ ∃ hw ip m, i = .camUpsert hw ip m ∧
      t = { returned (camUpsert s.cam 1#16 ip m).1 s with cam := (camUpsert s.cam 1#16 ip m).2 }) ∨
    (s.phase = .waitRx ∧ ∃ f v, legalLength s.params.rxBufBytes f ∧ VerdictFacts f s.cam v ∧ t = s.endFrame v ∧
      (i = .dispatch f ∨ ∃ c, i = instrOfClass c f ∧ classOf s.params.myIp f = c)) := by
  have pure : ∀ {c} r, IsPure i → returns c r s = .next t →
      (IsPure i ∧ s.phase ≠ .waitTx ∧ ∃ r, t = returned r s) :=
    fun r hi hr => ⟨hi, (returns_next_iff.1 hr).1, r, (returns_next_iff.1 hr).2⟩
  have frame : ∀ c f v, i = instrOfClass c f → (classOf s.params.myIp f = c → VerdictFacts f s.cam v) →
      runClass c f s v = .next t →
      (s.phase = .waitRx ∧ ∃ f v, legalLength s.params.rxBufBytes f ∧ VerdictFacts f s.cam v ∧ t = s.endFrame v ∧
        (i = .dispatch f ∨ ∃ c, i = instrOfClass c f ∧ classOf s.params.myIp f = c)) := by
    intro c f v hi hv hr
    obtain ⟨hp, hl, hc, ht⟩ := runClass_next_iff.1 hr
    exact ⟨hp, f, v, hl, hv hc, ht, .inr ⟨c, hi, hc⟩⟩
  have upsert : ∀ f (rep : Option Bytes) ds, (∀ r, rep = some r → r.length = 60) → VerdictFacts f s.cam
      ⟨rep, ds, (senderUpsert f s.cam).2⟩ :=
    fun f rep ds hr => ⟨.inr ⟨_, _, rfl⟩, fun r h => .inl (hr r h)⟩
  cases i with
  | csum b => exact .inl (pure _ (by simp [IsPure, codeOf]) h)
  | ethDec b => exact .inl (pure _ (by simp [IsPure, codeOf]) h)
  | ethEnc hd dst => exact .inl (pure _ (by simp [IsPure, codeOf]) h)
  | arphDec b => exact .inl (pure _ (by simp [IsPure, codeOf]) h)
  | arphEnc hd dst => exact .inl (pure _ (by simp [IsPure, codeOf]) h)
  | arppDec b => exact .inl (pure _ (by simp [IsPure, codeOf]) h)
  | arppEnc hd dst => exact .inl (pure _ (by simp [IsPure, codeOf]) h)
  | ip4Dec b => exact .inl (pure _ (by simp [IsPure, codeOf]) h)
  | ip4Enc hd dst => exact .inl (pure _ (by simp [IsPure, codeOf]) h)
  | icmpDec b => exact .inl (pure _ (by simp [IsPure, codeOf]) h)
  | icmpEnc hd dst => exact .inl (pure _ (by simp [IsPure, codeOf]) h)
  | echoDec b => exact .inl (pure _ (by simp [IsPure, codeOf]) h)
  | echoEnc hd dst => exact .inl (pure _ (by simp [IsPure, codeOf]) h)
  | camLookup ip => exact .inl (pure _ (by simp [IsPure, codeOf]) h)
  | camUpsert hw ip m =>
    cases hw
    obtain ⟨hp, rfl⟩ := duringDispatch_next_iff.1 h
    exact .inr (.inl ⟨hp, _, ip, m, rfl, rfl⟩)
  | dispatch f =>
    obtain ⟨hp, hl, ht⟩ := acceptFrame_next_iff.1 h
    exact .inr (.inr ⟨hp, f, _, hl, dispatchFrame_facts _ _ f, (Host.Outcome.next.inj ht).symm, .inl rfl⟩)
  | fEthShort f => exact .inr (.inr (frame .ethShort f _ rfl (fun _ => verdictFacts_none f _ _) h))
  | fEthUnknown f => exact .inr (.inr (frame .ethUnknown f _ rfl (fun _ => verdictFacts_none f _ _) h))
  | fEthRarp f => exact .inr (.inr (frame .ethRarp f _ rfl (fun _ => verdictFacts_none f _ _) h))
  | fArpShort f => exact .inr (.inr (frame .arpShort f _ rfl (fun _ => verdictFacts_none f _ _) h))
  | fArpBadHw f => exact .inr (.inr (frame .arpBadHw f _ rfl (fun _ => verdictFacts_none f _ _) h))
  | fArpBadPt f => exact .inr (.inr (frame .arpBadPt f _ rfl (fun _ => verdictFacts_none f _ _) h))
  | fArpBadOp f => exact .inr (.inr (frame .arpBadOp f _ rfl (fun _ => verdictFacts_none f _ _) h))
  | fArpPayloadShort f => exact .inr (.inr (frame .arpPayloadShort f _ rfl (fun _ => verdictFacts_none f _ _) h))
  | fArpRequest f =>
    refine .inr (.inr (frame .arpRequest f _ rfl (fun hc => upsert f _ _ fun r hr => ?_) h))
    cases hr
    exact arpReplyLayout_length (classOf_arp_facts (ip := s.params.myIp) (by simp [hc])).1 _
  | fArpReply f => exact .inr (.inr (frame .arpReply f _ rfl (fun _ => upsert f _ _ (by simp)) h))
  | fRarpRequest f => exact .inr (.inr (frame .rarpRequest f _ rfl (fun _ => upsert f _ _ (by simp)) h))
  | fRarpReply f => exact .inr (.inr (frame .rarpReply f _ rfl (fun _ => upsert f _ _ (by simp)) h))
  | fIpShort f => exact .inr (.inr (frame .ipShort f _ rfl (fun _ => verdictFacts_none f _ _) h))
  | fIpNotMine f => exact .inr (.inr (frame .ipNotMine f _ rfl (fun _ => verdictFacts_none f _ _) h))
  | fIpOtherProto f => exact .inr (.inr (frame .ipOtherProto f _ rfl (fun _ => verdictFacts_none f _ _) h))
  | fIcmpShort f => exact .inr (.inr (frame .icmpShort f _ rfl (fun _ => verdictFacts_none f _ _) h))
  | fIcmpUnknown f => exact .inr (.inr (frame .icmpUnknown f _ rfl (fun _ => verdictFacts_none f _ _) h))
  | fIcmpEchoReply f => exact .inr (.inr (frame .icmpEchoReply f _ rfl (fun _ => verdictFacts_none f _ _) h))
  | fIcmpDestUnreach f => exact .inr (.inr (frame .icmpDestUnreach f _ rfl (fun _ => verdictFacts_none f _ _) h))
  | fEchoShort f => exact .inr (.inr (frame .echoShort f _ rfl (fun _ => verdictFacts_none f _ _) h))
  | fEchoRequest f =>
    refine .inr (.inr (frame .echoRequest f _ rfl (fun hc => ?_) h))
    have hl := (classOf_echoRequest_facts hc).1
    split
    · exact verdictFacts_none f _ _
    · refine ⟨.inl rfl, fun r hr => ?_⟩
      cases hr
      exact .inr ⟨echoReplyLayout_length hl _ _, hl⟩

/-- What the host brings about runs exactly as `exec` says, unless it is CAM_UPSERT or DISPATCH as a command. -/
theorem runFromHost_next_iff {i : Instr} {s t : State} :
    runFromHost i s = .next t ↔ withheldCode i = none ∧ exec i s = .next t := by
  unfold runFromHost
  cases withheldCode i <;> simp

theorem withheldCode_none_iff {i : Instr} :
    withheldCode i = none ↔ (∀ hw ip m, i ≠ .camUpsert hw ip m) ∧ ∀ f, i ≠ .dispatch f := by
  cases i
  case camUpsert hw ip m => exact ⟨nofun, fun h => absurd rfl (h.1 hw ip m)⟩
  all_goals simp [withheldCode]

/-- What a stimulus runs, if the step goes on: an instruction it decodes to, or a move of the sequencer. -/
theorem onStimulus_cases {st : Stimulus} {s t : State} (h : onStimulus st s = .next t) :
    (∃ i, decode s.params st = .ok i ∧ withheldCode i = none ∧ exec i s = .next t) ∨
    (s.phase = .waitRx ∧ (∃ e, receiveStatus st = some e) ∧ t = s.stop) ∨
    (s.phase = .waitTx ∧ st = .txOk ∧ t = s.sent) ∨
    (s.phase = .waitTx ∧ st = .txErr ∧ t = s.sendFailed) := by
  have run : ∀ {st' : Stimulus}, runStimulus st' s = .next t →
      ∃ i, decode s.params st' = .ok i ∧ withheldCode i = none ∧ exec i s = .next t := by
    intro st' hr
    unfold runStimulus at hr
    split at hr
    · exact ⟨_, ‹_›, runFromHost_next_iff.1 hr⟩
    · cases hr
  unfold onStimulus at h
  split at h
  · rename_i hp
    unfold stepInWaitRx at h
    split at h
    · rename_i e he
      exact .inr (.inl ⟨hp, ⟨e, he⟩, (Host.Outcome.next.inj h).symm⟩)
    · exact .inl (run h)
  · rename_i hp
    unfold stepInWaitTx at h
    cases st with
    | txOk => exact .inr (.inr (.inl ⟨hp, rfl, (Host.Outcome.next.inj h).symm⟩))
    | txErr => exact .inr (.inr (.inr ⟨hp, rfl, (Host.Outcome.next.inj h).symm⟩))
    | rx f => exact .inl (run h)
    | rxClose => exact .inl (run h)
    | rxError => exact .inl (run h)
    | cmd b => exact .inl (run h)
  · exact .inl (run h)

/-- What a step can do, if it goes on: it takes the host's next stimulus, and then one of four things happens. -/
theorem step_cases {s t : State} (h : step s = .next t) :
    ∃ st rest, s.host = st :: rest ∧
      ((∃ i, decode s.params st = .ok i ∧ withheldCode i = none ∧ exec i (s.taken rest) = .next t) ∨
      (s.phase = .waitRx ∧ (∃ e, receiveStatus st = some e) ∧ t = (s.taken rest).stop) ∨
      (s.phase = .waitTx ∧ st = .txOk ∧ t = (s.taken rest).sent) ∨
      (s.phase = .waitTx ∧ st = .txErr ∧ t = (s.taken rest).sendFailed)) := by
  unfold step stepBody at h
  split at h
  · cases h
  · rename_i st rest hh
    exact ⟨st, rest, hh, onStimulus_cases h⟩

end Sys2Proof.Machine
end

