-- ==== Sys2Proof/Laws/Frames.lean ====
section
/-! SUPPORT. The decodes inside DISPATCH read at the absolute offsets of 30_encoding.md R70, and the two replies
built header by header (44_dispatch.md R176, R186 to R190) are the byte layouts of R178 and R190. -/

namespace Sys2Proof.Machine

theorem decodeEth_frame {f : Bytes} (h : 14 ≤ f.length) :
    decodeEth f = match EtherType.ofWire (frameEt f) with
      | none => .unsupported .eth .ethertype (frameEt f)
      | some t => .ok ⟨rd48 f 0, rd48 f 6, t⟩ (f.drop 14) := by
  rw [decodeEth, if_neg (by omega)]; rfl

theorem decodeArph_frame {f : Bytes} (h : 22 ≤ f.length) :
    decodeArph (f.drop 14) = match HwType.ofWire (frameHw f) with
      | none => .unsupported .arpHeader .hwtype (frameHw f)
      | some hw => match ProtoType.ofWire (framePt f) with
        | none => .unsupported .arpHeader .protype (framePt f)
        | some pt => match ArpOp.ofWire (frameOp f) with
          | none => .unsupported .arpHeader .opcode (frameOp f)
          | some op => .ok ⟨hw, pt, rd8 f 18, rd8 f 19, op⟩ (f.drop 22) := by
  rw [decodeArph, if_neg (by simp; omega)]
  simp only [rd16_drop, rd8_drop, List.drop_drop]
  rfl

theorem decodeArpp_frame {f : Bytes} (h : 42 ≤ f.length) :
    decodeArpp (f.drop 22) = .ok ⟨rd48 f 22, rd32 f 28, rd48 f 32, rd32 f 38⟩ (f.drop 42) := by
  rw [decodeArpp, if_neg (by simp; omega)]
  simp only [rd48_drop, rd32_drop, List.drop_drop]

theorem decodeIp4_frame {f : Bytes} (h : 34 ≤ f.length) :
    decodeIp4 (f.drop 14) = .ok ⟨rd8 f 14, rd8 f 15, rd16 f 16, rd16 f 18, rd16 f 20, rd8 f 22, rd8 f 23,
      rd16 f 24, rd32 f 26, rd32 f 30⟩ (f.drop 34) := by
  rw [decodeIp4, if_neg (by simp; omega)]
  simp only [rd16_drop, rd8_drop, rd32_drop, List.drop_drop]

theorem decodeIcmp_frame {f : Bytes} (h : 38 ≤ f.length) :
    decodeIcmp (f.drop 34) = match IcmpType.ofWire (frameTy f) with
      | none => .unsupported .icmp .icmpType ((frameTy f).setWidth 16)
      | some t => .ok ⟨t, rd8 f 35, rd16 f 36⟩ (f.drop 38) := by
  rw [decodeIcmp, if_neg (by simp; omega)]
  simp only [rd16_drop, rd8_drop, List.drop_drop]
  rfl

theorem decodeEcho_frame {f : Bytes} (h : 42 ≤ f.length) :
    decodeEcho (f.drop 38) = .ok ⟨rd16 f 38, rd16 f 40⟩ (f.drop 42) := by
  rw [decodeEcho, if_neg (by simp; omega)]
  simp only [rd16_drop, List.drop_drop]

/-- The reply of R176 is the layout of R178. -/
theorem arpReplyOf_frame {f : Bytes} (h : 42 ≤ f.length) (p : Params) :
    arpReplyOf p ⟨.ethernet, .ipv4, rd8 f 18, rd8 f 19, .arpRequest⟩ ⟨rd48 f 22, rd32 f 28, rd48 f 32, rd32 f 38⟩ =
      arpReplyLayout p f := by
  unfold arpReplyOf arpReplyLayout ethBytes arphBytes arppBytes
  simp only [be48_rd48 (show 22 + 6 ≤ f.length by omega), be32_rd32 (show 28 + 4 ≤ f.length by omega)]
  rw [two_rd8 (show 18 + 1 < f.length by omega)]
  simp only [EtherType.wire, HwType.wire, ProtoType.wire, ArpOp.wire, be16_eq, List.append_assoc]
  rfl

theorem ip4Bytes_frame {f : Bytes} (h : 42 ≤ f.length) (c : Half) :
    ip4Bytes ⟨rd8 f 14, rd8 f 15, BitVec.ofNat 16 ((28 + (f.drop 42).length) % 65536), rd16 f 18, rd16 f 20,
      rd8 f 22, rd8 f 23, c, rd32 f 30, rd32 f 26⟩ = echoIp4Layout f c := by
  unfold ip4Bytes echoIp4Layout
  rw [two_rd8 (show 14 + 1 < f.length by omega), two_rd8 (show 22 + 1 < f.length by omega)]
  simp only [be16_rd16 (show 18 + 2 ≤ f.length by omega), be16_rd16 (show 20 + 2 ≤ f.length by omega),
    be32_rd32 (show 30 + 4 ≤ f.length by omega), be32_rd32 (show 26 + 4 ≤ f.length by omega)]
  have e1 : be16 (BitVec.ofNat 16 ((28 + (f.drop 42).length) % 65536)) = be 2 ((f.length - 14) % 65536) := by
    rw [be16, BitVec.toNat_ofNat]
    congr 1
    simp only [List.length_drop]
    omega
  have e2 : slice f 18 (18 + 2) ++ (slice f 20 (20 + 2) ++ slice f 22 (22 + 2)) = slice f 18 24 := by
    rw [slice_append (by omega) (by omega), slice_append (by omega) (by omega)]
  rw [e1, ← e2]
  simp only [List.append_assoc]

theorem echoMessage_frame {f : Bytes} (h : 42 ≤ f.length) :
    echoMessage ⟨rd16 f 38, rd16 f 40⟩ (f.drop 42) =
      [0x00#8, 0x00#8] ++ be16 (internetChecksum (zeros 4 ++ f.drop 38)) ++ slice f 38 42 ++ f.drop 42 := by
  have hs : be16 (rd16 f 38) ++ be16 (rd16 f 40) = slice f 38 42 := by
    rw [be16_rd16 (by omega), be16_rd16 (by omega), slice_append (by omega) (by omega)]
  have hd : slice f 38 42 ++ f.drop 42 = f.drop 38 := by
    rw [show f.drop 42 = (f.drop 38).drop 4 by rw [List.drop_drop], slice]
    exact List.take_append_drop 4 _
  have hz : [0#8, 0#8, 0#8, 0#8] ++ be16 (rd16 f 38) ++ be16 (rd16 f 40) ++ f.drop 42 = zeros 4 ++ f.drop 38 := by
    rw [← hd, ← hs]; simp [zeros]
  unfold echoMessage icmpBytes echoBytes
  simp only [hz]
  rw [← hs]
  simp [IcmpType.wire]

/-- The reply of R186, R187, R188 and R190 is the layout of R190's table. -/
theorem echoReplyOf_frame {f : Bytes} (h : 42 ≤ f.length) (p : Params) (m : Mac) :
    echoReplyOf p m ⟨rd8 f 14, rd8 f 15, rd16 f 16, rd16 f 18, rd16 f 20, rd8 f 22, rd8 f 23, rd16 f 24, rd32 f 26,
      rd32 f 30⟩ ⟨rd16 f 38, rd16 f 40⟩ (f.drop 42) = echoReplyLayout p m f := by
  have hip : ip4Bytes (sealIp4 p.replyCsum (replyIp4 ⟨rd8 f 14, rd8 f 15, rd16 f 16, rd16 f 18, rd16 f 20, rd8 f 22,
      rd8 f 23, rd16 f 24, rd32 f 26, rd32 f 30⟩ (f.drop 42))) = echoIp4Layout f (echoIp4Csum p.replyCsum f) := by
    unfold sealIp4 replyIp4 echoIp4Csum
    cases p.replyCsum with
    | zero => exact ip4Bytes_frame h _
    | computed => simp only; rw [ip4Bytes_frame h, ip4Bytes_frame h]
  unfold echoReplyOf echoReplyLayout
  rw [echoMessage_frame h, hip]
  simp only [ethBytes, EtherType.wire, be16_eq, List.append_assoc]
  rfl

/-! Bytes of a concatenation, at their offsets. -/

theorem getD_append_of_lt {a b : Bytes} {n : Nat} (h : n < a.length) : (a ++ b).getD n 0#8 = a.getD n 0#8 := by
  simp [List.getD_eq_getElem?_getD, List.getElem?_append_left h]

theorem getD_append_of_le {a b : Bytes} {n : Nat} (h : a.length ≤ n) :
    (a ++ b).getD n 0#8 = b.getD (n - a.length) 0#8 := by
  simp [List.getD_eq_getElem?_getD, List.getElem?_append_right h]

theorem getD_slice {f : Bytes} {i j n : Nat} (h : n < j - i) : (slice f i j).getD n 0#8 = f.getD (i + n) 0#8 := by
  simp [slice, List.getD_eq_getElem?_getD, h]

theorem getD_zeros (k n : Nat) : (zeros k).getD n 0#8 = 0#8 := by
  simp only [zeros, List.getD_eq_getElem?_getD, List.getElem?_replicate]
  split <;> rfl

/-- A part that stands after i bytes is what the bytes from i on are. -/
theorem sameBytes_of_split {pre mid post a b : Bytes} {i j k : Nat} (he : a = pre ++ (mid ++ post))
    (hi : pre.length = i) (hk : k ≤ mid.length) (hm : ∀ n < k, mid.getD n 0#8 = b.getD (j + n) 0#8) :
    Claim.sameBytes a i b j k := by
  intro n hn
  rw [he, getD_append_of_le (by omega), hi, Nat.add_sub_cancel_left, getD_append_of_lt (by omega), hm n hn]

/-- The frame that stands for a CAM_UPSERT is an ARP reply whose sender is that key and MAC (R83, R175). -/
theorem announcement_facts (myIp ip : Ip) (m : Mac) :
    (announcement ip m).length = 42 ∧ classOf myIp (announcement ip m) = .arpReply ∧
      rd32 (announcement ip m) 28 = ip ∧ rd48 (announcement ip m) 22 = m := by
  have hl : (announcement ip m).length = 42 := by simp [announcement]
  have het : frameEt (announcement ip m) = 0x0806#16 := rd16_of_drop (x := 0x08#8) (y := 0x06#8) rfl
  have hhw : frameHw (announcement ip m) = 1#16 := rd16_of_drop (x := 0x00#8) (y := 0x01#8) rfl
  have hpt : framePt (announcement ip m) = 0x0800#16 := rd16_of_drop (x := 0x08#8) (y := 0x00#8) rfl
  have hop : frameOp (announcement ip m) = 2#16 := rd16_of_drop (x := 0x00#8) (y := 0x02#8) rfl
  refine ⟨hl, by simp [classOf, classOfArp, hl, het, hhw, hpt, hop], ?_, ?_⟩
  · rw [announcement, List.append_assoc, rd32_be32_append ip (zeros 10) (by simp)]
  · simpa [announcement] using rd48_be48_append (pre := zeros 6 ++ be48 m ++ [0x08#8, 0x06#8, 0x00#8, 0x01#8, 0x08#8,
      0x00#8, 0x06#8, 0x04#8, 0x00#8, 0x02#8]) m (be32 ip ++ zeros 10) (by simp)

/-- So its dispatch step leaves the CAM that CAM_UPSERT leaves. -/
theorem announcement_performs_upsert {s : State} (hp : s.phase = .waitRx) (hl : 42 ≤ s.params.rxBufBytes) (ip : Ip)
    (m : Mac) : ∃ t u, exec (.fArpReply (announcement ip m)) s = .next t ∧
      exec (.camUpsert .ethernet ip m) s = .next u ∧ t.cam = u.cam := by
  obtain ⟨h1, h2, h3, h4⟩ := announcement_facts s.params.myIp ip m
  refine ⟨_, _, runClass_of_class hp ⟨by omega, by omega⟩ h2 _, duringDispatch_of_waiting hp _ _, ?_⟩
  show (camUpsert s.cam 1#16 (rd32 _ 28) (rd48 _ 22)).2 = (camUpsert s.cam 1#16 ip m).2
  rw [h3, h4]

end Sys2Proof.Machine
end

