-- ==== Sys2Proof/Laws/PerInstr.lean ====
section
/-! SUPPORT. The laws made per instruction. -/

namespace Sys2Proof.Laws.OperationCode

open Sys2Proof.Claim

/-- R85 and R86: an operation's encoding is a command whose first byte is its operation code, and R83: a frame
class has no operation code, its encoding being the received frame itself. -/
def Statement (i : Instr) : Prop :=
  match codeOf i with
  | some c => ∃ b, encode i = .cmd (c :: b)
  | none => ∃ f, encode i = .rx f

theorem csum (b : Bytes) : Statement (.csum b) := ⟨_, rfl⟩
theorem ethDec (b : Bytes) : Statement (.ethDec b) := ⟨_, rfl⟩
theorem ethEnc (h : EthHeader) (dst : Bytes) : Statement (.ethEnc h dst) := ⟨_, rfl⟩
theorem arphDec (b : Bytes) : Statement (.arphDec b) := ⟨_, rfl⟩
theorem arphEnc (h : ArpHeader) (dst : Bytes) : Statement (.arphEnc h dst) := ⟨_, rfl⟩
theorem arppDec (b : Bytes) : Statement (.arppDec b) := ⟨_, rfl⟩
theorem arppEnc (h : ArpPayload) (dst : Bytes) : Statement (.arppEnc h dst) := ⟨_, rfl⟩
theorem ip4Dec (b : Bytes) : Statement (.ip4Dec b) := ⟨_, rfl⟩
theorem ip4Enc (h : Ipv4Header) (dst : Bytes) : Statement (.ip4Enc h dst) := ⟨_, rfl⟩
theorem icmpDec (b : Bytes) : Statement (.icmpDec b) := ⟨_, rfl⟩
theorem icmpEnc (h : IcmpHeader) (dst : Bytes) : Statement (.icmpEnc h dst) := ⟨_, rfl⟩
theorem echoDec (b : Bytes) : Statement (.echoDec b) := ⟨_, rfl⟩
theorem echoEnc (h : EchoHeader) (dst : Bytes) : Statement (.echoEnc h dst) := ⟨_, rfl⟩
theorem camLookup (ip : Ip) : Statement (.camLookup ip) := ⟨_, rfl⟩
theorem camUpsert (hw : HwType) (ip : Ip) (mac : Mac) : Statement (.camUpsert hw ip mac) := ⟨_, rfl⟩
theorem dispatch (f : Bytes) : Statement (.dispatch f) := ⟨_, rfl⟩
theorem fEthShort (f : Bytes) : Statement (.fEthShort f) := ⟨_, rfl⟩
theorem fEthUnknown (f : Bytes) : Statement (.fEthUnknown f) := ⟨_, rfl⟩
theorem fEthRarp (f : Bytes) : Statement (.fEthRarp f) := ⟨_, rfl⟩
theorem fArpShort (f : Bytes) : Statement (.fArpShort f) := ⟨_, rfl⟩
theorem fArpBadHw (f : Bytes) : Statement (.fArpBadHw f) := ⟨_, rfl⟩
theorem fArpBadPt (f : Bytes) : Statement (.fArpBadPt f) := ⟨_, rfl⟩
theorem fArpBadOp (f : Bytes) : Statement (.fArpBadOp f) := ⟨_, rfl⟩
theorem fArpPayloadShort (f : Bytes) : Statement (.fArpPayloadShort f) := ⟨_, rfl⟩
theorem fArpRequest (f : Bytes) : Statement (.fArpRequest f) := ⟨_, rfl⟩
theorem fArpReply (f : Bytes) : Statement (.fArpReply f) := ⟨_, rfl⟩
theorem fRarpRequest (f : Bytes) : Statement (.fRarpRequest f) := ⟨_, rfl⟩
theorem fRarpReply (f : Bytes) : Statement (.fRarpReply f) := ⟨_, rfl⟩
theorem fIpShort (f : Bytes) : Statement (.fIpShort f) := ⟨_, rfl⟩
theorem fIpNotMine (f : Bytes) : Statement (.fIpNotMine f) := ⟨_, rfl⟩
theorem fIpOtherProto (f : Bytes) : Statement (.fIpOtherProto f) := ⟨_, rfl⟩
theorem fIcmpShort (f : Bytes) : Statement (.fIcmpShort f) := ⟨_, rfl⟩
theorem fIcmpUnknown (f : Bytes) : Statement (.fIcmpUnknown f) := ⟨_, rfl⟩
theorem fIcmpEchoReply (f : Bytes) : Statement (.fIcmpEchoReply f) := ⟨_, rfl⟩
theorem fIcmpDestUnreach (f : Bytes) : Statement (.fIcmpDestUnreach f) := ⟨_, rfl⟩
theorem fEchoShort (f : Bytes) : Statement (.fEchoShort f) := ⟨_, rfl⟩
theorem fEchoRequest (f : Bytes) : Statement (.fEchoRequest f) := ⟨_, rfl⟩

end Sys2Proof.Laws.OperationCode
end

