-- ==== Sys2Proof/Tests/Slice0.lean ====
section
/-! SUPPORT. Tests. Every expected value is spec/95_test_vectors.md's (named CS, CD, CM, DP, DX, P there), a worked
example of the operation's rule, or follows from the rule named. The last part shows, for every statement with
hypotheses, states and operands that meet them. -/

namespace Sys2Proof.Tests

open Sys2Proof.Machine

/-! ## Small states -/

/-- The value a step leaves in one field, if it goes on. -/
def after {α : Type} (o : Host.Outcome State Fault Refusal) (f : State → α) : Option α :=
  match o with
  | .next t => some (f t)
  | .fault _ => none
  | .refused _ => none

/-- The refusal a step answers with, if it refuses. -/
def refusal (o : Host.Outcome State Fault Refusal) : Option Refusal :=
  match o with
  | .next _ => none
  | .fault _ => none
  | .refused r => some r

def isNext (o : Host.Outcome State Fault Refusal) : Bool := (after o fun _ => ()).isSome

/-- The test configuration of 95_test_vectors.md, with ARP_CAP = 2 to keep the states small. -/
def config : Params := { Config.reference with arpCap := 2, rxBufBytes := 60 }

/-- The same with IPV4_REPLY_CSUM = COMPUTED. -/
def configComputed : Params := { config with replyCsum := .computed }

def free : CamEntry := ⟨false, 0#16, 0#32, 0#48⟩

def entry (ip : Ip) (m : Mac) : CamEntry := ⟨true, 1#16, ip, m⟩

/-- "CAM hit" of 95_test_vectors.md. -/
def peerEntry : CamEntry := entry 0x0a000003#32 0x020000000001#48

/-- A state in WAIT_RX with this CAM. -/
def idle (cam : List CamEntry) : State := { State.construct config with cam := cam }

def idleEmpty : State := idle [free, free]

def idleHit : State := idle [peerEntry, free]

def idleFull : State := idle [entry 0x0a00000a#32 0x02000000000a#48, entry 0x0a00000b#32 0x02000000000b#48]

/-- A state in WAIT_TX that holds a one-byte frame. -/
def sending : State := { idleHit with phase := .waitTx, pendingTx := [0x55#8], kIn := 1 }

def stopped : State := { idleHit with phase := .stopped }

def given (st : Stimulus) (s : State) : State := { s with host := [st] }

/-- A frame with some bytes replaced. -/
def patch (f : Bytes) (off : Nat) (b : Bytes) : Bytes := f.take off ++ b ++ f.drop (off + b.length)

/-! ## The frames of 95_test_vectors.md, section 5 -/

/-- A, the ARP request (60 bytes). -/
def frameA : Bytes :=
  [0xff#8, 0xff#8, 0xff#8, 0xff#8, 0xff#8, 0xff#8, 0x02#8, 0x00#8, 0x00#8, 0x00#8, 0x00#8, 0x01#8, 0x08#8,
   0x06#8, 0x00#8, 0x01#8, 0x08#8, 0x00#8, 0x06#8, 0x04#8, 0x00#8, 0x01#8, 0x02#8, 0x00#8, 0x00#8, 0x00#8,
   0x00#8, 0x01#8, 0x0a#8, 0x00#8, 0x00#8, 0x03#8, 0x00#8, 0x00#8, 0x00#8, 0x00#8, 0x00#8, 0x00#8, 0x0a#8,
   0x00#8, 0x00#8, 0x02#8, 0x00#8, 0x00#8, 0x00#8, 0x00#8, 0x00#8, 0x00#8, 0x00#8, 0x00#8, 0x00#8, 0x00#8,
   0x00#8, 0x00#8, 0x00#8, 0x00#8, 0x00#8, 0x00#8, 0x00#8, 0x00#8]

/-- E, the echo request (47 bytes). -/
def frameE : Bytes :=
  [0x02#8, 0x00#8, 0x00#8, 0x00#8, 0x00#8, 0x02#8, 0x02#8, 0x00#8, 0x00#8, 0x00#8, 0x00#8, 0x01#8, 0x08#8,
   0x00#8, 0x45#8, 0x00#8, 0x00#8, 0x21#8, 0xab#8, 0xcd#8, 0x40#8, 0x00#8, 0x40#8, 0x01#8, 0x7b#8, 0x0a#8,
   0x0a#8, 0x00#8, 0x00#8, 0x03#8, 0x0a#8, 0x00#8, 0x00#8, 0x02#8, 0x08#8, 0x00#8, 0xbc#8, 0x03#8, 0x12#8,
   0x34#8, 0x00#8, 0x01#8, 0x61#8, 0x62#8, 0x63#8, 0x64#8, 0x65#8]

/-- RA, the reply to A. -/
def replyRA : Bytes :=
  [0x02#8, 0x00#8, 0x00#8, 0x00#8, 0x00#8, 0x01#8, 0x02#8, 0x00#8, 0x00#8, 0x00#8, 0x00#8, 0x02#8, 0x08#8,
   0x06#8, 0x00#8, 0x01#8, 0x08#8, 0x00#8, 0x06#8, 0x04#8, 0x00#8, 0x02#8, 0x02#8, 0x00#8, 0x00#8, 0x00#8,
   0x00#8, 0x02#8, 0x0a#8, 0x00#8, 0x00#8, 0x02#8, 0x02#8, 0x00#8, 0x00#8, 0x00#8, 0x00#8, 0x01#8, 0x0a#8,
   0x00#8, 0x00#8, 0x03#8, 0x00#8, 0x00#8, 0x00#8, 0x00#8, 0x00#8, 0x00#8, 0x00#8, 0x00#8, 0x00#8, 0x00#8,
   0x00#8, 0x00#8, 0x00#8, 0x00#8, 0x00#8, 0x00#8, 0x00#8, 0x00#8]

/-- RE, the reply to E under ZERO. -/
def replyRE : Bytes :=
  [0x02#8, 0x00#8, 0x00#8, 0x00#8, 0x00#8, 0x01#8, 0x02#8, 0x00#8, 0x00#8, 0x00#8, 0x00#8, 0x02#8, 0x08#8,
   0x00#8, 0x45#8, 0x00#8, 0x00#8, 0x21#8, 0xab#8, 0xcd#8, 0x40#8, 0x00#8, 0x40#8, 0x01#8, 0x00#8, 0x00#8,
   0x0a#8, 0x00#8, 0x00#8, 0x02#8, 0x0a#8, 0x00#8, 0x00#8, 0x03#8, 0x00#8, 0x00#8, 0xc4#8, 0x03#8, 0x12#8,
   0x34#8, 0x00#8, 0x01#8, 0x61#8, 0x62#8, 0x63#8, 0x64#8, 0x65#8]

/-- DX1, the reply to E under COMPUTED. -/
def replyDX1 : Bytes :=
  [0x02#8, 0x00#8, 0x00#8, 0x00#8, 0x00#8, 0x01#8, 0x02#8, 0x00#8, 0x00#8, 0x00#8, 0x00#8, 0x02#8, 0x08#8,
   0x00#8, 0x45#8, 0x00#8, 0x00#8, 0x21#8, 0xab#8, 0xcd#8, 0x40#8, 0x00#8, 0x40#8, 0x01#8, 0x7b#8, 0x0a#8,
   0x0a#8, 0x00#8, 0x00#8, 0x02#8, 0x0a#8, 0x00#8, 0x00#8, 0x03#8, 0x00#8, 0x00#8, 0xc4#8, 0x03#8, 0x12#8,
   0x34#8, 0x00#8, 0x01#8, 0x61#8, 0x62#8, 0x63#8, 0x64#8, 0x65#8]

/-- DX2's padded echo request. -/
def frameDX2 : Bytes :=
  [0x02#8, 0x00#8, 0x00#8, 0x00#8, 0x00#8, 0x02#8, 0x02#8, 0x00#8, 0x00#8, 0x00#8, 0x00#8, 0x01#8, 0x08#8,
   0x00#8, 0x45#8, 0x00#8, 0x00#8, 0x1c#8, 0xab#8, 0xcd#8, 0x40#8, 0x00#8, 0x40#8, 0x01#8, 0x7b#8, 0x0f#8,
   0x0a#8, 0x00#8, 0x00#8, 0x03#8, 0x0a#8, 0x00#8, 0x00#8, 0x02#8, 0x08#8, 0x00#8, 0xe5#8, 0xca#8, 0x12#8,
   0x34#8, 0x00#8, 0x01#8, 0x00#8, 0x00#8, 0x00#8, 0x00#8, 0x00#8, 0x00#8, 0x00#8, 0x00#8, 0x00#8, 0x00#8,
   0x00#8, 0x00#8, 0x00#8, 0x00#8, 0x00#8, 0x00#8, 0x00#8, 0x00#8]

/-- DX2's reply. -/
def replyDX2 : Bytes :=
  [0x02#8, 0x00#8, 0x00#8, 0x00#8, 0x00#8, 0x01#8, 0x02#8, 0x00#8, 0x00#8, 0x00#8, 0x00#8, 0x02#8, 0x08#8,
   0x00#8, 0x45#8, 0x00#8, 0x00#8, 0x2e#8, 0xab#8, 0xcd#8, 0x40#8, 0x00#8, 0x40#8, 0x01#8, 0x00#8, 0x00#8,
   0x0a#8, 0x00#8, 0x00#8, 0x02#8, 0x0a#8, 0x00#8, 0x00#8, 0x03#8, 0x00#8, 0x00#8, 0xed#8, 0xca#8, 0x12#8,
   0x34#8, 0x00#8, 0x01#8, 0x00#8, 0x00#8, 0x00#8, 0x00#8, 0x00#8, 0x00#8, 0x00#8, 0x00#8, 0x00#8, 0x00#8,
   0x00#8, 0x00#8, 0x00#8, 0x00#8, 0x00#8, 0x00#8, 0x00#8, 0x00#8]

/-- DX5's reply. -/
def replyDX5 : Bytes :=
  [0x02#8, 0x00#8, 0x00#8, 0x00#8, 0x00#8, 0x01#8, 0x02#8, 0x00#8, 0x00#8, 0x00#8, 0x00#8, 0x02#8, 0x08#8,
   0x06#8, 0x00#8, 0x01#8, 0x08#8, 0x00#8, 0x00#8, 0x00#8, 0x00#8, 0x02#8, 0x02#8, 0x00#8, 0x00#8, 0x00#8,
   0x00#8, 0x02#8, 0x0a#8, 0x00#8, 0x00#8, 0x02#8, 0x02#8, 0x00#8, 0x00#8, 0x00#8, 0x00#8, 0x01#8, 0x0a#8,
   0x00#8, 0x00#8, 0x03#8, 0x00#8, 0x00#8, 0x00#8, 0x00#8, 0x00#8, 0x00#8, 0x00#8, 0x00#8, 0x00#8, 0x00#8,
   0x00#8, 0x00#8, 0x00#8, 0x00#8, 0x00#8, 0x00#8, 0x00#8, 0x00#8]

/-- DP1. -/
def frameEthShort : Bytes :=
  [0x02#8, 0x00#8, 0x00#8, 0x00#8, 0x00#8, 0x02#8, 0x02#8, 0x00#8, 0x00#8, 0x00#8, 0x00#8, 0x01#8,
   0x08#8]

/-- DP2. -/
def frameEthUnknown : Bytes :=
  [0x02#8, 0x00#8, 0x00#8, 0x00#8, 0x00#8, 0x02#8, 0x02#8, 0x00#8, 0x00#8, 0x00#8, 0x00#8, 0x01#8,
   0x99#8, 0x99#8] ++ zeros 46

/-- DP3. -/
def frameEthRarp : Bytes :=
  [0x02#8, 0x00#8, 0x00#8, 0x00#8, 0x00#8, 0x02#8, 0x02#8, 0x00#8, 0x00#8, 0x00#8, 0x00#8, 0x01#8,
   0x80#8, 0x35#8] ++ zeros 46

/-- DP4. -/
def frameArpShort : Bytes :=
  frameA.take 21

/-- DP5. -/
def frameArpBadHw : Bytes :=
  patch frameA 14 [0x00#8, 0x06#8]

/-- DP6. -/
def frameArpBadPt : Bytes :=
  patch frameA 16 [0x86#8, 0xdd#8]

/-- DP7. -/
def frameArpBadOp : Bytes :=
  patch frameA 20 [0x00#8, 0x05#8]

/-- DP8. -/
def frameArpPayloadShort : Bytes :=
  frameA.take 41

/-- DP9. -/
def frameArpRequest : Bytes :=
  frameA

/-- DP10. -/
def frameArpReply : Bytes :=
  patch (frameA.take 42) 20 [0x00#8, 0x02#8]

/-- DP11. -/
def frameRarpRequest : Bytes :=
  patch (frameA.take 42) 20 [0x00#8, 0x03#8]

/-- DP12. -/
def frameRarpReply : Bytes :=
  patch (frameA.take 42) 20 [0x00#8, 0x04#8]

/-- DP13. -/
def frameIpShort : Bytes :=
  frameE.take 33

/-- DP14. -/
def frameIpNotMine : Bytes :=
  patch (patch frameE 30 [0x0a#8, 0x00#8, 0x00#8, 0x09#8]) 24 [0x7b#8, 0x03#8]

/-- DP15. -/
def frameIpOtherProto : Bytes :=
  patch (patch frameE 23 [0x11#8]) 24 [0x7a#8, 0xfa#8]

/-- DP16. -/
def frameIcmpShort : Bytes :=
  frameE.take 37

/-- DP17. -/
def frameIcmpUnknown : Bytes :=
  patch frameE 34 [0x0d#8, 0x00#8, 0xb7#8, 0x03#8]

/-- DP18. -/
def frameIcmpEchoReply : Bytes :=
  patch frameE 34 [0x00#8, 0x00#8, 0xc4#8, 0x03#8]

/-- DP19. -/
def frameIcmpDestUnreach : Bytes :=
  patch frameE 34 [0x03#8, 0x00#8, 0xc1#8, 0x03#8]

/-- DP20. -/
def frameEchoShort : Bytes :=
  frameE.take 41

/-- DP21. -/
def frameEchoRequest : Bytes :=
  frameE

/-! ## Well-formedness: each check refuses an ill-formed term -/

theorem test_wellFormed_dispatch_empty : (Instr.dispatch []).wellFormed config = false := by decide

theorem test_wellFormed_dispatch_overlong : (Instr.dispatch (zeros 61)).wellFormed config = false := by decide

theorem test_wellFormed_dispatch_bounds :
    (Instr.dispatch (zeros 1)).wellFormed config = true ∧ (Instr.dispatch (zeros 60)).wellFormed config = true := by
  decide

theorem test_wellFormed_class_empty : (Instr.fEthShort []).wellFormed config = false := by decide

theorem test_wellFormed_class_overlong : (Instr.fEthUnknown (frameEthUnknown ++ [0#8])).wellFormed config = false := by
  decide

/-- Each class refuses the frame of the next row's class. -/
theorem test_wellFormed_class_other_link_and_arp :
    (Instr.fEthShort frameEthUnknown).wellFormed config = false ∧
    (Instr.fEthUnknown frameEthRarp).wellFormed config = false ∧
    (Instr.fEthRarp frameArpShort).wellFormed config = false ∧
    (Instr.fArpShort frameArpBadHw).wellFormed config = false ∧
    (Instr.fArpBadHw frameArpBadPt).wellFormed config = false ∧
    (Instr.fArpBadPt frameArpBadOp).wellFormed config = false ∧
    (Instr.fArpBadOp frameArpPayloadShort).wellFormed config = false := by decide

/-- Each class refuses the frame of the next row's class. -/
theorem test_wellFormed_class_other_arp_and_ip :
    (Instr.fArpPayloadShort frameArpRequest).wellFormed config = false ∧
    (Instr.fArpRequest frameArpReply).wellFormed config = false ∧
    (Instr.fArpReply frameRarpRequest).wellFormed config = false ∧
    (Instr.fRarpRequest frameRarpReply).wellFormed config = false ∧
    (Instr.fRarpReply frameIpShort).wellFormed config = false ∧
    (Instr.fIpShort frameIpNotMine).wellFormed config = false ∧
    (Instr.fIpNotMine frameIpOtherProto).wellFormed config = false := by decide

/-- Each class refuses the frame of the next row's class. -/
theorem test_wellFormed_class_other_ip_and_icmp :
    (Instr.fIpOtherProto frameIcmpShort).wellFormed config = false ∧
    (Instr.fIcmpShort frameIcmpUnknown).wellFormed config = false ∧
    (Instr.fIcmpUnknown frameIcmpEchoReply).wellFormed config = false ∧
    (Instr.fIcmpEchoReply frameIcmpDestUnreach).wellFormed config = false ∧
    (Instr.fIcmpDestUnreach frameEchoShort).wellFormed config = false ∧
    (Instr.fEchoShort frameEchoRequest).wellFormed config = false ∧
    (Instr.fEchoRequest frameEthShort).wellFormed config = false := by decide

/-! ## Decoding: words and frames written out from the spec -/

theorem test_decode_csum :
    decode config (.cmd
      [0x01#8, 0x01#8, 0x02#8, 0x03#8]) =
      .ok (.csum [0x01#8, 0x02#8, 0x03#8]) := by decide

theorem test_decode_ethDec :
    decode config (.cmd
      [0x10#8, 0xaa#8]) =
      .ok (.ethDec [0xaa#8]) := by decide

theorem test_decode_ethEnc :
    decode config (.cmd
      [0x11#8, 0x02#8, 0x00#8, 0x00#8, 0x00#8, 0x00#8, 0x01#8,
       0x02#8, 0x00#8, 0x00#8, 0x00#8, 0x00#8, 0x02#8, 0x01#8, 0x77#8]) =
      .ok (.ethEnc ⟨0x020000000001#48, 0x020000000002#48, .arp⟩ [0x77#8]) := by decide

theorem test_decode_arphDec :
    decode config (.cmd
      [0x12#8, 0xaa#8]) =
      .ok (.arphDec [0xaa#8]) := by decide

theorem test_decode_arphEnc :
    decode config (.cmd
      [0x13#8, 0x06#8, 0x04#8, 0x00#8, 0x00#8, 0x01#8]) =
      .ok (.arphEnc ⟨.ethernet, .ipv4, 6#8, 4#8, .arpReply⟩ []) := by decide

theorem test_decode_arppDec :
    decode config (.cmd
      [0x14#8, 0xaa#8]) =
      .ok (.arppDec [0xaa#8]) := by decide

theorem test_decode_arppEnc :
    decode config (.cmd
      [0x15#8, 0x02#8, 0x00#8, 0x00#8, 0x00#8, 0x00#8, 0x01#8, 0x0a#8, 0x00#8, 0x00#8, 0x03#8,
      0x02#8, 0x00#8, 0x00#8, 0x00#8, 0x00#8, 0x02#8, 0x0a#8, 0x00#8, 0x00#8, 0x02#8]) =
      .ok (.arppEnc ⟨0x020000000001#48, 0x0a000003#32, 0x020000000002#48, 0x0a000002#32⟩ []) := by decide

theorem test_decode_ip4Dec :
    decode config (.cmd
      [0x16#8, 0xaa#8]) =
      .ok (.ip4Dec [0xaa#8]) := by decide

theorem test_decode_ip4Enc :
    decode config (.cmd
      [0x17#8, 0x45#8, 0x00#8, 0x00#8, 0x54#8, 0x41#8, 0xe0#8, 0x40#8, 0x00#8, 0x40#8, 0x01#8, 0xe4#8,
       0xc0#8, 0x0a#8, 0x00#8, 0x00#8, 0x04#8, 0x0a#8, 0x00#8, 0x00#8, 0x05#8]) =
      .ok (.ip4Enc ⟨0x45#8, 0x00#8, 84#16, 0x41e0#16, 0x4000#16, 64#8, 1#8, 0xe4c0#16, 0x0a000004#32,
      0x0a000005#32⟩ []) := by decide

theorem test_decode_icmpDec :
    decode config (.cmd
      [0x18#8, 0xaa#8]) =
      .ok (.icmpDec [0xaa#8]) := by decide

theorem test_decode_icmpEnc :
    decode config (.cmd
      [0x19#8, 0x05#8, 0xc4#8, 0x03#8, 0x02#8]) =
      .ok (.icmpEnc ⟨.echoRequest, 5#8, 0xc403#16⟩ []) := by decide

theorem test_decode_echoDec :
    decode config (.cmd
      [0x1a#8, 0xaa#8]) =
      .ok (.echoDec [0xaa#8]) := by decide

theorem test_decode_echoEnc :
    decode config (.cmd
      [0x1b#8, 0x12#8, 0x34#8, 0x00#8, 0x01#8]) =
      .ok (.echoEnc ⟨0x1234#16, 0x0001#16⟩ []) := by decide

theorem test_decode_camLookup :
    decode config (.cmd
      [0x20#8, 0x0a#8, 0x00#8, 0x00#8, 0x03#8]) =
      .ok (.camLookup 0x0a000003#32) := by decide

theorem test_decode_camUpsert :
    decode config (.cmd
      [0x21#8, 0x0a#8, 0x00#8, 0x00#8, 0x03#8, 0x02#8, 0x00#8, 0x00#8, 0x00#8, 0x00#8, 0x01#8, 0x00#8]) =
      .ok (.camUpsert .ethernet 0x0a000003#32 0x020000000001#48) := by decide

theorem test_decode_dispatch :
    decode config (.cmd
      [0x30#8, 0x02#8]) =
      .ok (.dispatch [0x02#8]) := by decide

theorem test_decode_fEthShort :
    decode config (.rx frameEthShort) = .ok (.fEthShort frameEthShort) := by decide

theorem test_decode_fEthUnknown :
    decode config (.rx frameEthUnknown) = .ok (.fEthUnknown frameEthUnknown) := by decide

theorem test_decode_fEthRarp :
    decode config (.rx frameEthRarp) = .ok (.fEthRarp frameEthRarp) := by decide

theorem test_decode_fArpShort :
    decode config (.rx frameArpShort) = .ok (.fArpShort frameArpShort) := by decide

theorem test_decode_fArpBadHw :
    decode config (.rx frameArpBadHw) = .ok (.fArpBadHw frameArpBadHw) := by decide

theorem test_decode_fArpBadPt :
    decode config (.rx frameArpBadPt) = .ok (.fArpBadPt frameArpBadPt) := by decide

theorem test_decode_fArpBadOp :
    decode config (.rx frameArpBadOp) = .ok (.fArpBadOp frameArpBadOp) := by decide

theorem test_decode_fArpPayloadShort :
    decode config (.rx frameArpPayloadShort) = .ok (.fArpPayloadShort frameArpPayloadShort) := by decide

theorem test_decode_fArpRequest :
    decode config (.rx frameArpRequest) = .ok (.fArpRequest frameArpRequest) := by decide

theorem test_decode_fArpReply :
    decode config (.rx frameArpReply) = .ok (.fArpReply frameArpReply) := by decide

theorem test_decode_fRarpRequest :
    decode config (.rx frameRarpRequest) = .ok (.fRarpRequest frameRarpRequest) := by decide

theorem test_decode_fRarpReply :
    decode config (.rx frameRarpReply) = .ok (.fRarpReply frameRarpReply) := by decide

theorem test_decode_fIpShort :
    decode config (.rx frameIpShort) = .ok (.fIpShort frameIpShort) := by decide

theorem test_decode_fIpNotMine :
    decode config (.rx frameIpNotMine) = .ok (.fIpNotMine frameIpNotMine) := by decide

theorem test_decode_fIpOtherProto :
    decode config (.rx frameIpOtherProto) = .ok (.fIpOtherProto frameIpOtherProto) := by decide

theorem test_decode_fIcmpShort :
    decode config (.rx frameIcmpShort) = .ok (.fIcmpShort frameIcmpShort) := by decide

theorem test_decode_fIcmpUnknown :
    decode config (.rx frameIcmpUnknown) = .ok (.fIcmpUnknown frameIcmpUnknown) := by decide

theorem test_decode_fIcmpEchoReply :
    decode config (.rx frameIcmpEchoReply) = .ok (.fIcmpEchoReply frameIcmpEchoReply) := by decide

theorem test_decode_fIcmpDestUnreach :
    decode config (.rx frameIcmpDestUnreach) = .ok (.fIcmpDestUnreach frameIcmpDestUnreach) := by decide

theorem test_decode_fEchoShort :
    decode config (.rx frameEchoShort) = .ok (.fEchoShort frameEchoShort) := by decide

theorem test_decode_fEchoRequest :
    decode config (.rx frameEchoRequest) = .ok (.fEchoRequest frameEchoRequest) := by decide

theorem test_decode_reserved :
    decode config (.cmd [0x00#8]) = .error (.reservedCode 0x00#8) ∧
    decode config (.cmd [0x1c#8]) = .error (.reservedCode 0x1c#8) ∧
    decode config (.cmd [0xff#8]) = .error (.reservedCode 0xff#8) := by decide

theorem test_decode_no_code : decode config (.cmd []) = .error .noOperationCode := by decide

theorem test_decode_operand_outside_type :
    decode config (.cmd ([0x11#8] ++ zeros 12 ++ [0x03#8])) = .error (.operandOutsideType 0x11#8) ∧
    decode config (.cmd ([0x21#8] ++ zeros 10 ++ [0x01#8])) = .error (.operandOutsideType 0x21#8) ∧
    decode config (.cmd ([0x20#8] ++ zeros 3)) = .error (.operandOutsideType 0x20#8) := by decide

theorem test_decode_frame_length :
    decode config (.rx []) = .error (.frameLength 0) ∧ decode config (.rx (zeros 61)) = .error (.frameLength 61) := by
  decide

/-- The opcode table's bit numbering: the first byte in the least significant bits. -/
theorem test_decodeTableWord :
    decodeTableWord 8 0x20 = some (.camLookup 0#32) ∧ decodeTableWord 16 0x0110 = some (.ethDec (0x01#8 :: zeros 13)) ∧
    decodeTableWord 8 0x02 = none := by decide

theorem test_withFetchWord_runs : isNext (step (State.reset.withFetchWord 8 0x01)) = true := by decide

/-- A CAM_UPSERT word makes the next step perform that upsert, and a DISPATCH word that frame's dispatch step. -/
theorem test_withFetchWord_receive :
    after (step (idleEmpty.withFetchWord 32 0x03000a21)) State.cam =
      after (exec (.camUpsert .ethernet 0x0a000300#32 0#48) idleEmpty) State.cam ∧
    after (step (idleEmpty.withFetchWord 8 0x30)) State.kIn = some 1 := by decide

/-! ## The checksum engine -/

theorem test_csum_source_example :
    after (exec (.csum [0x45#8, 0x00#8, 0x00#8, 0x54#8, 0x41#8, 0xe0#8, 0x40#8, 0x00#8, 0x40#8, 0x01#8, 0x00#8, 0x00#8,
      0x0a#8, 0x00#8, 0x00#8, 0x04#8, 0x0a#8, 0x00#8, 0x00#8, 0x05#8]) idleEmpty) State.opOut =
      some [⟨.ok, .checksum 0xe4c0#16⟩] := by decide

/-- CS1, CS6, CS8, CS10, CS13. -/
theorem test_csum_corners :
    internetChecksum [] = 0xffff#16 ∧ internetChecksum [0xff#8, 0xff#8] = 0x0000#16 ∧
    internetChecksum [0x80#8, 0x00#8, 0x80#8, 0x00#8] = 0xfffe#16 ∧
    internetChecksum [0x00#8, 0x01#8, 0xf2#8, 0x03#8, 0xf4#8, 0xf5#8, 0xf6#8, 0xf7#8] = 0x220d#16 ∧
    internetChecksum [0x00#8, 0x00#8, 0x00#8, 0x00#8, 0x12#8, 0x34#8, 0x00#8, 0x01#8, 0x61#8, 0x62#8, 0x63#8, 0x64#8,
      0x65#8] = 0xc403#16 := by decide

/-! ## The codec -/

def result (i : Instr) : Option (List OpReturn) := after (exec i idleEmpty) State.opOut

/-- CD2, CD4. -/
theorem test_ethDec :
    result (.ethDec [0xff#8, 0xff#8, 0xff#8, 0xff#8, 0xff#8, 0xff#8,
      0x02#8, 0x00#8, 0x00#8, 0x00#8, 0x00#8, 0x01#8, 0x80#8, 0x35#8, 0xaa#8]) =
      some [⟨.ok, .eth ⟨0xffffffffffff#48, 0x020000000001#48, .rarp⟩ [0xaa#8]⟩] ∧
    result (.ethDec (zeros 12 ++ [0x99#8, 0x99#8])) =
      some [⟨.unsupported .eth .ethertype 0x9999#16, .nothing⟩] := by decide

/-- CD3. -/
theorem test_ethDec_short : result (.ethDec frameEthShort) = some [⟨.malformed .eth, .nothing⟩] := by decide

/-- CD8. -/
theorem test_ethEnc :
    result (.ethEnc ⟨0x020000000001#48, 0x020000000002#48, .arp⟩ (zeros 14 ++ [0x77#8, 0x77#8])) =
      some [⟨.ok, .region [0x02#8, 0x00#8, 0x00#8, 0x00#8, 0x00#8, 0x01#8,
        0x02#8, 0x00#8, 0x00#8, 0x00#8, 0x00#8, 0x02#8, 0x08#8, 0x06#8, 0x77#8, 0x77#8] 14⟩] := by decide

/-- CD7. -/
theorem test_ethEnc_small :
    result (.ethEnc ⟨0x020000000001#48, 0x020000000002#48, .arp⟩ (zeros 13)) =
      some [⟨.bufferTooSmall 14, .region (zeros 13) 0⟩] := by decide

/-- CD10, CD14. -/
theorem test_arphDec :
    result (.arphDec [0x00#8, 0x01#8, 0x08#8, 0x00#8, 0x00#8, 0x00#8, 0x00#8, 0x04#8]) =
      some [⟨.ok, .arph ⟨.ethernet, .ipv4, 0#8, 0#8, .rarpReply⟩ []⟩] ∧
    result (.arphDec [0x00#8, 0x06#8, 0x86#8, 0xdd#8, 0x06#8, 0x04#8, 0x00#8, 0x05#8]) =
      some [⟨.unsupported .arpHeader .hwtype 6#16, .nothing⟩] := by decide

/-- CD15. -/
theorem test_arphDec_short :
    result (.arphDec [0x00#8, 0x06#8, 0x08#8, 0x00#8, 0x06#8, 0x04#8, 0x00#8]) =
      some [⟨.malformed .arpHeader, .nothing⟩] := by decide

/-- CD18, CD19. -/
theorem test_arphEnc :
    result (.arphEnc ⟨.ethernet, .ipv4, 6#8, 4#8, .arpReply⟩ (zeros 8)) =
      some [⟨.ok, .region [0x00#8, 0x01#8, 0x08#8, 0x00#8, 0x06#8, 0x04#8, 0x00#8, 0x02#8] 8⟩] ∧
    result (.arphEnc ⟨.ethernet, .ipv4, 6#8, 4#8, .arpReply⟩ (zeros 7)) =
      some [⟨.bufferTooSmall 8, .region (zeros 7) 0⟩] := by decide

/-- CD20. -/
theorem test_arppDec :
    result (.arppDec ((frameA.drop 22).take 20 ++ zeros 18)) =
      some [⟨.ok, .arpp ⟨0x020000000001#48, 0x0a000003#32, 0#48, 0x0a000002#32⟩ (zeros 18)⟩] := by decide

/-- CD21. -/
theorem test_arppDec_short :
    result (.arppDec ((frameA.drop 22).take 19)) = some [⟨.malformed .arpPayload, .nothing⟩] := by decide

/-- CD22, CD23. -/
theorem test_arppEnc :
    result (.arppEnc ⟨0x020000000001#48, 0x0a000003#32, 0#48, 0x0a000002#32⟩ (zeros 20)) =
      some [⟨.ok, .region ((frameA.drop 22).take 20) 20⟩] ∧
    result (.arppEnc ⟨0x020000000001#48, 0x0a000003#32, 0#48, 0x0a000002#32⟩ []) =
      some [⟨.bufferTooSmall 20, .region [] 0⟩] := by decide

/-- The bytes of S1. -/
def headerS1 : Bytes :=
  [0x45#8, 0x00#8, 0x00#8, 0x54#8, 0x41#8, 0xe0#8, 0x40#8, 0x00#8, 0x40#8, 0x01#8, 0x00#8, 0x00#8, 0x0a#8, 0x00#8,
   0x00#8, 0x04#8, 0x0a#8, 0x00#8, 0x00#8, 0x05#8]

/-- CD25 (a version of 6 and a protocol of 255). -/
theorem test_ip4Dec :
    result (.ip4Dec (patch (patch headerS1 0 [0x65#8]) 9 [0xff#8])) =
      some [⟨.ok, .ip4 ⟨0x65#8, 0#8, 84#16, 0x41e0#16, 0x4000#16, 64#8, 255#8, 0#16, 0x0a000004#32, 0x0a000005#32⟩
        []⟩] := by decide

/-- CD27. -/
theorem test_ip4Dec_short : result (.ip4Dec (headerS1.take 19)) = some [⟨.malformed .ipv4, .nothing⟩] := by decide

/-- CD28. -/
theorem test_ip4Enc :
    result (.ip4Enc ⟨0x45#8, 0#8, 84#16, 0x41e0#16, 0x4000#16, 64#8, 1#8, 0#16, 0x0a000004#32, 0x0a000005#32⟩
      (zeros 20)) = some [⟨.ok, .region headerS1 20⟩] := by decide

/-- CD29. -/
theorem test_ip4Enc_small :
    result (.ip4Enc ⟨0x45#8, 0#8, 84#16, 0x41e0#16, 0x4000#16, 64#8, 1#8, 0#16, 0x0a000004#32, 0x0a000005#32⟩
      (zeros 19)) = some [⟨.bufferTooSmall 20, .region (zeros 19) 0⟩] := by decide

/-- CD34, CD32. -/
theorem test_icmpDec :
    result (.icmpDec [0x08#8, 0x05#8, 0xbb#8, 0xfe#8]) =
      some [⟨.ok, .icmp ⟨.echoRequest, 5#8, 0xbbfe#16⟩ []⟩] ∧
    result (.icmpDec [0x0d#8, 0x00#8, 0x00#8, 0x00#8]) =
      some [⟨.unsupported .icmp .icmpType 13#16, .nothing⟩] := by decide

/-- CD33. -/
theorem test_icmpDec_short : result (.icmpDec [0x08#8, 0x00#8, 0xbc#8]) = some [⟨.malformed .icmp, .nothing⟩] := by
  decide

/-- CD35, CD36. -/
theorem test_icmpEnc :
    result (.icmpEnc ⟨.echoReply, 0#8, 0xc403#16⟩ (zeros 4)) =
      some [⟨.ok, .region [0x00#8, 0x00#8, 0xc4#8, 0x03#8] 4⟩] ∧
    result (.icmpEnc ⟨.echoReply, 0#8, 0xc403#16⟩ (zeros 3)) =
      some [⟨.bufferTooSmall 4, .region (zeros 3) 0⟩] := by decide

/-- CD37, CD39. -/
theorem test_echoDec :
    result (.echoDec [0x12#8, 0x34#8, 0x00#8, 0x01#8, 0x61#8, 0x62#8, 0x63#8, 0x64#8, 0x65#8]) =
      some [⟨.ok, .echo ⟨0x1234#16, 0x0001#16⟩ [0x61#8, 0x62#8, 0x63#8, 0x64#8, 0x65#8]⟩] ∧
    result (.echoDec [0x12#8, 0x34#8, 0x00#8]) = some [⟨.malformed .echo, .nothing⟩] := by decide

/-- CD40, CD41. -/
theorem test_echoEnc :
    result (.echoEnc ⟨0xffff#16, 0x0000#16⟩ (zeros 4)) =
      some [⟨.ok, .region [0xff#8, 0xff#8, 0x00#8, 0x00#8] 4⟩] ∧
    result (.echoEnc ⟨0x1234#16, 0x0001#16⟩ (zeros 2)) = some [⟨.bufferTooSmall 4, .region (zeros 2) 0⟩] := by decide

/-! ## The ARP CAM (section 4, ARP_CAP = 2) -/

/-- CM1 and CM6: misses. -/
theorem test_camLookup_miss :
    after (exec (.camLookup 0x0a00000a#32) idleEmpty) State.opOut = some [⟨.ok, .miss⟩] ∧
    after (exec (.camLookup 0x0a00000c#32) idleFull) State.opOut = some [⟨.ok, .miss⟩] := by decide

/-- CM9. -/
theorem test_camLookup_hit :
    after (exec (.camLookup 0x0a00000b#32) idleFull) State.opOut = some [⟨.ok, .hit 0x02000000000b#48⟩] := by decide

/-- CM2, CM4: inserts at the lowest free index. -/
theorem test_camUpsert_insert :
    after (exec (.camUpsert .ethernet 0x0a00000a#32 0x02000000000a#48) idleEmpty) (fun t => (t.opOut, t.cam)) =
      some ([⟨.ok, .inserted 0⟩], [entry 0x0a00000a#32 0x02000000000a#48, free]) ∧
    after (exec (.camUpsert .ethernet 0x0a00000b#32 0x02000000000b#48) idleHit) (fun t => (t.opOut, t.cam)) =
      some ([⟨.ok, .inserted 1⟩], [peerEntry, entry 0x0a00000b#32 0x02000000000b#48]) := by decide

/-- CM5, CM7: a new key in a full CAM, and an update in it. -/
theorem test_camUpsert_full :
    after (exec (.camUpsert .ethernet 0x0a00000c#32 0x02000000000c#48) idleFull) (fun t => (t.opOut, t.cam)) =
      some ([⟨.cacheFull 0x0a00000c#32, .nothing⟩], idleFull.cam) ∧
    after (exec (.camUpsert .ethernet 0x0a00000a#32 0x0200000000aa#48) idleFull) (fun t => (t.opOut, t.cam)) =
      some ([⟨.ok, .updated 0⟩],
        [entry 0x0a00000a#32 0x0200000000aa#48, entry 0x0a00000b#32 0x02000000000b#48]) := by decide

/-! ## The frame classes: required events, CAM, reply, phase and k_in -/

/-- What a frame step leaves that the vectors of section 5 give. -/
def frameResult (i : Instr) (s : State) : Option (List Diag × List CamEntry × Bytes × Phase × Nat) :=
  after (exec i s) fun t => (requiredDiags t.diagOut, t.cam, t.pendingTx, t.phase, t.kIn)

/-- DP1. -/
theorem test_fEthShort :
    frameResult (.fEthShort frameEthShort) idleHit =
      some ([.malformed .eth], idleHit.cam, [], .waitRx, 1) := by decide

/-- DP2. -/
theorem test_fEthUnknown :
    frameResult (.fEthUnknown frameEthUnknown) idleHit =
      some ([.unsupported .eth .ethertype 0x9999#16], idleHit.cam, [], .waitRx, 1) := by decide

/-- DP3. -/
theorem test_fEthRarp :
    frameResult (.fEthRarp frameEthRarp) idleHit =
      some ([.dropEthertype 0x8035#16], idleHit.cam, [], .waitRx, 1) := by decide

/-- DP4. -/
theorem test_fArpShort :
    frameResult (.fArpShort frameArpShort) idleHit =
      some ([.malformed .arpHeader], idleHit.cam, [], .waitRx, 1) := by decide

/-- DP5. -/
theorem test_fArpBadHw :
    frameResult (.fArpBadHw frameArpBadHw) idleHit =
      some ([.unsupported .arpHeader .hwtype 6#16], idleHit.cam, [], .waitRx, 1) := by decide

/-- DP6. -/
theorem test_fArpBadPt :
    frameResult (.fArpBadPt frameArpBadPt) idleHit =
      some ([.unsupported .arpHeader .protype 0x86dd#16], idleHit.cam, [], .waitRx, 1) := by decide

/-- DP7. -/
theorem test_fArpBadOp :
    frameResult (.fArpBadOp frameArpBadOp) idleHit =
      some ([.unsupported .arpHeader .opcode 5#16], idleHit.cam, [], .waitRx, 1) := by decide

/-- DP8. -/
theorem test_fArpPayloadShort :
    frameResult (.fArpPayloadShort frameArpPayloadShort) idleHit =
      some ([.malformed .arpPayload], idleHit.cam, [], .waitRx, 1) := by decide

/-- DP9, from the empty CAM. -/
theorem test_fArpRequest :
    frameResult (.fArpRequest frameA) idleEmpty = some ([], idleHit.cam, replyRA, .waitTx, 1) := by
  decide

/-- P4, step 3: a new sender in a full CAM is reported and still answered; DX5: a foreign target, odd sizes. -/
theorem test_fArpRequest_full_and_foreign :
    after (exec (.fArpRequest frameA) idleFull) (fun t => (requiredDiags t.diagOut, t.cam, t.pendingTx)) =
      some ([.cacheFull 0x0a000003#32], idleFull.cam, replyRA) ∧
    after (exec (.fArpRequest (patch (patch frameA 18 [0x00#8, 0x00#8]) 41 [0x63#8])) idleEmpty)
      (fun t => (t.cam, t.pendingTx)) = some (idleHit.cam, replyDX5) := by
  decide

/-- DP10, from the empty CAM. -/
theorem test_fArpReply :
    frameResult (.fArpReply frameArpReply) idleEmpty = some ([], idleHit.cam, [], .waitRx, 1) := by
  decide

/-- DP11, from the empty CAM. -/
theorem test_fRarpRequest :
    frameResult (.fRarpRequest frameRarpRequest) idleEmpty = some ([], idleHit.cam, [], .waitRx, 1) := by
  decide

/-- DP12, from the empty CAM. -/
theorem test_fRarpReply :
    frameResult (.fRarpReply frameRarpReply) idleEmpty = some ([], idleHit.cam, [], .waitRx, 1) := by
  decide

/-- DP13. -/
theorem test_fIpShort :
    frameResult (.fIpShort frameIpShort) idleHit =
      some ([.malformed .ipv4], idleHit.cam, [], .waitRx, 1) := by decide

/-- DP14. -/
theorem test_fIpNotMine :
    frameResult (.fIpNotMine frameIpNotMine) idleHit =
      some ([], idleHit.cam, [], .waitRx, 1) := by decide

/-- DP15. -/
theorem test_fIpOtherProto :
    frameResult (.fIpOtherProto frameIpOtherProto) idleHit =
      some ([], idleHit.cam, [], .waitRx, 1) := by decide

/-- DP16. -/
theorem test_fIcmpShort :
    frameResult (.fIcmpShort frameIcmpShort) idleHit =
      some ([.malformed .icmp], idleHit.cam, [], .waitRx, 1) := by decide

/-- DP17. -/
theorem test_fIcmpUnknown :
    frameResult (.fIcmpUnknown frameIcmpUnknown) idleHit =
      some ([.unsupported .icmp .icmpType 13#16], idleHit.cam, [], .waitRx, 1) := by decide

/-- DP18. -/
theorem test_fIcmpEchoReply :
    frameResult (.fIcmpEchoReply frameIcmpEchoReply) idleHit =
      some ([], idleHit.cam, [], .waitRx, 1) := by decide

/-- DP19. -/
theorem test_fIcmpDestUnreach :
    frameResult (.fIcmpDestUnreach frameIcmpDestUnreach) idleHit =
      some ([], idleHit.cam, [], .waitRx, 1) := by decide

/-- DP20. -/
theorem test_fEchoShort :
    frameResult (.fEchoShort frameEchoShort) idleHit =
      some ([.malformed .echo], idleHit.cam, [], .waitRx, 1) := by decide

/-- DX7: a CAM miss. -/
theorem test_fEchoRequest_miss :
    frameResult (.fEchoRequest frameE) idleFull = some ([], idleFull.cam, [], .waitRx, 1) := by
  decide

/-- DP21 with a CAM hit; DX1, IPV4_REPLY_CSUM = COMPUTED; DX2, a padded request. -/
theorem test_fEchoRequest :
    after (exec (.fEchoRequest frameE) idleHit) State.pendingTx = some replyRE ∧
    after (exec (.fEchoRequest frameE) { idleHit with params := configComputed }) State.pendingTx = some replyDX1 ∧
    after (exec (.fEchoRequest frameDX2) idleHit) State.pendingTx = some replyDX2 := by
  decide

/-- DX4 (IHL 6) and DX6 (code 5), through DISPATCH. -/
theorem test_dispatch_echo :
    after (exec (.dispatch (patch frameE 14 [0x46#8])) idleHit) State.pendingTx = some (patch replyRE 14 [0x46#8]) ∧
    after (exec (.dispatch (patch frameE 35 [0x05#8, 0xbb#8, 0xfe#8])) idleHit) State.pendingTx = some replyRE := by
  decide

/-- DX8: a short echo request not addressed to the block is dropped without a required event. -/
theorem test_dispatch_filter_first :
    frameResult (.dispatch (frameIpNotMine.take 37)) idleHit = some ([], idleHit.cam, [], .waitRx, 1) := by decide

/-! ## The sequencer -/

/-- P1, steps 2 and 3; P4, steps 4 and 6. -/
theorem test_step_ports :
    after (step (given .txOk sending)) (fun t => (t.phase, t.txOut, t.kOut)) = some (.waitRx, [[0x55#8]], 1) ∧
    after (step (given .txErr sending)) (fun t => (t.phase, t.txOut, requiredDiags t.diagOut)) =
      some (.waitRx, [], [.writeError]) ∧
    after (step (given .rxClose idleHit)) (fun t => (t.phase, t.cam)) = some (.stopped, idleHit.cam) ∧
    after (step (given .rxError idleHit)) State.phase = some .stopped := by decide

/-- P5, steps 2 and 5: no frame is taken in WAIT_TX or in STOPPED. -/
theorem test_step_not_enabled :
    refusal (step (given (.rx frameA) sending)) = some (.notEnabled 0x30#8) ∧
    refusal (step (given (.rx frameA) stopped)) = some (.notEnabled 0x30#8) ∧
    refusal (step (given .txOk idleHit)) = some .noMove ∧
    refusal (step (given (.cmd [0x02#8]) idleHit)) = some (.reservedCode 0x02#8) := by decide

/-- A frame class refuses a frame of another class (R83, R214). -/
theorem test_frameNotOfClass : refusal (exec (.fArpReply frameA) idleHit) = some (.frameNotOfClass 0x30#8) := by
  decide

/-- R232, D30: the host cannot write the CAM or supply a frame by a command, in any phase; the test access runs in
STOPPED and not in WAIT_TX. -/
theorem test_test_access :
    (∀ s ∈ [idleEmpty, sending, stopped],
      refusal (step (given (.cmd (0x21#8 :: zeros 11)) s)) = some (.notExposed 0x21#8) ∧
      refusal (step (given (.cmd [0x30#8, 0x02#8]) s)) = some (.notExposed 0x30#8)) ∧
    after (step (given (.cmd [0x20#8, 0x0a#8, 0x00#8, 0x00#8, 0x03#8]) stopped)) State.opOut =
      some [⟨.ok, .hit 0x020000000001#48⟩] ∧
    refusal (step (given (.cmd [0x20#8, 0x0a#8, 0x00#8, 0x00#8, 0x03#8]) sending)) =
      some (.accessWhileSending 0x20#8) := by decide

/-- R9, R210: DISPATCH returns OK, on a frame that is abandoned as on one that is answered. -/
theorem test_dispatch_status :
    after (exec (.dispatch frameEthShort) idleHit) State.opOut = some [⟨.ok, .dispatched none⟩] ∧
    after (exec (.dispatch frameE) idleHit) State.opOut = some [⟨.ok, .dispatched (some replyRE)⟩] := by decide

/-! ## Witnesses: for every statement with hypotheses, states and operands that meet them, clause by clause -/

open Sys2Proof.Claim

/-- A state in WAIT_RX under COMPUTED. -/
def idleComputed : State := { idleHit with params := configComputed }

theorem returns_eq {c : Byte} {s : State} {r r' : OpReturn} (h : s.phase ≠ .waitTx) (e : r = r') :
    returns c r s = .next (returned r' s) := e ▸ returns_of_idle h c r

theorem witness_InvariantHoldsAfterConstruction :
    Params.ok { config with arpCap := 1, rxBufBytes := 14 } ∧ Params.ok { config with rxBufBytes := 65549 } := by
  decide

theorem witness_reset_inv : State.reset.Inv :=
  ⟨by decide, freeEntries_inv 32, ⟨by decide, by decide⟩, by decide, by decide⟩

theorem witness_EveryStepKeepsInvariant :
    ((given (.rx frameE) idleHit).Inv ∧ isNext (step (given (.rx frameE) idleHit)) = true) ∧
    ((given .txOk sending).Inv ∧ isNext (step (given .txOk sending)) = true) := by decide

theorem witness_CamUniquePrefixMonotone :
    (given (.rx frameArpReply) idleHit).Inv ∧ isNext (step (given (.rx frameArpReply) idleHit)) = true ∧
    (given (.rx frameArpReply) idleFull).Inv ∧ isNext (step (given (.rx frameArpReply) idleFull)) = true := by decide

theorem witness_ParametersNeverChange :
    isNext (exec (.csum []) idleHit) = true ∧ isNext (step (given .rxClose idleHit)) = true := by decide

theorem witness_StepRunsDecodedInstruction :
    (given (.rx frameA) idleHit).host = [.rx frameA] ∧ decode config (.rx frameA) = .ok (.fArpRequest frameA) ∧
    (given (.cmd [0x01#8]) idleHit).host = [.cmd [0x01#8]] ∧ decode config (.cmd [0x01#8]) = .ok (.csum []) ∧
    decode config (.cmd (0x21#8 :: zeros 11)) = .ok (.camUpsert .ethernet 0#32 0#48) ∧
    decode config (.cmd [0x30#8]) = .ok (.dispatch []) := by decide

/-- One instruction of every frame class, and every length bound of DISPATCH. -/
def classFrames : List Instr :=
  [.fEthShort frameEthShort, .fEthUnknown frameEthUnknown, .fEthRarp frameEthRarp, .fArpShort frameArpShort,
   .fArpBadHw frameArpBadHw, .fArpBadPt frameArpBadPt, .fArpBadOp frameArpBadOp,
   .fArpPayloadShort frameArpPayloadShort, .fArpRequest frameA, .fArpReply frameArpReply,
   .fRarpRequest frameRarpRequest, .fRarpReply frameRarpReply, .fIpShort frameIpShort, .fIpNotMine frameIpNotMine,
   .fIpOtherProto frameIpOtherProto, .fIcmpShort frameIcmpShort, .fIcmpUnknown frameIcmpUnknown,
   .fIcmpEchoReply frameIcmpEchoReply, .fIcmpDestUnreach frameIcmpDestUnreach, .fEchoShort frameEchoShort,
   .fEchoRequest frameE]

theorem witness_DecodeInvertsEncode :
    classFrames.all (Instr.wellFormed config) = true ∧ (Instr.dispatch [0#8]).wellFormed config = true ∧
    (Instr.ip4Enc ⟨0#8, 0#8, 0#16, 0#16, 0#16, 0#8, 0#8, 0#16, 0#32, 0#32⟩ []).wellFormed config = true := by decide

theorem witness_EncodeInvertsDecode :
    decode config (.cmd [0x20#8, 0x0a#8, 0x00#8, 0x00#8, 0x03#8]) = .ok (.camLookup 0x0a000003#32) ∧
    decode config (.rx [0#8]) = .ok (.fEthShort [0#8]) := by decide

theorem witness_OperationCodesOfTheTable :
    decode config (.cmd [0x30#8, 0x01#8]) = .ok (.dispatch [0x01#8]) ∧ codeOf (.dispatch [0x01#8]) = some 0x30#8 ∧
    (given (.cmd [0x31#8]) idleHit).host = [.cmd [0x31#8]] ∧
    0x31#8 ∉ [0x01#8, 0x10#8, 0x11#8, 0x12#8, 0x13#8, 0x14#8, 0x15#8, 0x16#8, 0x17#8, 0x18#8, 0x19#8, 0x1A#8,
      0x1B#8, 0x20#8, 0x21#8, 0x30#8] := by decide

theorem witness_ExactlyOneClassPerFrame :
    legalLength config.rxBufBytes [0#8] ∧ legalLength config.rxBufBytes frameA ∧ frameA.length = 60 := by decide

/-- The gate of every operation: WAIT_RX and STOPPED. -/
theorem witness_operation_phase :
    idleHit.phase ≠ .waitTx ∧ stopped.phase ≠ .waitTx ∧ idleHit.phase = .waitRx ∧ sending.phase ≠ .waitRx := by decide

theorem witness_ChecksumVerifiesItself :
    (10 % 2 = 0 ∧ 10 + 1 < headerS1.length ∧ headerS1.getD 10 0#8 = 0#8 ∧ headerS1.getD 11 0#8 = 0#8) ∧
    exec (.csum headerS1) idleHit = .next (returned ⟨.ok, .checksum 0xe4c0#16⟩ idleHit) :=
  ⟨by decide,
    returns_eq (c := opCsum) (r := ⟨.ok, .checksum (internetChecksum headerS1)⟩)
      (s := idleHit) (by decide) (by decide)⟩

/-- The same at an odd length, the field being the last whole word. -/
theorem witness_ChecksumVerifiesItself_odd :
    (2 % 2 = 0 ∧ 2 + 1 < [0x12#8, 0x34#8, 0x00#8, 0x00#8, 0xab#8].length) ∧
    exec (.csum [0x12#8, 0x34#8, 0x00#8, 0x00#8, 0xab#8]) idleHit =
      .next (returned ⟨.ok, .checksum 0x42cb#16⟩ idleHit) :=
  ⟨by decide,
    returns_eq (c := opCsum) (r := ⟨.ok, .checksum (internetChecksum [0x12#8, 0x34#8, 0x00#8, 0x00#8, 0xab#8])⟩)
      (s := idleHit) (by decide) (by decide)⟩

theorem witness_ThirtyTwoBitAccumulatorSuffices :
    idleHit.phase ≠ .waitTx ∧ ([] : Bytes).length ≤ 131072 ∧ (zeros 131072).length ≤ 131072 :=
  ⟨by decide, by decide, by rw [zeros_length]⟩

/-- The short inputs of the six decodes, at both ends. -/
theorem witness_decodes_short :
    idleHit.phase ≠ .waitTx ∧ ([] : Bytes).length < 4 ∧ (zeros 13).length < 14 ∧ (zeros 7).length < 8 ∧
    (zeros 19).length < 20 ∧ (zeros 3).length < 4 := by decide

/-- The first law of R118 at the smallest region of each size. -/
theorem witness_CodecRoundTrips_room :
    idleHit.phase ≠ .waitTx ∧ 14 ≤ (zeros 14).length ∧ 8 ≤ (zeros 8).length ∧ 20 ≤ (zeros 20).length ∧
    4 ≤ (zeros 4).length := by decide

theorem witness_CodecRoundTrips_eth :
    exec (.ethDec (frameE.take 14)) idleHit = .next (returned ⟨.ok, .eth
      ⟨0x020000000002#48, 0x020000000001#48, .ipv4⟩ []⟩ idleHit) :=
    returns_eq (c := opEthDec) (r := (decodeEth (frameE.take 14)).toReturn .eth)
      (s := idleHit) (by decide) (by decide)

theorem witness_CodecRoundTrips_arph :
    exec (.arphDec ((frameA.drop 14).take 9)) idleHit = .next (returned ⟨.ok, .arph
      ⟨.ethernet, .ipv4, 6#8, 4#8, .arpRequest⟩ [0x02#8]⟩ idleHit) :=
    returns_eq (c := opArphDec) (r := (decodeArph ((frameA.drop 14).take 9)).toReturn .arph)
      (s := idleHit) (by decide) (by decide)

theorem witness_CodecRoundTrips_arpp :
    exec (.arppDec ((frameA.drop 22).take 20)) idleHit = .next (returned ⟨.ok, .arpp
      ⟨0x020000000001#48, 0x0a000003#32, 0#48, 0x0a000002#32⟩ []⟩ idleHit) :=
    returns_eq (c := opArppDec) (r := (decodeArpp ((frameA.drop 22).take 20)).toReturn .arpp)
      (s := idleHit) (by decide) (by decide)

theorem witness_CodecRoundTrips_ip4 :
    exec (.ip4Dec headerS1) idleHit = .next (returned ⟨.ok, .ip4
      ⟨0x45#8, 0#8, 84#16, 0x41e0#16, 0x4000#16, 64#8, 1#8, 0#16, 0x0a000004#32, 0x0a000005#32⟩ []⟩ idleHit) :=
    returns_eq (c := opIp4Dec) (r := (decodeIp4 headerS1).toReturn .ip4)
      (s := idleHit) (by decide) (by decide)

theorem witness_CodecRoundTrips_icmp :
    exec (.icmpDec [0x08#8, 0x05#8, 0xbb#8, 0xfe#8]) idleHit = .next (returned ⟨.ok, .icmp
      ⟨.echoRequest, 5#8, 0xbbfe#16⟩ []⟩ idleHit) :=
    returns_eq (c := opIcmpDec) (r := (decodeIcmp [0x08#8, 0x05#8, 0xbb#8, 0xfe#8]).toReturn .icmp)
      (s := idleHit) (by decide) (by decide)

theorem witness_CodecRoundTrips_echo :
    exec (.echoDec [0x12#8, 0x34#8, 0x00#8, 0x01#8, 0x61#8]) idleHit = .next (returned ⟨.ok, .echo
      ⟨0x1234#16, 0x0001#16⟩ [0x61#8]⟩ idleHit) :=
    returns_eq (c := opEchoDec) (r := (decodeEcho [0x12#8, 0x34#8, 0x00#8, 0x01#8, 0x61#8]).toReturn .echo)
      (s := idleHit) (by decide) (by decide)

/-- A hit at the first and at the last index. -/
theorem witness_LookupFindsLowestValidEntry_hit :
    idleFull.phase ≠ .waitTx ∧ (idleFull.cam.getD 0 free).valid = true ∧
    (idleFull.cam.getD 0 free).ip = 0x0a00000a#32 ∧ (idleFull.cam.getD 1 free).valid = true ∧
    (idleFull.cam.getD 1 free).ip = 0x0a00000b#32 ∧
    ∀ j < 1, (idleFull.cam.getD j free).valid = true → (idleFull.cam.getD j free).ip ≠ 0x0a00000b#32 := by decide

theorem witness_LookupFindsLowestValidEntry_miss :
    (∀ e ∈ idleEmpty.cam, e.valid = true → e.ip ≠ 0#32) ∧
    (∀ e ∈ idleFull.cam, e.valid = true → e.ip ≠ 0x0a00000c#32) := by decide

/-- An update at the first and at the last index. -/
theorem witness_UpsertUpdatesInsertsOrRejects_update :
    idleFull.cam.getD 0 free = entry 0x0a00000a#32 0x02000000000a#48 ∧
    idleFull.cam.getD 1 free = entry 0x0a00000b#32 0x02000000000b#48 ∧
    ∀ j < 1, ¬ ((idleFull.cam.getD j free).valid = true ∧ (idleFull.cam.getD j free).hwtype = 1#16 ∧
      (idleFull.cam.getD j free).ip = 0x0a00000b#32) := by decide

/-- An insert at the first and at the last index, and a full CAM. -/
theorem witness_UpsertUpdatesInsertsOrRejects_new :
    ((∀ e ∈ idleEmpty.cam, ¬ (e.valid = true ∧ e.hwtype = 1#16 ∧ e.ip = 0x0a00000c#32)) ∧
      (idleEmpty.cam.getD 0 free).valid = false) ∧
    ((∀ e ∈ idleHit.cam, ¬ (e.valid = true ∧ e.hwtype = 1#16 ∧ e.ip = 0x0a00000c#32)) ∧
      (idleHit.cam.getD 1 free).valid = false ∧ ∀ j < 1, (idleHit.cam.getD j free).valid = true) ∧
    ((∀ e ∈ idleFull.cam, ¬ (e.valid = true ∧ e.hwtype = 1#16 ∧ e.ip = 0x0a00000c#32)) ∧
      ∀ e ∈ idleFull.cam, e.valid = true) := by decide

def twoKeys : List (Ip × Mac) := [(0x0a00000a#32, 0x02000000000a#48), (0x0a00000b#32, 0x02000000000b#48)]

theorem witness_CamHoldsExactlyItsCapacity :
    idleEmpty.phase = .waitRx ∧ (∀ e ∈ idleEmpty.cam, e.valid = false) ∧ (twoKeys.map Prod.fst).Nodup ∧
    twoKeys.length = idleEmpty.cam.length ∧ 0x0a00000c#32 ∉ twoKeys.map Prod.fst := by decide

theorem witness_LookupGivesLatestUpsert :
    idleEmpty.Inv ∧
    isNext (runAll (twoKeys.map fun k => .camUpsert .ethernet k.1 k.2) idleEmpty) = true := by decide

theorem witness_OnlyUpsertWritesCam :
    after (step (given (.rx frameA) idleEmpty)) (fun t => decide (t.cam ≠ idleEmpty.cam)) = some true ∧
    after (step (given (.rx frameRarpReply) idleEmpty)) (fun t => decide (t.cam ≠ idleEmpty.cam)) = some true := by
  decide

/-- The lengths at the ends of the clauses that speak of a short frame, and the frames of the others at their
smallest length. -/
theorem witness_FailedDecodes_link :
    (idleHit.phase = .waitRx ∧ ∀ n < 13, legalLength config.rxBufBytes (frameEthShort.take (n + 1)) ∧
      (frameEthShort.take (n + 1)).length < 14) ∧
    (14 ≤ (frameEthUnknown.take 14).length ∧ frameEt (frameEthUnknown.take 14) ∉ [0x0800#16, 0x0806#16, 0x8035#16]) ∧
    (∀ n ∈ [14, 21], 14 ≤ (frameA.take n).length ∧ frameEt (frameA.take n) = 0x0806#16 ∧
      (frameA.take n).length < 22) := by decide

theorem witness_FailedDecodes_arp :
    (22 ≤ (frameArpBadHw.take 22).length ∧ frameEt (frameArpBadHw.take 22) = 0x0806#16 ∧
      frameHw (frameArpBadHw.take 22) ≠ 1#16) ∧
    (22 ≤ (frameArpBadPt.take 22).length ∧ frameEt (frameArpBadPt.take 22) = 0x0806#16 ∧
      frameHw (frameArpBadPt.take 22) = 1#16 ∧ framePt (frameArpBadPt.take 22) ≠ 0x0800#16) ∧
    (22 ≤ (frameArpBadOp.take 22).length ∧ frameEt (frameArpBadOp.take 22) = 0x0806#16 ∧
      frameHw (frameArpBadOp.take 22) = 1#16 ∧ framePt (frameArpBadOp.take 22) = 0x0800#16 ∧
      frameOp (frameArpBadOp.take 22) ∉ [1#16, 2#16, 3#16, 4#16]) ∧
    (∀ n ∈ [22, 41], 22 ≤ (frameA.take n).length ∧ frameEt (frameA.take n) = 0x0806#16 ∧
      frameHw (frameA.take n) = 1#16 ∧ framePt (frameA.take n) = 0x0800#16 ∧
      frameOp (frameA.take n) ∈ [1#16, 2#16, 3#16, 4#16] ∧ (frameA.take n).length < 42) := by decide

theorem witness_FailedDecodes_ipv4 :
    (∀ n ∈ [14, 33], 14 ≤ (frameE.take n).length ∧ frameEt (frameE.take n) = 0x0800#16 ∧
      (frameE.take n).length < 34) ∧
    (∀ n ∈ [34, 37], 34 ≤ (frameE.take n).length ∧ frameEt (frameE.take n) = 0x0800#16 ∧
      frameDst (frameE.take n) = idleHit.params.myIp ∧ framePr (frameE.take n) = 1#8 ∧ (frameE.take n).length < 38) ∧
    (38 ≤ (frameIcmpUnknown.take 38).length ∧ frameEt (frameIcmpUnknown.take 38) = 0x0800#16 ∧
      frameDst (frameIcmpUnknown.take 38) = idleHit.params.myIp ∧ framePr (frameIcmpUnknown.take 38) = 1#8 ∧
      frameTy (frameIcmpUnknown.take 38) ∉ [0#8, 3#8, 8#8]) ∧
    (∀ n ∈ [38, 41], 38 ≤ (frameE.take n).length ∧ frameEt (frameE.take n) = 0x0800#16 ∧
      frameDst (frameE.take n) = idleHit.params.myIp ∧ framePr (frameE.take n) = 1#8 ∧
      frameTy (frameE.take n) = 8#8 ∧ (frameE.take n).length < 42) := by decide

theorem witness_UnhandledFramesAreDropped :
    (14 ≤ (frameEthRarp.take 14).length ∧ frameEt (frameEthRarp.take 14) = 0x8035#16) ∧
    (34 ≤ (frameIpNotMine.take 34).length ∧ frameEt (frameIpNotMine.take 34) = 0x0800#16 ∧
      frameDst (frameIpNotMine.take 34) ≠ idleHit.params.myIp) ∧
    (34 ≤ (frameIpOtherProto.take 34).length ∧ frameEt (frameIpOtherProto.take 34) = 0x0800#16 ∧
      frameDst (frameIpOtherProto.take 34) = idleHit.params.myIp ∧ framePr (frameIpOtherProto.take 34) ≠ 1#8) ∧
    (38 ≤ (frameIcmpEchoReply.take 38).length ∧ frameEt (frameIcmpEchoReply.take 38) = 0x0800#16 ∧
      frameDst (frameIcmpEchoReply.take 38) = idleHit.params.myIp ∧ framePr (frameIcmpEchoReply.take 38) = 1#8 ∧
      frameTy (frameIcmpEchoReply.take 38) = 0#8) ∧
    (38 ≤ (frameIcmpDestUnreach.take 38).length ∧ frameEt (frameIcmpDestUnreach.take 38) = 0x0800#16 ∧
      frameDst (frameIcmpDestUnreach.take 38) = idleHit.params.myIp ∧ framePr (frameIcmpDestUnreach.take 38) = 1#8 ∧
      frameTy (frameIcmpDestUnreach.take 38) = 3#8) := by decide

/-- The four ARP classes at their smallest length, 42, and the request at 60, for ArpFramesUpsertTheSender and
ArpRequestIsAnswered; their states are those of witness_CamUniquePrefixMonotone. -/
theorem witness_arp_frames :
    ∀ f ∈ [frameA, frameA.take 42, frameArpReply, frameRarpRequest, frameRarpReply],
      legalLength config.rxBufBytes f ∧ 42 ≤ f.length ∧ frameEt f = 0x0806#16 ∧ frameHw f = 1#16 ∧
      framePt f = 0x0800#16 := by decide

theorem witness_arp_opcodes :
    frameOp (frameA.take 42) = 1#16 ∧ frameOp frameArpReply = 2#16 ∧ frameOp frameRarpRequest = 3#16 ∧
    frameOp frameRarpReply = 4#16 := by decide

theorem witness_EchoRequestIsAnswered :
    (idleHit.phase = .waitRx ∧ idleHit.params.ok ∧ idleComputed.params.ok ∧ idleHit.params.replyCsum = .zero ∧
      idleComputed.params.replyCsum = .computed) ∧
    (∀ f ∈ [frameE, frameE.take 42], legalLength config.rxBufBytes f ∧ 42 ≤ f.length ∧ frameEt f = 0x0800#16 ∧
      frameDst f = config.myIp ∧ framePr f = 1#8 ∧ frameTy f = 8#8) ∧
    camLookup idleHit.cam (rd32 frameE 26) = some 0x020000000001#48 ∧ camLookup idleFull.cam (rd32 frameE 26) = none := by
  decide

theorem witness_EchoReplyChecksumsVerify :
    after (exec (.fEchoRequest frameE) idleHit) State.phase = some .waitTx ∧
    after (exec (.fEchoRequest frameE) idleComputed) State.phase = some .waitTx := by decide

/-- For DispatchIsItsFrameClass, AtMostOneReplyPerFrame and AtMostOneRequiredEventPerFrame. -/
theorem witness_dispatch_completes :
    legalLength idleHit.params.rxBufBytes [0#8] ∧ isNext (exec (.dispatch [0#8]) idleHit) = true ∧
    isNext (exec (.dispatch frameA) idleFull) = true ∧
    after (exec (.dispatch frameE) idleHit) State.phase = some .waitTx := by decide

theorem witness_OtherClassesHaveNoSideEffect :
    isNext (exec (instrOfClass .ethUnknown frameEthUnknown) idleHit) = true ∧
    isNext (exec (instrOfClass .arpReply frameArpReply) idleHit) = true ∧
    isNext (exec (instrOfClass .echoRequest frameE) idleHit) = true := by decide

theorem witness_EthernetDestinationIsNotFiltered :
    frameE.length = (patch frameE 0 (zeros 6)).length ∧ frameE.drop 6 = (patch frameE 0 (zeros 6)).drop 6 ∧
    frameE ≠ patch frameE 0 (zeros 6) := by decide

theorem witness_ArpTargetIsNotChecked :
    frameA.length = (patch frameA 38 (zeros 4)).length ∧ frameA.take 32 = (patch frameA 38 (zeros 4)).take 32 ∧
    frameA.drop 42 = (patch frameA 38 (zeros 4)).drop 42 ∧ frameEt frameA = 0x0806#16 ∧
    frameA ≠ patch frameA 38 (zeros 4) := by decide

theorem witness_TransmitAnswersEndTheWait :
    sending.phase = .waitTx ∧ (given .txOk sending).host = [.txOk] ∧ (given .txErr sending).host = [.txErr] := by decide

theorem witness_ReceiveClosureStopsTheBlock :
    ∀ st ∈ [Stimulus.rxClose, .rxError, .rx []], (given st idleHit).phase = .waitRx ∧ (given st idleHit).host = [st] := by
  decide

theorem witness_StoppedIsTerminal :
    stopped.phase = .stopped ∧ isNext (step (given (.cmd [0x01#8]) stopped)) = true := by decide

theorem witness_NoFrameIsTakenWhileSending :
    sending.phase = .waitTx ∧ isNext (step (given .txErr sending)) = true := by decide

theorem witness_FramesAreAcceptedInWaitRxOnly :
    after (step (given (.rx frameE) idleHit)) State.phase = some .waitTx := by decide

theorem witness_OperationsAreRefusedWhileSending :
    sending.phase = .waitTx ∧ codeOf (.csum []) = some 0x01#8 ∧ codeOf (.dispatch []) = some 0x30#8 ∧
    codeOf (.camUpsert .ethernet 0#32 0#48) = some 0x21#8 := by decide

theorem witness_TestAccessWritesNothing :
    (given (.cmd [0x01#8]) stopped).host = [.cmd [0x01#8]] ∧ isNext (step (given (.cmd [0x01#8]) stopped)) = true := by
  decide

/-- Each status of an operation is returned somewhere. -/
theorem witness_StatusesComeFromTheirOperations :
    after (exec (.echoDec (zeros 3)) idleHit) State.opOut = some [⟨.malformed .echo, .nothing⟩] ∧
    after (exec (.icmpDec [0x01#8, 0#8, 0#8, 0#8]) idleHit) State.opOut =
      some [⟨.unsupported .icmp .icmpType 1#16, .nothing⟩] ∧
    after (exec (.echoEnc ⟨0#16, 0#16⟩ (zeros 3)) idleHit) State.opOut = some [⟨.bufferTooSmall 4, .region (zeros 3) 0⟩] ∧
    after (exec (.camUpsert .ethernet 0#32 0#48) idleFull) State.opOut = some [⟨.cacheFull 0#32, .nothing⟩] ∧
    after (exec (.fArpRequest frameA) idleFull) State.opOut ≠ none := by decide

theorem witness_OverlongFramesAreNotAdmitted :
    config.rxBufBytes < (zeros 61).length ∧ (given (.rx (zeros 61)) idleHit).host = [.rx (zeros 61)] ∧
    idleHit.phase = .waitRx := by decide

theorem witness_SilentHostLeavesNoStep : idleHit.host = [] ∧ sending.host = [] ∧ stopped.host = [] := by decide

theorem witness_WellFormedInstructionsComplete :
    idleHit.phase = .waitRx ∧ classFrames.all (fun i => i.wellFormed idleHit.params) = true ∧
    (Instr.camUpsert .ethernet 0#32 0#48).wellFormed idleHit.params = true := by decide

theorem witness_PureOperationsWriteNothing :
    codeOf (.camLookup 0#32) ≠ none ∧ (∀ f, Instr.camLookup 0#32 ≠ .dispatch f) ∧
    (∀ hw ip m, Instr.camLookup 0#32 ≠ .camUpsert hw ip m) ∧ isNext (exec (.camLookup 0#32) idleHit) = true :=
  ⟨by decide, fun _ h => (nomatch h), fun _ _ _ h => (nomatch h), by decide⟩

theorem witness_DiagnosticsNeverChangeBehaviour :
    idleHit.quiet = { idleHit with draw := 7 }.quiet ∧ idleHit ≠ { idleHit with draw := 7 } := by decide

theorem witness_FreeEntriesAreNeverRead :
    idleHit.AlikeButFreeEntries (idle [peerEntry, ⟨false, 9#16, 9#32, 9#48⟩]) ∧
    idleHit ≠ idle [peerEntry, ⟨false, 9#16, 9#32, 9#48⟩] :=
  ⟨⟨rfl, .cons ⟨rfl, fun _ => rfl⟩ (.cons ⟨rfl, fun h => nomatch h⟩ .nil)⟩, by decide⟩

end Sys2Proof.Tests
end

section
/-! SUPPORT. What keeps the block's invariant (10_state.md R25 to R29): each update a step ends with keeps it, so
every instruction and every step does. -/

namespace Sys2Proof.Machine

open Sys2Proof.Claim

/-- What a frame leaves for the transmit port: a reply, which is not empty and fits the transmit buffer, exactly when
the phase is WAIT_TX (R27, R193, R216). -/
theorem pendingInv_afterFrame {p : Params} {f : Bytes} {reply : Option Bytes} (hf : f.length ≤ p.rxBufBytes)
    (hr : ∀ r, reply = some r → r.length = 60 ∨ (r.length = f.length ∧ 42 ≤ f.length)) :
    PendingInv p (phaseAfter reply) (reply.getD []) := by
  cases reply with
  | none => simp [PendingInv, phaseAfter]
  | some r =>
    have hlen : 0 < r.length ∧ r.length ≤ p.txBufBytes := by
      unfold Params.txBufBytes
      rcases hr r rfl with h | ⟨h, h42⟩ <;> omega
    exact ⟨⟨fun _ => List.ne_nil_of_length_pos hlen.1, fun _ => rfl⟩, hlen.2⟩

/-- The verdict on a frame leaves a CAM that meets the CAM's invariants (R25). -/
theorem VerdictFacts.keeps_camInv {f : Bytes} {cam : List CamEntry} {v : Verdict} (hv : VerdictFacts f cam v) {n : Nat}
    (hc : CamInv n cam) : CamInv n v.cam := by
  obtain ⟨h | ⟨ip, m, h⟩, -⟩ := hv
  · rwa [h]
  · rw [h]
    exact camUpsert_keeps_inv hc ip m

theorem endFrame_keeps_inv {f : Bytes} {s : State} {v : Verdict} (hs : s.Inv) (hp : s.phase = .waitRx)
    (hl : legalLength s.params.rxBufBytes f) (hv : VerdictFacts f s.cam v) : (s.endFrame v).Inv := by
  obtain ⟨hok, hcam, -, htx, hk⟩ := hs
  refine ⟨hok, hv.keeps_camInv hcam, pendingInv_afterFrame hl.2 hv.2, htx, ?_⟩
  have hk' : s.kOut ≤ s.kIn := by simpa [hp] using hk
  simp only [State.endFrame_kOut, State.endFrame_kIn]
  split <;> omega

theorem stop_keeps_inv {s : State} (hs : s.Inv) (hp : s.phase = .waitRx) : s.stop.Inv := by
  obtain ⟨hok, hcam, ⟨hpend, hfit⟩, htx, hk⟩ := hs
  have hempty : s.pendingTx = [] := by simpa [hp] using hpend
  have hk' : s.kOut ≤ s.kIn := by simpa [hp] using hk
  exact ⟨hok, hcam, ⟨by simp [hempty], hfit⟩, htx, by simpa using hk'⟩

/-- TXOK counts the held reply as sent, which the count of accepted frames leaves room for (R29, R195). -/
theorem sent_keeps_inv {s : State} (hs : s.Inv) (hp : s.phase = .waitTx) : s.sent.Inv := by
  obtain ⟨hok, hcam, -, htx, hk⟩ := hs
  have hk' : s.kOut + 1 ≤ s.kIn := by simpa [hp] using hk
  exact ⟨hok, hcam, by simp [PendingInv], by simp [htx], by simpa using hk'⟩

theorem sendFailed_keeps_inv {s : State} (hs : s.Inv) (hp : s.phase = .waitTx) : s.sendFailed.Inv := by
  obtain ⟨hok, hcam, -, htx, hk⟩ := hs
  have hk' : s.kOut + 1 ≤ s.kIn := by simpa [hp] using hk
  exact ⟨hok, hcam, by simp [PendingInv], htx, by simpa using Nat.le_of_succ_le hk'⟩

/-- An upsert of an Ethernet key keeps the invariant of the block: it writes the CAM alone (R150). -/
theorem upserted_keeps_inv {s : State} (hs : s.Inv) (r : OpReturn) (ip : Ip) (m : Mac) :
    State.Inv { returned r s with cam := (camUpsert s.cam 1#16 ip m).2 } := by
  obtain ⟨hok, hcam, hpend, hcount⟩ := hs
  exact ⟨hok, camUpsert_keeps_inv hcam ip m, hpend, hcount⟩

/-- Every instruction keeps the invariant, CAM_UPSERT and DISPATCH too. -/
theorem exec_keeps_inv {i : Instr} {s t : State} (hs : s.Inv) (h : exec i s = .next t) : t.Inv := by
  rcases exec_cases h with ⟨-, -, r, rfl⟩ | ⟨-, hw, ip, m, -, rfl⟩ | ⟨hp, f, v, hl, hv, rfl, -⟩
  · exact hs
  · exact upserted_keeps_inv hs _ ip m
  · exact endFrame_keeps_inv hs hp hl hv

theorem taken_keeps_inv {s : State} (hs : s.Inv) (rest : List Stimulus) : (s.taken rest).Inv := hs

/-- Every step keeps the invariant: an instruction does, and so do the sequencer's three moves. -/
theorem step_keeps_inv {s t : State} (hs : s.Inv) (h : step s = .next t) : t.Inv := by
  obtain ⟨st, rest, -, hc⟩ := step_cases h
  have hs' := taken_keeps_inv hs rest
  rcases hc with ⟨i, -, -, hx⟩ | ⟨hp, -, rfl⟩ | ⟨hp, -, rfl⟩ | ⟨hp, -, rfl⟩
  · exact exec_keeps_inv hs' hx
  · exact stop_keeps_inv hs' hp
  · exact sent_keeps_inv hs' hp
  · exact sendFailed_keeps_inv hs' hp

end Sys2Proof.Machine

open Sys2Proof.Machine

/-- Settles O3: each update that a step can end with keeps the invariant. -/
theorem everyStepKeepsInvariant : Obligations.EveryStepKeepsInvariant :=
  fun _ _ => step_keeps_inv
end

section
/-! SUPPORT. What a stimulus decodes to: a received frame to its class instruction, a command to an operation with
the command's code (30_encoding.md R83, R86). -/

namespace Sys2Proof.Machine

open Sys2Proof.Claim

theorem codeOf_instrOfClass (c : FrameClass) (f : Bytes) : codeOf (instrOfClass c f) = none := by
  cases c <;> rfl

/-- Whatever is decoded has this operation code (R86). -/
def DecodesToCode (c : Byte) (r : Except Reject Instr) : Prop := ∀ i, r = .ok i → codeOf i = some c

theorem decodesToCode_ok {c : Byte} {i : Instr} (h : codeOf i = some c) : DecodesToCode c (.ok i) := by
  rintro j ⟨⟩
  exact h

theorem decodesToCode_error {c : Byte} {r : Reject} : DecodesToCode c (.error r) := nofun

theorem decodesToCode_withOperand {α : Type} {c d : Byte} {o : Option α} {k : α → Instr}
    (h : ∀ x, codeOf (k x) = some c) : DecodesToCode c (withOperand d o k) := by
  intro i hi
  obtain ⟨x, -, rfl⟩ := withOperand_eq_ok hi
  exact h x

/-- One comparison of a command's code with an operation's. -/
theorem decodesToCode_ite {c d : Byte} {x y : Except Reject Instr} (hx : DecodesToCode d x)
    (hy : DecodesToCode c y) : DecodesToCode c (if c = d then x else y) := by
  split
  · subst c
    exact hx
  · exact hy

/-- A command decodes to the operation its first byte is the code of (R86). -/
theorem decodeOperation_decodesToCode (c : Byte) (b : Bytes) : DecodesToCode c (decodeOperation c b) := by
  unfold decodeOperation
  refine decodesToCode_ite (decodesToCode_ok rfl) ?_
  iterate 6
    refine decodesToCode_ite (decodesToCode_ok rfl) ?_
    refine decodesToCode_ite (decodesToCode_withOperand fun _ => rfl) ?_
  iterate 2 refine decodesToCode_ite (decodesToCode_withOperand fun _ => rfl) ?_
  exact decodesToCode_ite (decodesToCode_ok rfl) decodesToCode_error

/-- A frame of a legal length decodes to its class instruction, and no other does (R83, R246). -/
theorem decode_rx_eq_ok {p : Params} {f : Bytes} {i : Instr} (h : decode p (.rx f) = .ok i) :
    legalLength p.rxBufBytes f ∧ i = instrOfClass (classOf p.myIp f) f := by
  rcases ite_cases h with ⟨hl, h⟩ | ⟨-, h⟩
  · exact ⟨hl, (Except.ok.inj h).symm⟩
  · cases h

/-- What decodes is a received frame or a command. -/
theorem decode_cases {p : Params} {st : Stimulus} {i : Instr} (h : decode p st = .ok i) :
    (∃ f, st = .rx f ∧ legalLength p.rxBufBytes f ∧ i = instrOfClass (classOf p.myIp f) f) ∨
    (∃ c b, st = .cmd (c :: b) ∧ codeOf i = some c) := by
  cases st with
  | rx f => exact .inl ⟨f, rfl, decode_rx_eq_ok h⟩
  | cmd b =>
    cases b with
    | nil => cases h
    | cons c b => exact .inr ⟨c, b, rfl, decodeOperation_decodesToCode c b i h⟩
  | rxClose => cases h
  | rxError => cases h
  | txOk => cases h
  | txErr => cases h

/-- An operation the host may issue as a command writes no state (R232, D30). -/
theorem isPure_of_command {i : Instr} (hc : codeOf i ≠ none) (hw : withheldCode i = none) : IsPure i := by
  obtain ⟨hup, hdis⟩ := withheldCode_none_iff.1 hw
  exact ⟨hc, hdis, hup⟩

/-- An operation that writes no state leaves the state `returned` writes out. -/
theorem exec_of_isPure {i : Instr} {s t : State} (hi : IsPure i) (h : exec i s = .next t) :
    s.phase ≠ .waitTx ∧ ∃ r, t = returned r s := by
  obtain ⟨hc, hdis, hup⟩ := hi
  rcases exec_cases h with ⟨-, hp, hr⟩ | ⟨-, hw, ip, m, hi, -⟩ | ⟨-, f, v, -, -, -, hi | ⟨c, hi, -⟩⟩
  · exact ⟨hp, hr⟩
  · exact absurd hi (hup hw ip m)
  · exact absurd hi (hdis f)
  · exact absurd (hi ▸ codeOf_instrOfClass c f) hc

end Sys2Proof.Machine
end

section
/-! SUPPORT. Who writes the CAM (10_state.md R30; 43_arp_cam.md R153): the frame classes with an upsert, and no other
instruction that a step runs. -/

namespace Sys2Proof.Machine

open Sys2Proof.Claim

theorem runClass_next_cam {c : FrameClass} {f : Bytes} {s t : State} {v : Verdict} (h : runClass c f s v = .next t) :
    s.phase = .waitRx ∧ t.cam = v.cam := by
  obtain ⟨hp, -, -, rfl⟩ := runClass_next_iff.1 h
  exact ⟨hp, rfl⟩

/-- A class instruction keeps the CAM, or is one of the four ARP classes and upserts the frame's sender (R175). -/
theorem exec_instrOfClass_cam {c : FrameClass} {f : Bytes} {s t : State}
    (h : exec (instrOfClass c f) s = .next t) :
    t.cam = s.cam ∨
    (s.phase = .waitRx ∧ c ∈ [.arpRequest, .arpReply, .rarpRequest, .rarpReply] ∧
      t.cam = (senderUpsert f s.cam).2) := by
  cases c
  case arpRequest | arpReply | rarpRequest | rarpReply =>
    obtain ⟨hp, hcam⟩ := runClass_next_cam h
    exact .inr ⟨hp, by simp, hcam⟩
  case echoRequest =>
    have hcam := (runClass_next_cam h).2
    left
    split at hcam <;> exact hcam
  all_goals exact .inl (runClass_next_cam h).2

/-- A step keeps the CAM, or takes an ARP frame in WAIT_RX and upserts its sender (R30, R175). -/
theorem step_cam {s t : State} (h : step s = .next t) :
    t.cam = s.cam ∨
    (s.phase = .waitRx ∧ ∃ f rest, s.host = .rx f :: rest ∧
      classOf s.params.myIp f ∈ [.arpRequest, .arpReply, .rarpRequest, .rarpReply] ∧
      t.cam = (senderUpsert f s.cam).2) := by
  obtain ⟨st, rest, hhost, hc⟩ := step_cases h
  rcases hc with ⟨i, hd, hw, hx⟩ | ⟨-, -, rfl⟩ | ⟨-, -, rfl⟩ | ⟨-, -, rfl⟩
  · rcases decode_cases hd with ⟨f, rfl, -, rfl⟩ | ⟨c, b, -, hcode⟩
    · rcases exec_instrOfClass_cam hx with hcam | ⟨hp, hclass, hcam⟩
      · exact .inl hcam
      · exact .inr ⟨hp, f, rest, hhost, hclass, hcam⟩
    · obtain ⟨-, r, rfl⟩ := exec_of_isPure (isPure_of_command (by simp [hcode]) hw) hx
      exact .inl rfl
  · exact .inl rfl
  · exact .inl rfl
  · exact .inl rfl

/-- No step frees an entry or changes a valid entry's key (R25 (I3), R153). -/
theorem step_keeps_keys {s t : State} (h : step s = .next t) {i : Nat} (hi : i < s.cam.length)
    (hv : s.cam[i].valid = true) :
    ∃ hi' : i < t.cam.length, t.cam[i].valid = true ∧ t.cam[i].hwtype = s.cam[i].hwtype ∧
      t.cam[i].ip = s.cam[i].ip := by
  rcases step_cam h with hcam | ⟨-, f, -, -, -, hcam⟩
  · rw [hcam]
    exact ⟨hi, hv, rfl, rfl⟩
  · rw [hcam]
    exact camUpsert_keeps_keys hi hv

/-- Uniqueness for any two different indices, in either order. -/
theorem CamUnique.getElem_ne {cam : List CamEntry} (hu : CamUnique cam) {i j : Nat} (hi : i < cam.length)
    (hj : j < cam.length) (hij : i ≠ j) (hvi : cam[i].valid = true) (hvj : cam[j].valid = true) :
    ¬ (cam[i].hwtype = cam[j].hwtype ∧ cam[i].ip = cam[j].ip) := by
  have hu := List.pairwise_iff_getElem.1 hu
  rcases Nat.lt_or_gt_of_ne hij with hlt | hgt
  · exact hu i j hi hj hlt hvi hvj
  · exact fun ⟨hhw, hip⟩ => hu j i hj hi hgt hvj hvi ⟨hhw.symm, hip.symm⟩

/-- The valid entries are exactly those before the first free one (R25 (I2)). -/
theorem CamPrefix.valid_iff_lt {cam : List CamEntry} (hp : CamPrefix cam) {i : Nat} (hi : i < cam.length) :
    cam[i].valid = true ↔ i < cam.findIdx CamEntry.isFree := by
  constructor
  · intro hv
    by_contra hge
    have hlt : cam.findIdx CamEntry.isFree < cam.length := by omega
    have hfree := isFree_iff.1 (List.findIdx_getElem (w := hlt))
    rcases Nat.lt_or_eq_of_le (Nat.le_of_not_lt hge) with hbefore | heq
    · simp [List.pairwise_iff_getElem.1 hp _ _ hlt hi hbefore hv] at hfree
    · simp [heq, hv] at hfree
  · intro hlt
    simpa [CamEntry.isFree] using List.not_of_lt_findIdx hlt

end Sys2Proof.Machine

open Sys2Proof.Machine

/-- Settles O4: uniqueness and the prefix from the invariant the step keeps, monotonicity from what a step can do to
the CAM. The count is the index of the first free entry. -/
theorem camUniquePrefixMonotone : Obligations.CamUniquePrefixMonotone := by
  intro s t hs hstep
  obtain ⟨-, ⟨hlen, hunique, hprefix, -⟩, -, -⟩ := step_keeps_inv hs hstep
  refine ⟨fun i j hi hj => hunique.getElem_ne hi hj, ?_, fun i hi => step_keeps_keys hstep hi⟩
  exact ⟨t.cam.findIdx CamEntry.isFree, hlen ▸ List.findIdx_le_length, hlen, fun i hi => hprefix.valid_iff_lt hi⟩

/-- Settles O32: of the instructions a step runs, only those of the four ARP classes write the CAM, and they write
what CAM_UPSERT of the frame's sender writes. -/
theorem onlyUpsertWritesCam : Obligations.OnlyUpsertWritesCam := by
  intro s t hstep hchanged
  rcases step_cam hstep with hcam | ⟨hp, f, rest, hhost, hclass, hcam⟩
  · exact absurd hcam hchanged
  · exact ⟨hp, f, rest, hhost, hclass, _, duringDispatch_of_waiting hp _ _, hcam⟩
end

section
open Sys2Proof.Machine

/-- Settles O56: a pure operation that goes on ends in `returned r s`, which writes the operation port's
record, the diagnostic record and the draw count, and none of the fields the statement lists. -/
theorem pureOperationsWriteNothing : Obligations.PureOperationsWriteNothing := by
  intro s t i hcode hdispatch hupsert hexec
  obtain ⟨-, r, rfl⟩ := exec_of_isPure ⟨hcode, hdispatch, hupsert⟩ hexec
  exact ⟨rfl, rfl, rfl, rfl, rfl, rfl, rfl, rfl, r, rfl⟩
end

section
/-! SUPPORT. The encoding (30_encoding.md R83, R86): decoding what was encoded, encoding what was decoded, and the
refusal of a code the table of R86 does not list. -/

namespace Sys2Proof.Machine

open Sys2Proof.Claim

/-! The frame classes: one per received frame of a legal length (R83). -/

@[simp] theorem encode_instrOfClass (c : FrameClass) (f : Bytes) : encode (instrOfClass c f) = .rx f := by
  cases c <;> rfl

theorem wellFormed_instrOfClass_iff {p : Params} {c : FrameClass} {f : Bytes} :
    (instrOfClass c f).wellFormed p = true ↔ wellFormedFrame p c f := by
  cases c <;> exact decide_eq_true_iff

theorem decode_rx_of_legalLength {p : Params} {f : Bytes} (h : legalLength p.rxBufBytes f) :
    decode p (.rx f) = .ok (instrOfClass (classOf p.myIp f) f) := if_pos h

/-- What has no operation code is a frame class's instruction (R83, R86). -/
theorem eq_instrOfClass_of_codeOf_none {i : Instr} (h : codeOf i = none) : ∃ c f, i = instrOfClass c f := by
  cases i with
  | fEthShort f => exact ⟨.ethShort, f, rfl⟩
  | fEthUnknown f => exact ⟨.ethUnknown, f, rfl⟩
  | fEthRarp f => exact ⟨.ethRarp, f, rfl⟩
  | fArpShort f => exact ⟨.arpShort, f, rfl⟩
  | fArpBadHw f => exact ⟨.arpBadHw, f, rfl⟩
  | fArpBadPt f => exact ⟨.arpBadPt, f, rfl⟩
  | fArpBadOp f => exact ⟨.arpBadOp, f, rfl⟩
  | fArpPayloadShort f => exact ⟨.arpPayloadShort, f, rfl⟩
  | fArpRequest f => exact ⟨.arpRequest, f, rfl⟩
  | fArpReply f => exact ⟨.arpReply, f, rfl⟩
  | fRarpRequest f => exact ⟨.rarpRequest, f, rfl⟩
  | fRarpReply f => exact ⟨.rarpReply, f, rfl⟩
  | fIpShort f => exact ⟨.ipShort, f, rfl⟩
  | fIpNotMine f => exact ⟨.ipNotMine, f, rfl⟩
  | fIpOtherProto f => exact ⟨.ipOtherProto, f, rfl⟩
  | fIcmpShort f => exact ⟨.icmpShort, f, rfl⟩
  | fIcmpUnknown f => exact ⟨.icmpUnknown, f, rfl⟩
  | fIcmpEchoReply f => exact ⟨.icmpEchoReply, f, rfl⟩
  | fIcmpDestUnreach f => exact ⟨.icmpDestUnreach, f, rfl⟩
  | fEchoShort f => exact ⟨.echoShort, f, rfl⟩
  | fEchoRequest f => exact ⟨.echoRequest, f, rfl⟩
  | _ => cases h

/-! The operations: one per code of the table of R86. -/

theorem decodeOperation_ethEnc (b : Bytes) :
    decodeOperation opEthEnc b = withOperand opEthEnc (readEthOperand b) fun o => .ethEnc o.1 o.2 := rfl

theorem decodeOperation_arphEnc (b : Bytes) :
    decodeOperation opArphEnc b = withOperand opArphEnc (readArphOperand b) fun o => .arphEnc o.1 o.2 := rfl

theorem decodeOperation_arppEnc (b : Bytes) :
    decodeOperation opArppEnc b = withOperand opArppEnc (readArppOperand b) fun o => .arppEnc o.1 o.2 := rfl

theorem decodeOperation_ip4Enc (b : Bytes) :
    decodeOperation opIp4Enc b = withOperand opIp4Enc (readIp4Operand b) fun o => .ip4Enc o.1 o.2 := rfl

theorem decodeOperation_icmpEnc (b : Bytes) :
    decodeOperation opIcmpEnc b = withOperand opIcmpEnc (readIcmpOperand b) fun o => .icmpEnc o.1 o.2 := rfl

theorem decodeOperation_echoEnc (b : Bytes) :
    decodeOperation opEchoEnc b = withOperand opEchoEnc (readEchoOperand b) fun o => .echoEnc o.1 o.2 := rfl

theorem decodeOperation_camLookup (b : Bytes) :
    decodeOperation opCamLookup b = withOperand opCamLookup (readLookupOperand b) .camLookup := rfl

theorem decodeOperation_camUpsert (b : Bytes) :
    decodeOperation opCamUpsert b =
      withOperand opCamUpsert (readUpsertOperand b) fun o => .camUpsert o.1 o.2.1 o.2.2 := rfl

/-- A code the table of R86 does not list is reserved. -/
theorem decode_cmd_of_reserved {c : Byte} (h : c ∉ operationCodes) (p : Params) (b : Bytes) :
    decode p (.cmd (c :: b)) = .error (.reservedCode c) := by
  simp only [operationCodes, List.mem_cons, List.not_mem_nil, or_false, not_or] at h
  simp only [decode, decodeCmd, decodeOperation, h, if_false]

theorem withOperand_of_read {α : Type} {c : Byte} {o : Option α} {x : α} {k : α → Instr} (h : o = some x) :
    withOperand c o k = .ok (k x) := by
  rw [h]
  rfl

/-- An operation is what its command decodes to, at every operand: each operand is read where it was written. -/
theorem decode_encode_of_codeOf {i : Instr} {c : Byte} (h : codeOf i = some c) (p : Params) :
    decode p (encode i) = .ok i := by
  cases i with
  | csum b => rfl
  | ethDec b => rfl
  | ethEnc hd dst => exact (decodeOperation_ethEnc _).trans (withOperand_of_read (readEthOperand_written hd dst))
  | arphDec b => rfl
  | arphEnc hd dst => exact (decodeOperation_arphEnc _).trans (withOperand_of_read (readArphOperand_written hd dst))
  | arppDec b => rfl
  | arppEnc hd dst => exact (decodeOperation_arppEnc _).trans (withOperand_of_read (readArppOperand_written hd dst))
  | ip4Dec b => rfl
  | ip4Enc hd dst => exact (decodeOperation_ip4Enc _).trans (withOperand_of_read (readIp4Operand_written hd dst))
  | icmpDec b => rfl
  | icmpEnc hd dst => exact (decodeOperation_icmpEnc _).trans (withOperand_of_read (readIcmpOperand_written hd dst))
  | echoDec b => rfl
  | echoEnc hd dst => exact (decodeOperation_echoEnc _).trans (withOperand_of_read (readEchoOperand_written hd dst))
  | camLookup ip => exact (decodeOperation_camLookup _).trans (withOperand_of_read (readLookupOperand_written ip))
  | camUpsert hw ip m =>
    exact (decodeOperation_camUpsert _).trans (withOperand_of_read (readUpsertOperand_written hw ip m))
  | dispatch f => rfl
  | _ => cases h

/-- Decoding what was encoded: a class instruction is its frame's when it is well formed, an operation always. -/
theorem decode_encode {p : Params} {i : Instr} (hwf : i.wellFormed p = true) : decode p (encode i) = .ok i := by
  cases hc : codeOf i with
  | none =>
    obtain ⟨c, f, rfl⟩ := eq_instrOfClass_of_codeOf_none hc
    obtain ⟨hl, rfl⟩ := wellFormed_instrOfClass_iff.1 hwf
    rw [encode_instrOfClass, decode_rx_of_legalLength hl]
  | some c => exact decode_encode_of_codeOf hc p

/-- An operation that was read from its operand bytes encodes to them, if those bytes are what the operands write. -/
theorem encode_of_withOperand {α : Type} {c d : Byte} {b : Bytes} {o : Option α} {k : α → Instr} {i : Instr}
    {operands : α → Bytes} (h : withOperand d o k = .ok i) (hread : ∀ {x}, o = some x → b = operands x)
    (henc : ∀ x, encode (k x) = .cmd (c :: operands x)) : encode i = .cmd (c :: b) := by
  obtain ⟨x, ho, rfl⟩ := withOperand_eq_ok h
  rw [hread ho, henc]

/-- The command an operation was decoded from is its encoding, to the last operand byte. -/
theorem encode_of_decodeOperation {c : Byte} {b : Bytes} {i : Instr} (h : decodeOperation c b = .ok i) :
    encode i = .cmd (c :: b) := by
  have hc := decodeOperation_decodesToCode c b i h
  cases i with
  | csum _ => cases hc; cases h; rfl
  | ethDec _ => cases hc; cases h; rfl
  | ethEnc _ _ => cases hc; exact encode_of_withOperand h readEthOperand_eq fun _ => rfl
  | arphDec _ => cases hc; cases h; rfl
  | arphEnc _ _ => cases hc; exact encode_of_withOperand h readArphOperand_eq fun _ => rfl
  | arppDec _ => cases hc; cases h; rfl
  | arppEnc _ _ => cases hc; exact encode_of_withOperand h readArppOperand_eq fun _ => rfl
  | ip4Dec _ => cases hc; cases h; rfl
  | ip4Enc _ _ => cases hc; exact encode_of_withOperand h readIp4Operand_eq fun _ => rfl
  | icmpDec _ => cases hc; cases h; rfl
  | icmpEnc _ _ => cases hc; exact encode_of_withOperand h readIcmpOperand_eq fun _ => rfl
  | echoDec _ => cases hc; cases h; rfl
  | echoEnc _ _ => cases hc; exact encode_of_withOperand h readEchoOperand_eq fun _ => rfl
  | camLookup _ => cases hc; exact encode_of_withOperand h readLookupOperand_eq fun _ => rfl
  | camUpsert _ _ _ => cases hc; exact encode_of_withOperand h readUpsertOperand_eq fun _ => rfl
  | dispatch _ => cases hc; cases h; rfl
  | _ => cases hc

/-- Encoding what was decoded. -/
theorem encode_of_decode {p : Params} {st : Stimulus} {i : Instr} (h : decode p st = .ok i) : encode i = st := by
  rcases decode_cases h with ⟨f, rfl, -, rfl⟩ | ⟨c, b, rfl, -⟩
  · exact encode_instrOfClass _ f
  · exact encode_of_decodeOperation h

theorem wellFormed_of_decode_rx {p : Params} {f : Bytes} {i : Instr} (h : decode p (.rx f) = .ok i) :
    i.wellFormed p = true := by
  obtain ⟨hl, rfl⟩ := decode_rx_eq_ok h
  exact wellFormed_instrOfClass_iff.2 ⟨hl, rfl⟩

/-- A frame has no other well-formed instruction than that of its class. -/
theorem eq_instrOfClass_of_encode_rx {p : Params} {f : Bytes} {i : Instr} (he : encode i = .rx f)
    (hwf : i.wellFormed p = true) : i = instrOfClass (classOf p.myIp f) f := by
  have hd := decode_encode hwf
  rw [he] at hd
  exact (decode_rx_eq_ok hd).2

/-- An operation's encoding is the command with its code: it decodes to the operation, whose code is then that of
the command. -/
theorem encode_of_codeOf {i : Instr} {c : Byte} (h : codeOf i = some c) : ∃ b, encode i = .cmd (c :: b) := by
  rcases decode_cases (decode_encode_of_codeOf h Config.reference) with ⟨f, -, -, hi⟩ | ⟨d, b, he, hd⟩
  · rw [hi, codeOf_instrOfClass] at h
    cases h
  · cases h.symm.trans hd
    exact ⟨b, he⟩

end Sys2Proof.Machine

open Sys2Proof.Machine

/-- Settles O7: an operation's operands are read where they were written, and a well-formed class instruction is the
one its frame decodes to. -/
theorem decodeInvertsEncode : Obligations.DecodeInvertsEncode :=
  fun _ _ => decode_encode

/-- Settles O8: what is read from operand bytes writes those bytes, and a frame of a legal length is of its class. -/
theorem encodeInvertsDecode : Obligations.EncodeInvertsDecode := by
  intro p st i h
  refine ⟨encode_of_decode h, ?_⟩
  rintro ⟨f, rfl⟩
  exact wellFormed_of_decode_rx h

/-- Settles O10: the instruction of the frame's class, which the frame decodes to and which alone decodes from its
own encoding. -/
theorem exactlyOneClassPerFrame : Obligations.ExactlyOneClassPerFrame := by
  intro p f hl
  have hd := decode_rx_of_legalLength hl
  exact ⟨_, ⟨encode_of_decode hd, wellFormed_of_decode_rx hd⟩,
    fun _ ⟨he, hwf⟩ => eq_instrOfClass_of_encode_rx he hwf⟩

/-- Settles O11: the decoder runs on each of the four words. -/
theorem sampleWordsDecode : Obligations.SampleWordsDecode := by
  unfold Obligations.SampleWordsDecode
  decide
end

section
/-! SUPPORT. How a step runs the instruction of its stimulus (44_dispatch.md R170; 60_exceptions.md R214, R232): what
decodes to an instruction runs in every phase, and so does every command. -/

namespace Sys2Proof.Machine

theorem step_of_host {s : State} {st : Stimulus} {rest : List Stimulus} (h : s.host = st :: rest) :
    step s = onStimulus st (s.taken rest) := by
  rw [step, stepBody, h]

/-- A stimulus that is no answer of a port runs what it decodes to, in every phase. -/
theorem onStimulus_of_no_answer {st : Stimulus} (hrx : receiveStatus st = none) (htx : transmitStatus st = none)
    (s : State) : onStimulus st s = runStimulus st s := by
  unfold onStimulus
  split
  · rw [stepInWaitRx, hrx]
  · rw [stepInWaitTx, htx]
  · rfl

theorem onStimulus_cmd (b : Bytes) (s : State) : onStimulus (.cmd b) s = runStimulus (.cmd b) s :=
  onStimulus_of_no_answer rfl rfl s

/-- A frame is a delivery of at least one byte: an empty one is closure (R246). -/
theorem onStimulus_rx {f : Bytes} (h : 1 ≤ f.length) (s : State) : onStimulus (.rx f) s = runStimulus (.rx f) s := by
  cases f with
  | nil => cases h
  | cons x f => exact onStimulus_of_no_answer rfl rfl s

theorem onStimulus_of_decode {s : State} {st : Stimulus} {i : Instr} (h : decode s.params st = .ok i) :
    onStimulus st s = runFromHost i s := by
  have hrun : runStimulus st s = runFromHost i s := by rw [runStimulus, h]
  rcases decode_cases h with ⟨f, rfl, hl, -⟩ | ⟨c, b, rfl, -⟩
  · rw [onStimulus_rx hl.1, hrun]
  · rw [onStimulus_cmd, hrun]

theorem onStimulus_of_reject {s : State} {b : Bytes} {r : Reject} (h : decode s.params (.cmd b) = .error r) :
    onStimulus (.cmd b) s = .refused (refusalOf r) := by
  rw [onStimulus_cmd, runStimulus, h]

theorem runFromHost_of_exposed {i : Instr} (h : withheldCode i = none) (s : State) : runFromHost i s = exec i s := by
  rw [runFromHost, h]

theorem runFromHost_of_withheld {i : Instr} {c : Byte} (h : withheldCode i = some c) (s : State) :
    runFromHost i s = .refused (.notExposed c) := by
  rw [runFromHost, h]

end Sys2Proof.Machine

open Sys2Proof.Machine

/-- Settles O6: the step takes the stimulus, which decodes under the parameters the taking keeps. -/
theorem stepRunsDecodedInstruction : Obligations.StepRunsDecodedInstruction := by
  intro s st rest i hhost hd
  have hstep : step s = runFromHost i (s.taken rest) :=
    (step_of_host hhost).trans (onStimulus_of_decode (s := s.taken rest) hd)
  refine ⟨fun hup hdis => ?_, ?_, ?_⟩
  · exact hstep.trans (runFromHost_of_exposed (withheldCode_none_iff.2 ⟨hup, hdis⟩) _)
  · rintro hw ip m rfl
    exact hstep.trans (runFromHost_of_withheld rfl _)
  · rintro f rfl
    exact hstep.trans (runFromHost_of_withheld rfl _)

/-- Settles O9: a command decodes to an operation with its code, an operation encodes to a command with its code, and
a code outside the table is no operation's. -/
theorem operationCodesOfTheTable : Obligations.OperationCodesOfTheTable := by
  refine ⟨fun _ c b i => decodeOperation_decodesToCode c b i, fun _ _ => encode_of_codeOf, ?_⟩
  intro s c b rest hhost hc
  exact (step_of_host hhost).trans (onStimulus_of_reject (decode_cmd_of_reserved hc _ b))
end

section
/-! SUPPORT. CSUM's answer and the sums it is stated with (40_checksum.md R100 to R102): the sum by byte position, the
sum in 32 bits, and the sum after a zero field is written. -/

namespace Sys2Proof.Machine

open Sys2Proof.Claim

theorem exec_csum_of_idle {s : State} (h : s.phase ≠ .waitTx) (b : Bytes) :
    exec (.csum b) s = .next (returned ⟨.ok, .checksum (internetChecksum b)⟩ s) :=
  returns_of_idle h opCsum _

/-- What the operation port records tells two returns apart. -/
theorem returned_inj {r r' : OpReturn} {s : State} (h : returned r s = returned r' s) : r = r' := by
  have hout : s.opOut ++ [r] = s.opOut ++ [r'] := congrArg State.opOut h
  simpa using hout

/-- The checksum in a CSUM's answer is that of its operand. -/
theorem eq_internetChecksum_of_exec {s : State} {b : Bytes} {c : Half} (hp : s.phase ≠ .waitTx)
    (h : exec (.csum b) s = .next (returned ⟨.ok, .checksum c⟩ s)) : c = internetChecksum b := by
  rw [exec_csum_of_idle hp] at h
  injection h with hstate
  injection returned_inj hstate with _ hvalue
  injection hvalue with hc
  exact hc.symm

/-! The sum by byte position (R100). -/

/-- Two bytes in front keep the weights of the rest, whose offsets keep their parity. -/
theorem weightedSum_cons_cons (x y : Byte) (t : Bytes) :
    weightedSum (x :: y :: t) = x.toNat * 256 + y.toNat + weightedSum t := by
  have hparity (i : Nat) : (i + 1 + 1) % 2 = i % 2 := by omega
  simp only [weightedSum, List.length_cons, Finset.sum_range_succ', List.getD_cons_succ, List.getD_cons_zero, hparity,
    Nat.zero_mod, Nat.zero_add, Nat.one_mod, if_true, one_ne_zero, if_false]
  ring

theorem wordSum_eq_weightedSum (b : Bytes) : wordSum b = weightedSum b := by
  induction b using wordSum.induct with
  | case1 => rfl
  | case2 x => simp [wordSum, weightedSum, Nat.shiftLeft_eq]
  | case3 x y t ih => rw [wordSum, weightedSum_cons_cons, ih]

/-! The sum in 32 bits (R101). -/

/-- The 32-bit accumulator holds the exact sum modulo 2 ^ 32. -/
theorem wordSum32_toNat (b : Bytes) : (wordSum32 b).toNat = wordSum b % 2 ^ 32 := by
  induction b using wordSum.induct with
  | case1 => rfl
  | case2 x =>
    rw [wordSum32, wordSum, BitVec.toNat_shiftLeft, BitVec.toNat_setWidth, Nat.shiftLeft_eq, Nat.shiftLeft_eq]
    omega
  | case3 x y t ih =>
    have hword : ((x ++ y).setWidth 32).toNat = x.toNat * 256 + y.toNat := by
      rw [BitVec.toNat_setWidth, toNat_append]
      omega
    rw [wordSum32, BitVec.toNat_add, hword, ih, wordSum, Nat.add_mod_mod]

/-- No word is above 0xFFFF, and an odd last byte makes a word of its own. -/
theorem wordSum_le (b : Bytes) : wordSum b ≤ 65535 * ((b.length + 1) / 2) := by
  induction b using wordSum.induct with
  | case1 => simp [wordSum]
  | case2 x =>
    simp only [wordSum, Nat.shiftLeft_eq, List.length_singleton]
    omega
  | case3 x y t ih =>
    simp only [wordSum, List.length_cons]
    omega

/-- Up to 65536 words the exact sum fits 32 bits. -/
theorem wordSum32_toNat_of_length_le {b : Bytes} (h : b.length ≤ 131072) : (wordSum32 b).toNat = wordSum b := by
  have hle := wordSum_le b
  rw [wordSum32_toNat, Nat.mod_eq_of_lt (by omega)]

/-! Writing the checksum into its zero field (R102). -/

/-- The sum of a byte string whose first `o` bytes are whole words, by its parts. -/
theorem wordSum_memWrite_by_parts {b : Bytes} {o : Nat} (heven : o % 2 = 0) (hin : o + 1 < b.length) (v : Half) :
    wordSum (memWrite b o 2 v.toNat) = wordSum (b.take o) + v.toNat + wordSum (b.drop (o + 2)) := by
  have htake : (b.take o).length % 2 = 0 := by
    rw [List.length_take]
    omega
  have hfield : (b.take o ++ be16 v).length % 2 = 0 := by
    rw [List.length_append, be16_length]
    omega
  rw [show memWrite b o 2 v.toNat = b.take o ++ be16 v ++ b.drop (o + 2) from rfl, wordSum_append hfield,
    wordSum_append htake, wordSum_be16]

/-- A field that is zero is what writing zero into it gives. -/
theorem memWrite_zero_of_zero_field {b : Bytes} {o : Nat} (hin : o + 1 < b.length) (h0 : b.getD o 0#8 = 0#8)
    (h1 : b.getD (o + 1) 0#8 = 0#8) : memWrite b o 2 (0#16 : Half).toNat = b := by
  rw [List.getD_eq_getElem _ _ (by omega)] at h0
  rw [List.getD_eq_getElem _ _ hin] at h1
  have hdrop : b.drop o = 0#8 :: 0#8 :: b.drop (o + 2) := by
    rw [List.drop_eq_getElem_cons (by omega), List.drop_eq_getElem_cons hin, h0, h1]
  calc memWrite b o 2 (0#16 : Half).toNat
      = b.take o ++ 0#8 :: 0#8 :: b.drop (o + 2) := List.append_assoc _ _ _
    _ = b := by rw [← hdrop, List.take_append_drop]

/-- Writing a value into a zero field at an even offset adds it to the sum. -/
theorem wordSum_memWrite {b : Bytes} {o : Nat} (heven : o % 2 = 0) (hin : o + 1 < b.length)
    (h0 : b.getD o 0#8 = 0#8) (h1 : b.getD (o + 1) 0#8 = 0#8) (v : Half) :
    wordSum (memWrite b o 2 v.toNat) = wordSum b + v.toNat := by
  have hzero := wordSum_memWrite_by_parts heven hin 0#16
  rw [memWrite_zero_of_zero_field hin h0 h1, BitVec.toNat_ofNat] at hzero
  rw [wordSum_memWrite_by_parts heven hin, hzero]
  omega

/-- A string with its checksum in a zero field at an even offset has the checksum 0x0000 (R102). -/
theorem internetChecksum_memWrite {b : Bytes} {o : Nat} (heven : o % 2 = 0) (hin : o + 1 < b.length)
    (h0 : b.getD o 0#8 = 0#8) (h1 : b.getD (o + 1) 0#8 = 0#8) :
    internetChecksum (memWrite b o 2 (internetChecksum b).toNat) = 0#16 := by
  rw [internetChecksum_eq_zero_iff, wordSum_memWrite heven hin h0 h1]
  exact wordSum_add_checksum b

end Sys2Proof.Machine

open Sys2Proof.Machine

/-- Settles O12: the sum by words is the sum by byte position, and the complement of its fold has a closed form. -/
theorem checksumIsComplementOfFoldedSum : Obligations.ChecksumIsComplementOfFoldedSum := by
  refine ⟨fun b => ⟨b, rfl⟩, fun s b hp => ?_⟩
  rw [exec_csum_of_idle hp, internetChecksum_eq, wordSum_eq_weightedSum]

/-- Settles O13: writing the checksum adds it to the sum, which makes a nonzero multiple of 65535. -/
theorem checksumVerifiesItself : Obligations.ChecksumVerifiesItself := by
  intro s b o c hp heven hin h0 h1 hexec
  rw [eq_internetChecksum_of_exec hp hexec, exec_csum_of_idle hp, internetChecksum_memWrite heven hin h0 h1]

/-- Settles O14: at most 65536 words sum to less than 2 ^ 32, so the 32-bit sum is the exact one. -/
theorem thirtyTwoBitAccumulatorSuffices : Obligations.ThirtyTwoBitAccumulatorSuffices := by
  intro s b hp hlen
  rw [wordSum32_toNat_of_length_le hlen]
  exact exec_csum_of_idle hp b
end

section
/-! SUPPORT. The codec's operations (41_codec_link.md R110 to R118; 42_codec_network.md R130 to R135): the two round
trips of a format from the laws of its byte strings, and the fields a decode reads in bytes that are given one by
one. -/

namespace Sys2Proof.Machine

open Sys2Proof.Claim

/-! Round trips (R118). -/

/-- What the two laws of R118 rest on for a format of S bytes: its header's bytes are S bytes, they decode to the
header whatever follows, and nothing else decodes to it. -/
structure FormatLaws {H : Type} (S : Nat) (decode : Bytes → Decoded H) (bytes : H → Bytes) : Prop where
  bytes_length : ∀ h, (bytes h).length = S
  decode_bytes : ∀ h t, decode (bytes h ++ t) = .ok h t
  eq_of_decode : ∀ {b t h}, decode b = .ok h t → b = bytes h ++ t

theorem ethLaws : FormatLaws 14 decodeEth ethBytes := ⟨ethBytes_length, decodeEth_ethBytes, eq_of_decodeEth⟩
theorem arphLaws : FormatLaws 8 decodeArph arphBytes := ⟨arphBytes_length, decodeArph_arphBytes, eq_of_decodeArph⟩
theorem arppLaws : FormatLaws 20 decodeArpp arppBytes := ⟨arppBytes_length, decodeArpp_arppBytes, eq_of_decodeArpp⟩
theorem ip4Laws : FormatLaws 20 decodeIp4 ip4Bytes := ⟨ip4Bytes_length, decodeIp4_ip4Bytes, eq_of_decodeIp4⟩
theorem icmpLaws : FormatLaws 4 decodeIcmp icmpBytes := ⟨icmpBytes_length, decodeIcmp_icmpBytes, eq_of_decodeIcmp⟩
theorem echoLaws : FormatLaws 4 decodeEcho echoBytes := ⟨echoBytes_length, decodeEcho_echoBytes, eq_of_decodeEcho⟩

/-- A region with room for the header takes it, and keeps its bytes after it (R117). -/
theorem encodeInto_of_room {S : Nat} {dst : Bytes} (h : S ≤ dst.length) (header : Bytes) :
    encodeInto S header dst = ⟨.ok, .region (header ++ dst.drop S) S⟩ :=
  if_neg (Nat.not_lt.2 h)

/-- A decode that returns a header with status OK decoded that header (R116). -/
theorem eq_ok_of_toReturn {H : Type} {value : H → Bytes → OpValue}
    (hvalue : ∀ {h h' t t'}, value h t = value h' t' → h = h' ∧ t = t') {d : Decoded H} {h : H} {t : Bytes}
    (hd : d.toReturn value = ⟨.ok, value h t⟩) : d = .ok h t := by
  cases d with
  | ok h' t' =>
    obtain ⟨rfl, rfl⟩ := hvalue (congrArg OpReturn.value hd)
    rfl
  | malformed l => cases congrArg OpReturn.status hd
  | unsupported l f v => cases congrArg OpReturn.status hd

/-- Both round trips of two operations that return what a lawful format's decode and encode give. -/
theorem FormatLaws.roundTrip {H : Type} {S : Nat} {decode : Bytes → Decoded H} {bytes : H → Bytes}
    (hlaws : FormatLaws S decode bytes) {dec : Bytes → Instr} {enc : H → Bytes → Instr}
    {value : H → Bytes → OpValue} (decCode encCode : Byte)
    (hdec : ∀ b s, exec (dec b) s = returns decCode ((decode b).toReturn value) s)
    (henc : ∀ h dst s, exec (enc h dst) s = returns encCode (encodeInto S (bytes h) dst) s)
    (hvalue : ∀ {h h' t t'}, value h t = value h' t' → h = h' ∧ t = t') : Claim.roundTrip S dec enc value := by
  constructor
  · intro s h dst hp hroom
    refine ⟨bytes h ++ dst.drop S, ?_, ?_⟩
    · rw [henc, returns_of_idle hp, encodeInto_of_room hroom]
    · rw [hdec, returns_of_idle hp, hlaws.decode_bytes, Decoded.toReturn]
  · intro s h b rest hexec
    rw [hdec] at hexec
    obtain ⟨hp, hstate⟩ := returns_next_iff.1 hexec
    obtain rfl := hlaws.eq_of_decode (eq_ok_of_toReturn hvalue (returned_inj hstate).symm)
    have hlen := hlaws.bytes_length h
    refine ⟨(List.drop_left' hlen).symm, ?_⟩
    rw [List.take_left' hlen, henc, returns_of_idle hp, encodeInto_of_room hlen.ge, List.drop_of_length_le hlen.le,
      List.append_nil]

/-! Fields in bytes that are given one by one (R50). -/

@[simp] theorem rd8_cons_zero (x : Byte) (t : Bytes) : rd8 (x :: t) 0 = x := rfl
@[simp] theorem rd8_cons_succ (x : Byte) (t : Bytes) (off : Nat) : rd8 (x :: t) (off + 1) = rd8 t off := rfl

@[simp] theorem rd16_cons_zero (x y : Byte) (t : Bytes) : rd16 (x :: y :: t) 0 = half x y := rd16_of_drop rfl
@[simp] theorem rd16_cons_succ (x : Byte) (t : Bytes) (off : Nat) : rd16 (x :: t) (off + 1) = rd16 t off := rfl

@[simp] theorem rd32_cons_zero (x y z w : Byte) (t : Bytes) : rd32 (x :: y :: z :: w :: t) 0 = addr x y z w :=
  rd32_of_drop rfl
@[simp] theorem rd32_cons_succ (x : Byte) (t : Bytes) (off : Nat) : rd32 (x :: t) (off + 1) = rd32 t off := rfl

@[simp] theorem rd48_cons_zero (x y z u v w : Byte) (t : Bytes) :
    rd48 (x :: y :: z :: u :: v :: w :: t) 0 = mac x y z u v w := rd48_of_drop rfl
@[simp] theorem rd48_cons_succ (x : Byte) (t : Bytes) (off : Nat) : rd48 (x :: t) (off + 1) = rd48 t off := rfl

/-! The bytes of the enumerated fields that have one known value (R79). -/

theorem be16_hwType_wire (t : HwType) : be16 (HwType.wire t) = [0x00#8, 0x01#8] := by
  cases t
  rfl

theorem be16_protoType_wire (t : ProtoType) : be16 (ProtoType.wire t) = [0x08#8, 0x00#8] := by
  cases t
  rfl

end Sys2Proof.Machine

open Sys2Proof Sys2Proof.Machine Sys2Proof.Claim

/-- Settles O27: for each format, decoding its encoded bytes and re-encoding what was decoded are laws of byte strings,
and its two operations return what those give. -/
theorem codecRoundTrips : Obligations.CodecRoundTrips :=
  ⟨ethLaws.roundTrip opEthDec opEthEnc (fun _ _ => rfl) (fun _ _ _ => rfl) OpValue.eth.inj,
    arphLaws.roundTrip opArphDec opArphEnc (fun _ _ => rfl) (fun _ _ _ => rfl) OpValue.arph.inj,
    arppLaws.roundTrip opArppDec opArppEnc (fun _ _ => rfl) (fun _ _ _ => rfl) OpValue.arpp.inj,
    ip4Laws.roundTrip opIp4Dec opIp4Enc (fun _ _ => rfl) (fun _ _ _ => rfl) OpValue.ip4.inj,
    icmpLaws.roundTrip opIcmpDec opIcmpEnc (fun _ _ => rfl) (fun _ _ _ => rfl) OpValue.icmp.inj,
    echoLaws.roundTrip opEchoDec opEchoEnc (fun _ _ => rfl) (fun _ _ _ => rfl) OpValue.echo.inj⟩

/-- Settles O15: the fields are read at their offsets, and the ethertype is one of three codes or reported. -/
theorem ethDecReadsHeader : Obligations.EthDecReadsHeader := by
  refine ⟨fun b => ⟨b, rfl⟩, fun s hp => ⟨fun b hb => ?_, ?_⟩⟩
  · refine (returns_of_idle hp opEthDec _).trans ?_
    rw [decodeEth, if_pos hb, Decoded.toReturn]
  · intro d0 d1 d2 d3 d4 d5 s0 s1 s2 s3 s4 s5 e0 e1 rest
    refine (returns_of_idle hp opEthDec _).trans ?_
    rw [decodeEth, if_neg (by simp), EtherType.ofWire]
    simp only [rd16_cons_succ, rd16_cons_zero, rd48_cons_succ, rd48_cons_zero]
    split_ifs <;> rfl

/-- Settles O16: the enumerated fields are tested in offset order: the hardware type, the protocol type, and only when
both are known the opcode. -/
theorem arphDecReadsHeader : Obligations.ArphDecReadsHeader := by
  refine ⟨fun b => ⟨b, rfl⟩, fun s hp => ⟨fun b hb => ?_, ?_⟩⟩
  · refine (returns_of_idle hp opArphDec _).trans ?_
    rw [decodeArph, if_pos hb, Decoded.toReturn]
  · intro h0 h1 p0 p1 hs ps o0 o1 rest
    refine (returns_of_idle hp opArphDec _).trans ?_
    rw [decodeArph, if_neg (by simp), HwType.ofWire, ProtoType.ofWire, ArpOp.ofWire]
    simp only [rd8_cons_succ, rd8_cons_zero, rd16_cons_succ, rd16_cons_zero]
    by_cases hhw : half h0 h1 = 1#16
    · by_cases hpt : half p0 p1 = 0x0800#16
      · rw [if_pos hhw, if_pos hpt, if_neg (not_not.2 hhw), if_neg (not_not.2 hpt)]
        split_ifs <;> rfl
      · rw [if_pos hhw, if_neg hpt, if_neg (not_not.2 hhw), if_pos hpt]
        rfl
    · rw [if_neg hhw, if_pos hhw]
      rfl

/-- Settles O17: the four addresses are read at their offsets. -/
theorem arppDecReadsPayload : Obligations.ArppDecReadsPayload := by
  refine ⟨fun b => ⟨b, rfl⟩, fun s hp => ⟨fun b hb => ?_, ?_⟩⟩
  · refine (returns_of_idle hp opArppDec _).trans ?_
    rw [decodeArpp, if_pos hb, Decoded.toReturn]
  · intro a0 a1 a2 a3 a4 a5 b0 b1 b2 b3 c0 c1 c2 c3 c4 c5 d0 d1 d2 d3 rest
    refine (returns_of_idle hp opArppDec _).trans ?_
    rw [decodeArpp, if_neg (by simp)]
    simp only [rd32_cons_succ, rd32_cons_zero, rd48_cons_succ, rd48_cons_zero]
    rfl

/-- Settles O21: the bytes of a MAC address are its parts, the most significant first, and each ethertype has its
code. -/
theorem ethEncWritesHeader : Obligations.EthEncWritesHeader := by
  refine ⟨fun h dst => ⟨_, rfl⟩, fun s h dst hp => (returns_of_idle hp opEthEnc _).trans ?_⟩
  rw [encodeInto, ethBytes, be48_eq, be48_eq]
  split
  · rfl
  · cases h.ethertype <;> rfl

/-- Settles O22: the hardware and the protocol type have one code each, and each opcode has its own. -/
theorem arphEncWritesHeader : Obligations.ArphEncWritesHeader := by
  refine ⟨fun h dst => ⟨_, rfl⟩, fun s h dst hp => (returns_of_idle hp opArphEnc _).trans ?_⟩
  rw [encodeInto, arphBytes, be16_hwType_wire, be16_protoType_wire]
  split
  · rfl
  · cases h.opcode <;> rfl

/-- Settles O23: the bytes of an address are its parts, the most significant first. -/
theorem arppEncWritesPayload : Obligations.ArppEncWritesPayload := by
  refine ⟨fun h dst => ⟨_, rfl⟩, fun s h dst hp => (returns_of_idle hp opArppEnc _).trans ?_⟩
  rw [encodeInto, arppBytes, be48_eq, be32_eq, be48_eq, be32_eq]
end

section
/-! SUPPORT. The network layer's decode and encode operations (42_codec_network.md R130 to R135). -/

namespace Sys2Proof.Machine

open Sys2Proof.Claim

/-- A byte reported in a 16-bit field has a zero high byte (R132). -/
theorem half_zero (x : Byte) : half 0#8 x = x.setWidth 16 :=
  (BitVec.setWidth_eq_append (by decide)).symm

end Sys2Proof.Machine

open Sys2Proof Sys2Proof.Machine

/-- Settles O18: the ten fields are read at their offsets, and none of them is tested. -/
theorem ip4DecReadsHeader : Obligations.Ip4DecReadsHeader := by
  refine ⟨fun b => ⟨b, rfl⟩, fun s hp => ⟨fun b hb => ?_, ?_⟩⟩
  · refine (returns_of_idle hp opIp4Dec _).trans ?_
    rw [decodeIp4, if_pos hb, Decoded.toReturn]
  · intro vi tos l0 l1 i0 i1 f0 f1 ttl pr k0 k1 s0 s1 s2 s3 d0 d1 d2 d3 rest
    refine (returns_of_idle hp opIp4Dec _).trans ?_
    rw [decodeIp4, if_neg (by simp)]
    simp only [rd8_cons_succ, rd8_cons_zero, rd16_cons_succ, rd16_cons_zero, rd32_cons_succ, rd32_cons_zero]
    rfl

/-- Settles O19: the type is one of three codes or reported, and the code and the checksum are not tested. -/
theorem icmpDecReadsHeader : Obligations.IcmpDecReadsHeader := by
  refine ⟨fun b => ⟨b, rfl⟩, fun s hp => ⟨fun b hb => ?_, ?_⟩⟩
  · refine (returns_of_idle hp opIcmpDec _).trans ?_
    rw [decodeIcmp, if_pos hb, Decoded.toReturn]
  · intro ty code k0 k1 rest
    refine (returns_of_idle hp opIcmpDec _).trans ?_
    rw [decodeIcmp, if_neg (by simp), half_zero]
    simp only [rd8_cons_succ, rd8_cons_zero, rd16_cons_succ, rd16_cons_zero]
    rw [IcmpType.ofWire]
    split_ifs <;> rfl

/-- Settles O20: the two fields are read at their offsets, and the payload is whatever follows them. -/
theorem echoDecReadsHeader : Obligations.EchoDecReadsHeader := by
  refine ⟨fun b => ⟨b, rfl⟩, fun s hp => ⟨fun b hb => ?_, ?_⟩⟩
  · refine (returns_of_idle hp opEchoDec _).trans ?_
    rw [decodeEcho, if_pos hb, Decoded.toReturn]
  · intro i0 i1 q0 q1 rest
    refine (returns_of_idle hp opEchoDec _).trans ?_
    rw [decodeEcho, if_neg (by simp)]
    simp only [rd16_cons_succ, rd16_cons_zero]
    rfl

/-- Settles O24: the ten fields are written in order, the checksum among them as given. -/
theorem ip4EncWritesHeader : Obligations.Ip4EncWritesHeader := by
  refine ⟨fun h dst => ⟨_, rfl⟩, fun s h dst hp => (returns_of_idle hp opIp4Enc _).trans ?_⟩
  rw [encodeInto, ip4Bytes, be16_eq, be16_eq, be16_eq, be16_eq, be32_eq, be32_eq]

/-- Settles O25: each type has its code, and the checksum is written as given. -/
theorem icmpEncWritesHeader : Obligations.IcmpEncWritesHeader := by
  refine ⟨fun h dst => ⟨_, rfl⟩, fun s h dst hp => (returns_of_idle hp opIcmpEnc _).trans ?_⟩
  rw [encodeInto, icmpBytes, be16_eq]
  split
  · rfl
  · cases h.type <;> rfl

/-- Settles O26: the bytes of each field are its parts, the most significant first. -/
theorem echoEncWritesHeader : Obligations.EchoEncWritesHeader := by
  refine ⟨fun h dst => ⟨_, rfl⟩, fun s h dst hp => (returns_of_idle hp opEchoEnc _).trans ?_⟩
  rw [encodeInto, echoBytes, be16_eq, be16_eq]
end

section
/-! SUPPORT. The ARP CAM's operations (43_arp_cam.md R150 to R155): the key of R150 in the words of its fields, what a
lookup finds before and after an upsert, and runs of upserts. -/

namespace Sys2Proof.Machine

open Sys2Proof.Claim

/-! The refusal of every operation in WAIT_TX (R155, R232). -/

/-- An operation is a test access that writes nothing, or CAM_UPSERT or DISPATCH, each behind its own gate. -/
theorem exec_of_codeOf {i : Instr} {c : Byte} (hc : codeOf i = some c) (s : State) :
    (¬ (c = 0x21#8 ∨ c = 0x30#8) ∧ ∃ r, exec i s = returns c r s) ∨
    (c = 0x21#8 ∧ ∃ t, exec i s = duringDispatch c s t) ∨
    (c = 0x30#8 ∧ ∃ f o, exec i s = acceptFrame f s o) := by
  cases i
  case camUpsert => cases hc; exact .inr (.inl ⟨rfl, _, rfl⟩)
  case dispatch => cases hc; exact .inr (.inr ⟨rfl, _, _, rfl⟩)
  case csum | camLookup | ethDec | ethEnc | arphDec | arphEnc | arppDec | arppEnc | ip4Dec | ip4Enc | icmpDec |
      icmpEnc | echoDec | echoEnc =>
    cases hc
    exact .inl ⟨by decide, _, rfl⟩
  all_goals cases hc

theorem acceptFrame_of_not_waiting {s : State} (h : s.phase ≠ .waitRx) (f : Bytes)
    (o : Host.Outcome State Fault Refusal) : acceptFrame f s o = .refused (.notEnabled 0x30#8) :=
  if_pos h

/-! What a lookup finds (R152). -/

theorem hasIp_eq_false_iff {ip : Ip} {e : CamEntry} : e.hasIp ip = false ↔ (e.valid = true → e.ip ≠ ip) := by
  rw [Bool.eq_false_iff, ne_eq, hasIp_iff, not_and]

theorem hasKey_eq_false_iff {hw : Half} {ip : Ip} {e : CamEntry} :
    e.hasKey hw ip = false ↔ ¬ (e.valid = true ∧ e.hwtype = hw ∧ e.ip = ip) := by
  rw [Bool.eq_false_iff, ne_eq, hasKey_iff]

theorem isFree_eq_false_iff {e : CamEntry} : e.isFree = false ↔ e.valid = true := by
  simp [CamEntry.isFree]

theorem camLookup_of_lowest {cam : List CamEntry} {ip : Ip} {i : Nat}
    (h : LowestIndex (CamEntry.hasIp ip) cam i) : camLookup cam ip = some (cam[i]'h.1).mac := by
  obtain ⟨hi, hhas, hbefore⟩ := h
  have hfind : cam.find? (CamEntry.hasIp ip) = some cam[i] :=
    List.find?_eq_some_iff_getElem.2 ⟨hhas, i, hi, rfl, fun j hj => by simp [hbefore j hj]⟩
  simp [camLookup, hfind]

theorem camLookup_of_absent {cam : List CamEntry} {ip : Ip} (h : ∀ e ∈ cam, e.hasIp ip = false) :
    camLookup cam ip = none := by
  simpa [camLookup] using h

theorem exec_camLookup_of_idle {s : State} (h : s.phase ≠ .waitTx) (ip : Ip) :
    exec (.camLookup ip) s = .next (returned (lookupReturn (camLookup s.cam ip)) s) :=
  returns_of_idle h _ _

/-! CAM_UPSERT as an instruction (R150, R155). -/

/-- The state CAM_UPSERT of an Ethernet key leaves. -/
def State.upserted (ip : Ip) (m : Mac) (s : State) : State :=
  { returned (camUpsert s.cam 1#16 ip m).1 s with cam := (camUpsert s.cam 1#16 ip m).2 }

@[simp] theorem State.upserted_cam (s : State) (ip : Ip) (m : Mac) :
    (s.upserted ip m).cam = (camUpsert s.cam 1#16 ip m).2 := rfl
@[simp] theorem State.upserted_phase (s : State) (ip : Ip) (m : Mac) : (s.upserted ip m).phase = s.phase := rfl
@[simp] theorem State.upserted_opOut (s : State) (ip : Ip) (m : Mac) :
    (s.upserted ip m).opOut = s.opOut ++ [(camUpsert s.cam 1#16 ip m).1] := rfl

theorem State.upserted_of_camUpsert {s : State} {ip : Ip} {m : Mac} {r : OpReturn} {cam : List CamEntry}
    (h : camUpsert s.cam 1#16 ip m = (r, cam)) : s.upserted ip m = { returned r s with cam := cam } := by
  rw [State.upserted, h]

theorem exec_camUpsert_next_iff {s t : State} {ip : Ip} {m : Mac} :
    exec (.camUpsert .ethernet ip m) s = .next t ↔ s.phase = .waitRx ∧ t = s.upserted ip m :=
  duringDispatch_next_iff

theorem exec_camUpsert_of_waiting {s : State} (h : s.phase = .waitRx) (ip : Ip) (m : Mac) :
    exec (.camUpsert .ethernet ip m) s = .next (s.upserted ip m) :=
  exec_camUpsert_next_iff.2 ⟨h, rfl⟩

theorem exec_camUpsert_of_full {s : State} (h : s.phase = .waitRx) {ip : Ip} (m : Mac)
    (hkey : ∀ e ∈ s.cam, e.hasKey 1#16 ip = false) (hfull : ∀ e ∈ s.cam, e.isFree = false) :
    exec (.camUpsert .ethernet ip m) s = .next (returned ⟨.cacheFull ip, .nothing⟩ s) := by
  rw [exec_camUpsert_of_waiting h, State.upserted_of_camUpsert (camUpsert_of_full m hkey hfull)]
  rfl

theorem runAll_cons_next_iff {i : Instr} {is : List Instr} {s t : State} :
    runAll (i :: is) s = .next t ↔ ∃ u, exec i s = .next u ∧ runAll is u = .next t := by
  rw [runAll]
  cases exec i s <;> simp

/-! A lookup after an upsert (R154 (d)). -/

/-- What one entry answers to the lookup of an address. -/
def CamEntry.answer (ip : Ip) (e : CamEntry) : Option Mac := if e.hasIp ip then some e.mac else none

theorem CamEntry.answer_of_ip_ne {ip : Ip} {e : CamEntry} (h : e.ip ≠ ip) : e.answer ip = none := by
  simp [CamEntry.answer, hasIp_iff, h]

theorem CamEntry.answer_of_free {ip : Ip} {e : CamEntry} (h : e.valid = false) : e.answer ip = none := by
  simp [CamEntry.answer, hasIp_iff, h]

/-- A lookup gives the first answer, so it depends on the entries' answers alone. -/
theorem camLookup_eq_firstAnswer (cam : List CamEntry) (ip : Ip) :
    camLookup cam ip = (cam.map (CamEntry.answer ip)).findSome? id := by
  induction cam with
  | nil => rfl
  | cons e cam ih =>
    cases h : e.hasIp ip
    · simpa [camLookup, CamEntry.answer, h] using ih
    · simp [camLookup, CamEntry.answer, h]

/-- An upsert changes no entry's answer for another address. -/
theorem camUpsert_answer_of_ne {cam : List CamEntry} {hw : Half} {ip ip' : Ip} (m : Mac) (hne : ip ≠ ip') {j : Nat}
    (hj : j < (camUpsert cam hw ip m).2.length) (hj' : j < cam.length) :
    (camUpsert cam hw ip m).2[j].answer ip' = cam[j].answer ip' := by
  obtain ⟨_, hsame | ⟨hmac, hkey⟩ | ⟨hnew, ⟨_, hfree, _⟩, _⟩⟩ := camUpsert_getElem hj
  · rw [hsame]
  · have hip : cam[j].ip ≠ ip' := (hasKey_iff.1 hkey).2.2 ▸ hne
    rw [hmac, CamEntry.answer_of_ip_ne hip, CamEntry.answer_of_ip_ne (e := cam[j].setMac m) hip]
  · rw [hnew, CamEntry.answer_of_ip_ne hne, CamEntry.answer_of_free (isFree_iff.1 hfree)]

theorem camLookup_camUpsert_of_ne {ip ip' : Ip} (hne : ip ≠ ip') (cam : List CamEntry) (hw : Half) (m : Mac) :
    camLookup (camUpsert cam hw ip m).2 ip' = camLookup cam ip' := by
  rw [camLookup_eq_firstAnswer, camLookup_eq_firstAnswer]
  congr 1
  refine List.ext_getElem (by simp) fun j hj hj' => ?_
  simpa using camUpsert_answer_of_ne m hne (by simpa using hj) (by simpa using hj')

/-- Where every valid entry is Ethernet, an entry holds the Ethernet key exactly when it holds the address. -/
theorem CamEthernet.hasIp_eq_hasKey {cam : List CamEntry} (he : CamEthernet cam) {e : CamEntry} (hmem : e ∈ cam)
    (ip : Ip) : e.hasIp ip = e.hasKey 1#16 ip := by
  rw [Bool.eq_iff_iff, hasIp_iff, hasKey_iff]
  exact ⟨fun ⟨hv, hip⟩ => ⟨hv, he e hmem hv, hip⟩, fun ⟨hv, _, hip⟩ => ⟨hv, hip⟩⟩

/-- An upsert that answers OK has put the MAC at the lowest entry that holds the address. -/
theorem camLookup_camUpsert_of_ok {cam : List CamEntry} (he : CamEthernet cam) {ip : Ip} {m : Mac}
    (hok : (camUpsert cam 1#16 ip m).1.status = .ok) : camLookup (camUpsert cam 1#16 ip m).2 ip = some m := by
  rcases camUpsert_cases cam 1#16 ip m with ⟨i, ⟨hi, hkey, hbefore⟩, h⟩ | ⟨i, hkey, ⟨hi, -, -⟩, h⟩ | ⟨-, -, h⟩
  · have hlow : LowestIndex (CamEntry.hasIp ip) (cam.modify i (CamEntry.setMac m)) i := by
      refine ⟨by simpa using hi, ?_, fun j hj => ?_⟩
      · simpa [hasIp_iff] using (he.hasIp_eq_hasKey (List.getElem_mem hi) ip).trans hkey
      · simpa [hj.ne'] using (he.hasIp_eq_hasKey (List.getElem_mem (hj.trans hi)) ip).trans (hbefore j hj)
    rw [h, camLookup_of_lowest hlow]
    simp
  · have hlow : LowestIndex (CamEntry.hasIp ip) (cam.set i ⟨true, 1#16, ip, m⟩) i := by
      refine ⟨by simpa using hi, by simp [hasIp_iff], fun j hj => ?_⟩
      have hmem := List.getElem_mem (hj.trans hi)
      simpa [hj.ne'] using (he.hasIp_eq_hasKey hmem ip).trans (hkey _ hmem)
    rw [h, camLookup_of_lowest hlow]
    simp
  · simp [h] at hok

/-- The lookup of an address after one upsert: the new MAC if the upsert was of that address and answered OK. -/
theorem camLookup_camUpsert {cam : List CamEntry} (he : CamEthernet cam) (ip ip' : Ip) (m : Mac) :
    camLookup (camUpsert cam 1#16 ip m).2 ip' =
      if ip = ip' ∧ (camUpsert cam 1#16 ip m).1.status = .ok then some m else camLookup cam ip' := by
  by_cases hip : ip = ip'
  · subst hip
    by_cases hok : (camUpsert cam 1#16 ip m).1.status = .ok
    · rw [if_pos ⟨rfl, hok⟩, camLookup_camUpsert_of_ok he hok]
    · rw [if_neg fun h => hok h.2]
      rcases camUpsert_cases cam 1#16 ip m with ⟨i, -, h⟩ | ⟨i, -, -, h⟩ | ⟨-, -, h⟩
      · simp [h] at hok
      · simp [h] at hok
      · rw [h]
  · rw [if_neg fun h => hip h.1, camLookup_camUpsert_of_ne hip]

/-! Filling an empty CAM (R154 (a) to (c)). -/

/-- The entry an upsert of a key that is not held makes. -/
def entryOf (k : Ip × Mac) : CamEntry := ⟨true, 1#16, k.1, k.2⟩

theorem hasKey_entryOf {ip : Ip} {k : Ip × Mac} : (entryOf k).hasKey 1#16 ip = true ↔ k.1 = ip := by
  simp [entryOf, hasKey_iff]

/-- The CAM holds exactly these keys, in index order, and every entry after them is free. -/
def Filled (ks : List (Ip × Mac)) (free cam : List CamEntry) : Prop :=
  cam = ks.map entryOf ++ free ∧ ∀ e ∈ free, e.valid = false

theorem Filled.no_key {ks : List (Ip × Mac)} {free cam : List CamEntry} (h : Filled ks free cam) {ip : Ip}
    (hip : ip ∉ ks.map Prod.fst) : ∀ e ∈ cam, e.hasKey 1#16 ip = false := by
  obtain ⟨rfl, hfree⟩ := h
  intro e he
  rcases List.mem_append.1 he with he | he
  · obtain ⟨k, hk, rfl⟩ := List.mem_map.1 he
    rw [Bool.eq_false_iff, ne_eq, hasKey_entryOf]
    exact fun hk' => hip (hk' ▸ List.mem_map_of_mem hk)
  · exact hasKey_eq_false_iff.2 fun hkey => by simp [hfree e he] at hkey

/-- A new key goes to the first free entry, the one after the keys held (R150). -/
theorem Filled.camUpsert_new {ks : List (Ip × Mac)} {e : CamEntry} {free cam : List CamEntry}
    (h : Filled ks (e :: free) cam) {k : Ip × Mac} (hk : k.1 ∉ ks.map Prod.fst) :
    (camUpsert cam 1#16 k.1 k.2).1 = ⟨.ok, .inserted ks.length⟩ ∧
      Filled (ks ++ [k]) free (camUpsert cam 1#16 k.1 k.2).2 := by
  have hno := h.no_key hk
  obtain ⟨rfl, hfree⟩ := h
  have hlow : LowestIndex CamEntry.isFree (ks.map entryOf ++ e :: free) ks.length := by
    refine ⟨by simp, by simp [isFree_iff, hfree e], fun j hj => ?_⟩
    simp [isFree_eq_false_iff, hj, entryOf]
  rw [camUpsert_of_free k.2 hno hlow]
  exact ⟨rfl, by simp [entryOf], fun e' he' => hfree e' (List.mem_cons_of_mem e he')⟩

/-- With no free entry left, every entry is valid. -/
theorem Filled.full {ks : List (Ip × Mac)} {cam : List CamEntry} (h : Filled ks [] cam) :
    ∀ e ∈ cam, e.isFree = false := by
  obtain ⟨rfl, -⟩ := h
  intro e he
  rw [List.append_nil] at he
  obtain ⟨k, -, rfl⟩ := List.mem_map.1 he
  rfl

/-- A key that is held is found at its own index, and only its MAC changes (R150). -/
theorem Filled.camUpsert_held {ks : List (Ip × Mac)} {free cam : List CamEntry} (h : Filled ks free cam)
    (hnodup : (ks.map Prod.fst).Nodup) {i : Nat} (hi : i < ks.length) (m : Mac) :
    camUpsert cam 1#16 ks[i].1 m = (⟨.ok, .updated i⟩, cam.modify i (CamEntry.setMac m)) := by
  obtain ⟨rfl, -⟩ := h
  refine camUpsert_of_key m ⟨by simp; omega, ?_, fun j hj => ?_⟩
  · simp [hi, hasKey_entryOf]
  · have hj' : j < ks.length := hj.trans hi
    have hne : ks[j].1 ≠ ks[i].1 := List.pairwise_iff_getElem.1 (List.pairwise_map.1 hnodup) j i hj' hi hj
    simpa [List.getElem_append_left, hj', hasKey_entryOf] using
      Bool.eq_false_iff.2 (hasKey_entryOf.not.2 hne)

theorem Filled.countP_valid {ks : List (Ip × Mac)} {free cam : List CamEntry} (h : Filled ks free cam) :
    cam.countP (fun e => e.valid) = ks.length := by
  obtain ⟨rfl, hfree⟩ := h
  have hkeys : (ks.map entryOf).countP (fun e => e.valid) = (ks.map entryOf).length :=
    List.countP_eq_length.2 fun e he => by
      obtain ⟨k, -, rfl⟩ := List.mem_map.1 he
      rfl
  have hrest : free.countP (fun e => e.valid) = 0 := List.countP_eq_zero.2 fun e he => by simp [hfree e he]
  rw [List.countP_append, hkeys, hrest, List.length_map, Nat.add_zero]

/-- Changing a MAC changes no valid bit. -/
theorem countP_valid_modify_setMac (cam : List CamEntry) (i : Nat) (m : Mac) :
    (cam.modify i (CamEntry.setMac m)).countP (fun e => e.valid) = cam.countP (fun e => e.valid) := by
  have hvalid : (cam.modify i (CamEntry.setMac m)).map CamEntry.valid = cam.map CamEntry.valid := by
    refine List.ext_getElem (by simp) fun j _ _ => ?_
    simp only [List.getElem_map, List.getElem_modify]
    split <;> rfl
  simpa [List.countP_map, Function.comp_def] using congrArg (List.countP id) hvalid

/-- A run of upserts of new keys fills the entries after the keys held, one by one. -/
theorem runAll_upserts_of_filled {ks done : List (Ip × Mac)} {free : List CamEntry} {s : State}
    (hp : s.phase = .waitRx) (hs : Filled done free s.cam) (hnodup : ((done ++ ks).map Prod.fst).Nodup)
    (hroom : ks.length ≤ free.length) :
    ∃ t, runAll (ks.map fun k => .camUpsert .ethernet k.1 k.2) s = .next t ∧ t.phase = .waitRx ∧
      t.opOut = s.opOut ++ (List.range' done.length ks.length).map (fun i => ⟨.ok, .inserted i⟩) ∧
      Filled (done ++ ks) (free.drop ks.length) t.cam := by
  induction ks generalizing done free s with
  | nil => exact ⟨s, rfl, hp, by simp, by simpa using hs⟩
  | cons k ks ih =>
    cases free with
    | nil => simp at hroom
    | cons e free =>
      rw [List.append_cons] at hnodup
      have hnew : k.1 ∉ done.map Prod.fst := by
        rw [List.map_append, List.map_append, List.append_assoc] at hnodup
        obtain ⟨-, -, hdisjoint⟩ := List.nodup_append.1 hnodup
        exact fun hmem => hdisjoint _ hmem k.1 (by simp) rfl
      obtain ⟨hret, hcam⟩ := hs.camUpsert_new hnew
      obtain ⟨t, hrun, htp, hout, htcam⟩ :=
        ih (s := s.upserted k.1 k.2) hp hcam hnodup (Nat.le_of_succ_le_succ hroom)
      refine ⟨t, runAll_cons_next_iff.2 ⟨_, exec_camUpsert_of_waiting hp _ _, hrun⟩, htp, ?_, ?_⟩
      · simp [hout, hret, List.range'_succ]
      · simpa using htcam

end Sys2Proof.Machine

open Sys2Proof Sys2Proof.Machine Sys2Proof.Claim

/-- Settles O50: a test access, CAM_UPSERT and DISPATCH are each refused by their own gate. -/
theorem operationsAreRefusedWhileSending : Obligations.OperationsAreRefusedWhileSending := by
  intro s i c hp hc
  have hwait : s.phase ≠ .waitRx := by simp [hp]
  rcases exec_of_codeOf hc s with ⟨hno, r, h⟩ | ⟨rfl, t, h⟩ | ⟨rfl, f, o, h⟩
  · rw [h, if_neg hno]
    exact testAccess_of_sending hp c _
  · rw [h, duringDispatch_of_not_waiting hwait, if_pos (.inl rfl)]
  · rw [h, acceptFrame_of_not_waiting hwait, if_pos (.inr rfl)]

/-- Settles O28: the entry found is the lowest that holds the address. -/
theorem lookupFindsLowestValidEntry : Obligations.LookupFindsLowestValidEntry := by
  refine ⟨fun ip => ⟨_, rfl⟩, fun s ip hp => ⟨fun i hi hv hip hbefore => ?_, fun habsent => ?_⟩⟩
  · have hlow : LowestIndex (CamEntry.hasIp ip) s.cam i :=
      ⟨hi, hasIp_iff.2 ⟨hv, hip⟩, fun j hj => hasIp_eq_false_iff.2 (hbefore j hj)⟩
    rw [exec_camLookup_of_idle hp, camLookup_of_lowest hlow]
    rfl
  · rw [exec_camLookup_of_idle hp, camLookup_of_absent fun e he => hasIp_eq_false_iff.2 (habsent e he)]
    rfl

/-- Settles O29: the three cases of the upsert, each from the index it writes at. -/
theorem upsertUpdatesInsertsOrRejects : Obligations.UpsertUpdatesInsertsOrRejects := by
  refine ⟨fun ip m => ⟨_, rfl⟩, fun s ip m hp => duringDispatch_of_not_waiting hp _ _,
    fun s ip m hp => ⟨fun i hi hv hhw hip hbefore => ?_, fun habsent => ⟨fun i hi hv hbefore => ?_, fun hfull => ?_⟩⟩⟩
  · have hlow : LowestIndex (CamEntry.hasKey 1#16 ip) s.cam i :=
      ⟨hi, hasKey_iff.2 ⟨hv, hhw, hip⟩, fun j hj => hasKey_eq_false_iff.2 (hbefore j hj)⟩
    rw [exec_camUpsert_of_waiting hp, State.upserted_of_camUpsert (camUpsert_of_key m hlow),
      List.modify_eq_set_get _ hi]
    rfl
  · have hlow : LowestIndex CamEntry.isFree s.cam i :=
      ⟨hi, isFree_iff.2 hv, fun j hj => isFree_eq_false_iff.2 (hbefore j hj)⟩
    have hno := fun e he => hasKey_eq_false_iff.2 (habsent e he)
    rw [exec_camUpsert_of_waiting hp, State.upserted_of_camUpsert (camUpsert_of_free m hno hlow)]
  · exact exec_camUpsert_of_full hp m (fun e he => hasKey_eq_false_iff.2 (habsent e he))
      fun e he => isFree_eq_false_iff.2 (hfull e he)

/-- Settles O30: after the run the CAM holds the keys in index order; what a further upsert answers depends on whether
its key is among them. -/
theorem camHoldsExactlyItsCapacity : Obligations.CamHoldsExactlyItsCapacity := by
  intro s ks hp hempty hnodup hroom
  obtain ⟨t, hrun, htp, hout, hfilled⟩ :=
    runAll_upserts_of_filled (done := []) hp ⟨rfl, hempty⟩ hnodup hroom
  rw [List.nil_append] at hfilled
  refine ⟨t, hrun, by simpa [List.range_eq_range'] using hout, fun ip m hcap hip => ?_, fun i hi m => ?_⟩
  · rw [hcap, List.drop_length] at hfilled
    exact exec_camUpsert_of_full htp m (hfilled.no_key hip) hfilled.full
  · have hheld := hfilled.camUpsert_held hnodup hi m
    refine ⟨_, exec_camUpsert_of_waiting htp _ _, by simp [hheld], ?_⟩
    rw [State.upserted_cam, hheld, countP_valid_modify_setMac, hfilled.countP_valid]

/-- Settles O31: by induction on the run, one upsert at a time; the invariant keeps every valid entry Ethernet, so the
address alone is the key. -/
theorem lookupGivesLatestUpsert : Obligations.LookupGivesLatestUpsert := by
  intro s t ks ip hs hrun
  induction ks generalizing s with
  | nil =>
    cases hrun
    exact ⟨[], by simp, rfl, rfl⟩
  | cons k ks ih =>
    obtain ⟨u, hexec, hrest⟩ := runAll_cons_next_iff.1 hrun
    obtain ⟨-, rfl⟩ := exec_camUpsert_next_iff.1 hexec
    obtain ⟨rs, hout, hlen, hlookup⟩ := ih _ (exec_keeps_inv hs hexec) hrest
    obtain ⟨-, ⟨-, -, -, he⟩, -, -⟩ := hs
    refine ⟨(camUpsert s.cam 1#16 k.1 k.2).1 :: rs, by simp [hout], by simp [hlen], ?_⟩
    rw [hlookup, State.upserted_cam, camLookup_camUpsert he, List.zip_cons_cons, List.foldl_cons]
end

section
/-! SUPPORT. The dispatch step by frame class (44_dispatch.md R170 to R192, R200): the verdict each row of R83 gives,
the conditions under which a frame is of a row, and DISPATCH as the verdict of the frame's class. -/

namespace Sys2Proof.Machine

open Sys2Proof.Claim

/-- What the row of each class decides about a frame (R83, R171 to R191): what its class instruction ends with. -/
def classVerdict (p : Params) (cam : List CamEntry) (f : Bytes) : FrameClass → Verdict
  | .ethShort => abandonFrame (.malformed .eth) cam
  | .ethUnknown => abandonFrame (.unsupported .eth .ethertype (frameEt f)) cam
  | .ethRarp => ⟨none, [.dropEthertype 0x8035#16], cam⟩
  | .arpShort => abandonFrame (.malformed .arpHeader) cam
  | .arpBadHw => abandonFrame (.unsupported .arpHeader .hwtype (frameHw f)) cam
  | .arpBadPt => abandonFrame (.unsupported .arpHeader .protype (framePt f)) cam
  | .arpBadOp => abandonFrame (.unsupported .arpHeader .opcode (frameOp f)) cam
  | .arpPayloadShort => abandonFrame (.malformed .arpPayload) cam
  | .arpRequest => ⟨some (arpReplyLayout p f), upsertDiags (senderUpsert f cam).1, (senderUpsert f cam).2⟩
  | .arpReply => ⟨none, upsertDiags (senderUpsert f cam).1, (senderUpsert f cam).2⟩
  | .rarpRequest => ⟨none, upsertDiags (senderUpsert f cam).1, (senderUpsert f cam).2⟩
  | .rarpReply => ⟨none, upsertDiags (senderUpsert f cam).1, (senderUpsert f cam).2⟩
  | .ipShort => abandonFrame (.malformed .ipv4) cam
  | .ipNotMine => dropFrame cam
  | .ipOtherProto => dropFrame cam
  | .icmpShort => abandonFrame (.malformed .icmp) cam
  | .icmpUnknown => abandonFrame (.unsupported .icmp .icmpType ((frameTy f).setWidth 16)) cam
  | .icmpEchoReply => dropFrame cam
  | .icmpDestUnreach => dropFrame cam
  | .echoShort => abandonFrame (.malformed .echo) cam
  | .echoRequest => ⟨(camLookup cam (rd32 f 26)).map fun peer => echoReplyLayout p peer f, [], cam⟩

theorem exec_instrOfClass (c : FrameClass) (f : Bytes) (s : State) :
    exec (instrOfClass c f) s = runClass c f s (classVerdict s.params s.cam f c) := by
  cases c
  case echoRequest =>
    show runClass _ _ _ _ = _
    rw [classVerdict]
    cases camLookup s.cam (rd32 f 26) <;> rfl
  all_goals rfl

/-- In WAIT_RX a class instruction ends a legal frame of its class with the class's verdict. -/
theorem exec_instrOfClass_of_class {c : FrameClass} {f : Bytes} {s : State} (hp : s.phase = .waitRx)
    (hl : legalLength s.params.rxBufBytes f) (hc : classOf s.params.myIp f = c) :
    exec (instrOfClass c f) s = .next (s.endFrame (classVerdict s.params s.cam f c)) := by
  rw [exec_instrOfClass, runClass_of_class hp hl hc]

/-- Two classes have a reply to send, the second only to a peer the CAM holds (R176, R189, R198). -/
theorem classVerdict_reply_cases (p : Params) (cam : List CamEntry) (f : Bytes) (c : FrameClass) :
    (classVerdict p cam f c).reply = none ∨
    (c = .arpRequest ∧ (classVerdict p cam f c).reply = some (arpReplyLayout p f)) ∨
    (c = .echoRequest ∧ ∃ peer, (classVerdict p cam f c).reply = some (echoReplyLayout p peer f)) := by
  cases c
  case arpRequest => exact .inr (.inl ⟨rfl, rfl⟩)
  case echoRequest =>
    rw [classVerdict]
    cases camLookup cam (rd32 f 26) with
    | none => exact .inl rfl
    | some peer => exact .inr (.inr ⟨rfl, peer, rfl⟩)
  all_goals exact .inl rfl

/-! Which rows a frame can be of, by its ethertype (R83). -/

theorem classOf_of_short {ip : Ip} {f : Bytes} (h : f.length < 14) : classOf ip f = .ethShort := if_pos h

theorem classOf_of_unknown {ip : Ip} {f : Bytes} (h : 14 ≤ f.length)
    (het : frameEt f ∉ [0x0800#16, 0x0806#16, 0x8035#16]) : classOf ip f = .ethUnknown := by
  rw [classOf, if_neg (by omega), if_pos (by simpa using het)]

theorem classOf_of_rarp {ip : Ip} {f : Bytes} (h : 14 ≤ f.length) (het : frameEt f = 0x8035#16) :
    classOf ip f = .ethRarp := by
  rw [classOf, if_neg (by omega), if_neg (by simp [het]), if_pos het]

theorem classOf_of_arp {ip : Ip} {f : Bytes} (h : 14 ≤ f.length) (het : frameEt f = 0x0806#16) :
    classOf ip f = classOfArp f := by
  rw [classOf, if_neg (by omega), if_neg (by simp [het]), if_neg (by simp [het]), if_pos het]

theorem classOf_of_ipv4 {ip : Ip} {f : Bytes} (h : 14 ≤ f.length) (het : frameEt f = 0x0800#16) :
    classOf ip f = classOfIpv4 ip f := by
  rw [classOf, if_neg (by omega), if_neg (by simp [het]), if_neg (by simp [het]), if_neg (by simp [het])]

/-- Past the checks of an ARP header's two types, the row turns on the opcode and the length (R83, rows 7 to 12). -/
theorem classOf_of_arpHeader {ip : Ip} {f : Bytes} (h : 22 ≤ f.length) (het : frameEt f = 0x0806#16)
    (hhw : frameHw f = 1#16) (hpt : framePt f = 0x0800#16) :
    classOf ip f =
      if frameOp f ∉ [1#16, 2#16, 3#16, 4#16] then .arpBadOp
      else if f.length < 42 then .arpPayloadShort
      else if frameOp f = 1#16 then .arpRequest
      else if frameOp f = 2#16 then .arpReply
      else if frameOp f = 3#16 then .rarpRequest
      else .rarpReply := by
  rw [classOf_of_arp (by omega) het, classOfArp, if_neg (by omega), if_neg (by simp [hhw]), if_neg (by simp [hpt])]
  simp only [List.mem_cons, List.not_mem_nil, or_false, not_or]

/-- Past the checks of the destination and the protocol, the row turns on the ICMP type and the length (R83, rows 16
to 21). -/
theorem classOf_of_icmp {ip : Ip} {f : Bytes} (h : 34 ≤ f.length) (het : frameEt f = 0x0800#16)
    (hdst : frameDst f = ip) (hpr : framePr f = 1#8) :
    classOf ip f =
      if f.length < 38 then .icmpShort
      else if frameTy f ∉ [0#8, 3#8, 8#8] then .icmpUnknown
      else if frameTy f = 0#8 then .icmpEchoReply
      else if frameTy f = 3#8 then .icmpDestUnreach
      else if f.length < 42 then .echoShort
      else .echoRequest := by
  rw [classOf_of_ipv4 (by omega) het, classOfIpv4, if_neg (by omega), if_neg (by simp [hdst]), if_neg (by simp [hpr])]
  simp only [List.mem_cons, List.not_mem_nil, or_false, not_or]

/-! The layer-by-layer paths of R200 are the rows of R83. -/

theorem EtherType.ofWire_eq_none {v : Half} (h : EtherType.ofWire v = none) :
    v ∉ [0x0800#16, 0x0806#16, 0x8035#16] := by
  unfold EtherType.ofWire at h
  split_ifs at h
  simp [*]

theorem ArpOp.ofWire_eq_none {v : Half} (h : ArpOp.ofWire v = none) :
    v ≠ 1#16 ∧ v ≠ 2#16 ∧ v ≠ 3#16 ∧ v ≠ 4#16 := by
  unfold ArpOp.ofWire at h
  split_ifs at h
  tauto

theorem IcmpType.ofWire_eq_none {v : Byte} (h : IcmpType.ofWire v = none) : v ≠ 0#8 ∧ v ≠ 3#8 ∧ v ≠ 8#8 := by
  unfold IcmpType.ofWire at h
  split_ifs at h
  tauto

/-- The ARP path is rows 4 to 12. -/
theorem dispatchArp_frame (p : Params) (cam : List CamEntry) (f : Bytes) :
    dispatchArp p cam (f.drop 14) = classVerdict p cam f (classOfArp f) := by
  unfold dispatchArp classOfArp
  by_cases h22 : f.length < 22
  · rw [decodeArph, if_pos (by simp; omega), if_pos h22]
    rfl
  rw [decodeArph_frame (by omega), if_neg h22]
  by_cases hhw : frameHw f = 1#16
  case neg => simp [HwType.ofWire, hhw, Decoded.orAbandon, classVerdict]
  by_cases hpt : framePt f = 0x0800#16
  case neg => simp [HwType.ofWire, ProtoType.ofWire, hhw, hpt, Decoded.orAbandon, classVerdict]
  cases hop : ArpOp.ofWire (frameOp f) with
  | none => simp [HwType.ofWire, ProtoType.ofWire, hhw, hpt, ArpOp.ofWire_eq_none hop, Decoded.orAbandon, classVerdict]
  | some op =>
    simp only [HwType.ofWire, ProtoType.ofWire, hhw, hpt, if_true, ne_eq, not_true, if_false,
      ← ArpOp.wire_of_ofWire hop, Decoded.orAbandon]
    by_cases h42 : f.length < 42
    · rw [decodeArpp, if_pos (by simp; omega)]
      cases op <;> simp [h42, ArpOp.wire, classVerdict]
    · rw [decodeArpp_frame (by omega)]
      have hreply := arpReplyOf_frame (f := f) (by omega) p
      cases op <;> simp [h42, ArpOp.wire, HwType.wire, classVerdict, senderUpsert, hreply]

/-- The IPv4 path is rows 13 to 21. -/
theorem dispatchIpv4_frame (p : Params) (cam : List CamEntry) (f : Bytes) :
    dispatchIpv4 p cam (f.drop 14) = classVerdict p cam f (classOfIpv4 p.myIp f) := by
  unfold dispatchIpv4 classOfIpv4 frameDst framePr
  by_cases h34 : f.length < 34
  · rw [decodeIp4, if_pos (by simp; omega), if_pos h34]
    rfl
  rw [decodeIp4_frame (by omega), if_neg h34]
  simp only [Decoded.orAbandon]
  by_cases hdst : rd32 f 30 = p.myIp
  case neg => rw [if_pos hdst, if_pos hdst]; rfl
  by_cases hpr : rd8 f 23 = 1#8
  case neg => rw [if_neg (not_not.2 hdst), if_pos hpr, if_neg (not_not.2 hdst), if_pos hpr]; rfl
  rw [if_neg (not_not.2 hdst), if_neg (not_not.2 hpr), if_neg (not_not.2 hdst), if_neg (not_not.2 hpr)]
  by_cases h38 : f.length < 38
  · rw [decodeIcmp, if_pos (by simp; omega), if_pos h38]
    rfl
  rw [decodeIcmp_frame (by omega), if_neg h38]
  cases hty : IcmpType.ofWire (frameTy f) with
  | none => simp [IcmpType.ofWire_eq_none hty, classVerdict]
  | some ty =>
    simp only [← IcmpType.wire_of_ofWire hty]
    cases ty
    case echoReply => simp [IcmpType.wire, classVerdict]
    case destinationUnreachable => simp [IcmpType.wire, classVerdict]
    by_cases h42 : f.length < 42
    · rw [decodeEcho, if_pos (by simp; omega)]
      simp [h42, IcmpType.wire, classVerdict]
    · have hreply := echoReplyOf_frame (f := f) (by omega) p
      rw [decodeEcho_frame (by omega)]
      cases hlook : camLookup cam (rd32 f 26) <;>
        simp [h42, IcmpType.wire, classVerdict, echoVerdict, hlook, hreply, dropFrame]

/-- DISPATCH decides about a frame what the row of the frame's class decides (R83, R200). -/
theorem dispatchFrame_eq_classVerdict (p : Params) (cam : List CamEntry) (f : Bytes) :
    dispatchFrame p cam f = classVerdict p cam f (classOf p.myIp f) := by
  unfold dispatchFrame
  by_cases h14 : f.length < 14
  · rw [decodeEth, if_pos h14, classOf_of_short h14]
    rfl
  rw [decodeEth_frame (by omega)]
  cases het : EtherType.ofWire (frameEt f) with
  | none =>
    rw [classOf_of_unknown (by omega) (EtherType.ofWire_eq_none het)]
    rfl
  | some t =>
    have hwire := (EtherType.wire_of_ofWire het).symm
    cases t with
    | ipv4 => rw [classOf_of_ipv4 (by omega) hwire, ← dispatchIpv4_frame]; rfl
    | arp => rw [classOf_of_arp (by omega) hwire, ← dispatchArp_frame]; rfl
    | rarp => rw [classOf_of_rarp (by omega) hwire]; rfl

/-- What a DISPATCH that goes on leaves (R170, R193, R200). -/
theorem exec_dispatch_next_iff {f : Bytes} {s t : State} :
    exec (.dispatch f) s = .next t ↔ s.phase = .waitRx ∧ legalLength s.params.rxBufBytes f ∧
      t = s.endFrame (classVerdict s.params s.cam f (classOf s.params.myIp f)) := by
  show acceptFrame _ _ _ = _ ↔ _
  rw [acceptFrame_next_iff, dispatchFrame_eq_classVerdict]
  simp [eq_comm]

end Sys2Proof.Machine

open Sys2Proof Sys2Proof.Machine

/-- Settles O39: both end the frame with the verdict of its class. -/
theorem dispatchIsItsFrameClass : Obligations.DispatchIsItsFrameClass := by
  intro s f hp hl
  exact ⟨_, exec_dispatch_next_iff.2 ⟨hp, hl, rfl⟩, exec_instrOfClass_of_class hp hl rfl⟩

/-- Settles O40: a reply is one of the two layouts, and each has its length and fits (R27, R216). -/
theorem atMostOneReplyPerFrame : Obligations.AtMostOneReplyPerFrame := by
  intro s t f hexec
  obtain ⟨hp, hl, rfl⟩ := exec_dispatch_next_iff.1 hexec
  have hfacts := dispatchFrame_facts s.params s.cam f
  rw [dispatchFrame_eq_classVerdict] at hfacts
  obtain ⟨hiff, hfit⟩ := pendingInv_afterFrame hl.2 hfacts.2
  refine ⟨hiff, fun hsend => ?_, fun hreq => by simp [hreq, classVerdict, phaseAfter], hfit, rfl⟩
  rcases classVerdict_reply_cases s.params s.cam f (classOf s.params.myIp f) with hr | ⟨hc, hr⟩ | ⟨hc, peer, hr⟩
  · simp [hr, phaseAfter] at hsend
  · have h42 := (classOf_arp_facts (ip := s.params.myIp) (f := f) (by simp [hc])).1
    exact .inl ⟨hc, by simp [hr, arpReplyLayout_length h42]⟩
  · have h42 := (classOf_echoRequest_facts hc).1
    exact .inr ⟨hc, by simp [hr, echoReplyLayout_length h42]⟩

/-- Settles O41: only the four ARP classes upsert, and of the other classes only the echo request has a reply. -/
theorem otherClassesHaveNoSideEffect : Obligations.OtherClassesHaveNoSideEffect := by
  intro s t c f hexec
  refine ⟨fun hc => ?_, fun hc => ?_⟩
  · rcases exec_instrOfClass_cam hexec with hcam | ⟨-, hmem, -⟩
    · exact hcam
    · exact absurd hmem hc
  · rw [exec_instrOfClass] at hexec
    obtain ⟨-, -, -, rfl⟩ := runClass_next_iff.1 hexec
    rcases classVerdict_reply_cases s.params s.cam f c with hr | ⟨rfl, -⟩ | ⟨rfl, -⟩
    · simp [hr, phaseAfter]
    · simp at hc
    · simp at hc

/-- Settles O33: in each clause the condition is that of the class's row of R83, whose verdict is an abandon. -/
theorem failedDecodesAbandonTheFrame : Obligations.FailedDecodesAbandonTheFrame := by
  intro s f hp hl
  have run (c : FrameClass) := exec_instrOfClass_of_class (c := c) hp hl
  refine ⟨fun h => ?_, fun h het => ?_, fun h het hs => ?_, fun h het hhw => ?_, fun h het hhw hpt => ?_,
    fun h het hhw hpt hop => ?_, fun h het hhw hpt hop hs => ?_, fun h het hs => ?_, fun h het hdst hpr hs => ?_,
    fun h het hdst hpr hty => ?_, fun h het hdst hpr hty hs => ?_⟩
  · exact run .ethShort (classOf_of_short h)
  · exact run .ethUnknown (classOf_of_unknown h het)
  · exact run .arpShort (by rw [classOf_of_arp h het, classOfArp, if_pos hs])
  · exact run .arpBadHw (by rw [classOf_of_arp (by omega) het, classOfArp, if_neg (by omega), if_pos hhw])
  · exact run .arpBadPt (by
      rw [classOf_of_arp (by omega) het, classOfArp, if_neg (by omega), if_neg (not_not.2 hhw), if_pos hpt])
  · exact run .arpBadOp (by rw [classOf_of_arpHeader h het hhw hpt, if_pos hop])
  · exact run .arpPayloadShort (by rw [classOf_of_arpHeader h het hhw hpt, if_neg (not_not.2 hop), if_pos hs])
  · exact run .ipShort (by rw [classOf_of_ipv4 h het, classOfIpv4, if_pos hs])
  · exact run .icmpShort (by rw [classOf_of_icmp h het hdst hpr, if_pos hs])
  · rw [half_zero]
    exact run .icmpUnknown (by rw [classOf_of_icmp (by omega) het hdst hpr, if_neg (by omega), if_pos hty])
  · exact run .echoShort (by
      rw [classOf_of_icmp (by omega) het hdst hpr, if_neg (by omega)]; simp [hty, hs])

/-- Settles O34: in each clause the condition is that of the class's row of R83, whose verdict is a drop. -/
theorem unhandledFramesAreDropped : Obligations.UnhandledFramesAreDropped := by
  intro s f hp hl
  have run (c : FrameClass) := exec_instrOfClass_of_class (c := c) hp hl
  refine ⟨fun h het => ?_, fun h het hdst => ?_, fun h het hdst hpr => ?_, fun h het hdst hpr hty => ?_,
    fun h het hdst hpr hty => ?_⟩
  · exact run .ethRarp (classOf_of_rarp h het)
  · exact run .ipNotMine (by rw [classOf_of_ipv4 (by omega) het, classOfIpv4, if_neg (by omega), if_pos hdst])
  · exact run .ipOtherProto (by
      rw [classOf_of_ipv4 (by omega) het, classOfIpv4, if_neg (by omega), if_neg (not_not.2 hdst), if_pos hpr])
  · exact run .icmpEchoReply (by rw [classOf_of_icmp (by omega) het hdst hpr, if_neg (by omega)]; simp [hty])
  · exact run .icmpDestUnreach (by rw [classOf_of_icmp (by omega) het hdst hpr, if_neg (by omega)]; simp [hty])
end

section
/-! SUPPORT. The two replies byte by byte (44_dispatch.md R178, R190): each layout as a list of parts of known sizes,
what a slice of it is, and the checksums written into it (R186, R188). -/

namespace Sys2Proof.Machine

open Sys2Proof.Claim

/-! Slices of a concatenation of parts. -/

/-- A slice between two boundaries of parts is the parts between them. -/
theorem slice_flatten {parts : List Bytes} {sizes : List Nat} (hsizes : parts.map List.length = sizes) {i j a b : Nat}
    (hij : i ≤ j) (ha : (sizes.take i).sum = a) (hb : (sizes.take j).sum = b) :
    slice parts.flatten a b = ((parts.take j).drop i).flatten := by
  subst hsizes ha hb
  have htake : (parts.map List.length).take i = ((parts.take j).map List.length).take i := by
    rw [List.map_take, List.take_take, Nat.min_eq_left hij]
  rw [slice, ← List.drop_take, List.take_sum_flatten, htake, List.drop_sum_flatten]

/-- From a boundary of parts on stand the parts after it. -/
theorem drop_flatten {parts : List Bytes} {sizes : List Nat} (hsizes : parts.map List.length = sizes) {i a : Nat}
    (ha : (sizes.take i).sum = a) : parts.flatten.drop a = (parts.drop i).flatten := by
  subst hsizes ha
  exact List.drop_sum_flatten parts i

/-- The bytes of one part, at the offset the sizes of the parts before it give. -/
theorem sameBytes_part {parts : List Bytes} {sizes : List Nat} (hsizes : parts.map List.length = sizes) (i : Nat)
    {off j k : Nat} {b : Bytes} (hoff : (sizes.take i).sum = off) (hk : sizes[i]? = some k)
    (hpart : sameBytes (parts.getD i []) 0 b j k) : sameBytes parts.flatten off b j k := by
  obtain ⟨hi, hki⟩ := List.getElem?_eq_some_iff.1 hk
  have hnext : (sizes.take (i + 1)).sum = off + k := by
    rw [List.take_add_one, hk, List.sum_append, hoff]
    simp
  have hslice : slice parts.flatten off (off + k) = parts.getD i [] := by
    have hin : i < parts.length := by rw [← hsizes] at hi; simpa using hi
    rw [slice_flatten hsizes (Nat.le_add_right i 1) hoff hnext, List.drop_take_succ_eq_cons_getElem parts i hin,
      List.getD_eq_getElem _ _ hin, List.flatten_cons, List.flatten_nil, List.append_nil]
  intro n hn
  rw [← hpart n hn, ← hslice, Nat.zero_add, getD_slice (by omega)]

theorem sameBytes_refl (a : Bytes) (k : Nat) : sameBytes a 0 a 0 k := fun _ _ => rfl

theorem sameBytes_slice (f : Bytes) (i k : Nat) : sameBytes (slice f i (i + k)) 0 f i k := by
  intro n hn
  rw [Nat.zero_add, getD_slice (by omega)]

theorem sameBytes_drop (f : Bytes) (i k : Nat) : sameBytes (f.drop i) 0 f i k := by
  intro n _
  simp [List.getD_eq_getElem?_getD]

/-- Past its end a byte string reads as zero (log 14), so these bytes are zero. -/
theorem sameBytes_zeros (m k : Nat) : sameBytes (zeros m) 0 [] 0 k := fun _ _ => getD_zeros _ _

theorem half_eq_of_sameBytes {a : Bytes} {i : Nat} {v : Half} (h : sameBytes a i (be16 v) 0 2) :
    half (a.getD i 0#8) (a.getD (i + 1) 0#8) = v := by
  have h0 := h 0 (by omega)
  rw [Nat.add_zero] at h0
  rw [h0, h 1 (by omega), be16_eq]
  apply BitVec.eq_of_toNat_eq
  rw [half_toNat]
  show val (halfBytes v) = _
  rw [← be16_eq, be16, val_be]
  exact Nat.mod_eq_of_lt v.isLt

theorem slice_append_drop {b : Bytes} {i j : Nat} (h : i ≤ j) : slice b i j ++ b.drop j = b.drop i := by
  rw [slice, show b.drop j = (b.drop i).drop (j - i) by rw [List.drop_drop, Nat.add_sub_cancel' h],
    List.take_append_drop]

/-! The upsert of the sender inside a dispatch step (R151, R175). -/

theorem upsertDiags_camUpsert (cam : List CamEntry) (hw : Half) (ip : Ip) (m : Mac) :
    upsertDiags (camUpsert cam hw ip m).1 =
      if (camUpsert cam hw ip m).1.status = .cacheFull ip then [.cacheFull ip] else [] := by
  rcases camUpsert_cases cam hw ip m with ⟨i, -, h⟩ | ⟨i, -, -, h⟩ | ⟨-, -, h⟩ <;> simp [h, upsertDiags]

/-! The ARP reply (R178). -/

/-- The rows of R178's table, neighbours with one origin taken together. -/
def arpReplyParts (p : Params) (f : Bytes) : List Bytes :=
  [slice f 22 28, be48 p.myMac, [0x08#8, 0x06#8, 0x00#8, 0x01#8, 0x08#8, 0x00#8], slice f 18 20, [0x00#8, 0x02#8],
    be48 p.myMac, be32 p.myIp, slice f 22 32, zeros 18]

theorem arpReplyLayout_eq_flatten (p : Params) (f : Bytes) : arpReplyLayout p f = (arpReplyParts p f).flatten := by
  have hsender : slice f 22 32 = slice f 22 28 ++ slice f 28 32 := (slice_append (by omega) (by omega)).symm
  simp [arpReplyLayout, arpReplyParts, hsender]

theorem arpReplyParts_sizes {f : Bytes} (h : 42 ≤ f.length) (p : Params) :
    (arpReplyParts p f).map List.length = [6, 6, 6, 2, 2, 6, 4, 10, 18] := by
  simp [arpReplyParts, slice_length (show 28 ≤ f.length by omega), slice_length (show 20 ≤ f.length by omega),
    slice_length (show 32 ≤ f.length by omega)]

/-! The echo reply (R190). -/

/-- The rows of R190's table, neighbours with one origin taken together. -/
def echoReplyParts (p : Params) (peer : Mac) (f : Bytes) : List Bytes :=
  [be48 peer, be48 p.myMac, [0x08#8, 0x00#8], slice f 14 16, be16 (BitVec.ofNat 16 (f.length - 14)), slice f 18 24,
    be16 (echoIp4Csum p.replyCsum f), slice f 30 34, slice f 26 30, [0x00#8, 0x00#8],
    be16 (internetChecksum (zeros 4 ++ f.drop 38)), f.drop 38]

theorem echoReplyLayout_eq_flatten (p : Params) (peer : Mac) (f : Bytes) :
    echoReplyLayout p peer f = (echoReplyParts p peer f).flatten := by
  have hmessage : f.drop 38 = slice f 38 42 ++ f.drop 42 := (slice_append_drop (by omega)).symm
  have hlen : be16 (BitVec.ofNat 16 (f.length - 14)) = be 2 ((f.length - 14) % 65536) := by
    rw [be16, BitVec.toNat_ofNat]
  simp [echoReplyLayout, echoIp4Layout, echoReplyParts, ← hlen, ← hmessage]

theorem echoReplyParts_sizes {f : Bytes} (h : 42 ≤ f.length) (p : Params) (peer : Mac) :
    (echoReplyParts p peer f).map List.length = [6, 6, 2, 2, 2, 6, 2, 4, 4, 2, 2, f.length - 38] := by
  simp [echoReplyParts, slice_length (show 16 ≤ f.length by omega), slice_length (show 24 ≤ f.length by omega),
    slice_length (show 34 ≤ f.length by omega), slice_length (show 30 ≤ f.length by omega)]

theorem be16_echoIp4Csum_zero (f : Bytes) : be16 (echoIp4Csum .zero f) = zeros 2 := by
  rw [echoIp4Csum]
  rfl

/-- The IPv4 header of the reply is bytes 14 to 33. -/
theorem slice_echoReplyLayout_ip4 {f : Bytes} (h : 42 ≤ f.length) (p : Params) (peer : Mac) :
    slice (echoReplyLayout p peer f) 14 34 = echoIp4Layout f (echoIp4Csum p.replyCsum f) := by
  rw [echoReplyLayout_eq_flatten,
    slice_flatten (echoReplyParts_sizes h p peer) (i := 3) (j := 9) (a := 14) (b := 34) (by omega) rfl rfl]
  simp [echoReplyParts, echoIp4Layout, be16]

/-- Around its checksum field the reply's IPv4 header is the header that the checksum is taken of (R188). -/
theorem echoIp4Layout_of_slices {f : Bytes} (h : 42 ≤ f.length) (p : Params) (peer : Mac) :
    slice (echoReplyLayout p peer f) 14 24 ++ [0x00#8, 0x00#8] ++ slice (echoReplyLayout p peer f) 26 34 =
      echoIp4Layout f 0#16 := by
  have hsizes := echoReplyParts_sizes h p peer
  rw [echoReplyLayout_eq_flatten, slice_flatten hsizes (i := 3) (j := 6) (a := 14) (b := 24) (by omega) rfl rfl,
    slice_flatten hsizes (i := 7) (j := 9) (a := 26) (b := 34) (by omega) rfl rfl]
  simp [echoReplyParts, echoIp4Layout, be16, be]

/-! A checksum written into its own field (R102). -/

theorem memWrite_field (pre post : Bytes) (w v : Half) :
    memWrite (pre ++ be16 w ++ post) pre.length 2 v.toNat = pre ++ be16 v ++ post := by
  have hdrop : (pre ++ be16 w ++ post).drop (pre.length + 2) = post :=
    List.drop_left' (by rw [List.length_append, be16_length])
  rw [memWrite, hdrop, List.append_assoc pre, List.take_left]
  rfl

/-- A string whose checksum field, at an even offset, holds the checksum of the string with that field zero verifies
to 0x0000. -/
theorem internetChecksum_around_field {pre : Bytes} (heven : pre.length % 2 = 0) (post : Bytes) :
    internetChecksum (pre ++ be16 (internetChecksum (pre ++ be16 0#16 ++ post)) ++ post) = 0#16 := by
  have hzero (n : Nat) (hn : n < 2) : (pre ++ be16 0#16 ++ post).getD (pre.length + n) 0#8 = 0#8 := by
    rw [List.append_assoc, getD_append_of_le (by omega), Nat.add_sub_cancel_left,
      getD_append_of_lt (by rwa [be16_length]), show be16 0#16 = zeros 2 from rfl, getD_zeros]
  rw [← memWrite_field pre post 0#16]
  exact internetChecksum_memWrite heven (by simp; omega) (hzero 0 (by omega)) (hzero 1 (by omega))

/-- The ICMP message of the reply verifies (R186). -/
theorem internetChecksum_echoReply_icmp {f : Bytes} (h : 42 ≤ f.length) (p : Params) (peer : Mac) :
    internetChecksum ((echoReplyLayout p peer f).drop 34) = 0#16 := by
  rw [echoReplyLayout_eq_flatten, drop_flatten (echoReplyParts_sizes h p peer) (i := 9) (a := 34) rfl]
  have hfield : zeros 4 ++ f.drop 38 = [0x00#8, 0x00#8] ++ be16 0#16 ++ f.drop 38 := rfl
  have hverify := internetChecksum_around_field (pre := [0x00#8, 0x00#8]) rfl (f.drop 38)
  simpa [echoReplyParts, hfield] using hverify

/-- The reply's IPv4 header with its checksum verifies (R188). -/
theorem internetChecksum_echoIp4Layout {f : Bytes} (h : 42 ≤ f.length) :
    internetChecksum (echoIp4Layout f (internetChecksum (echoIp4Layout f 0#16))) = 0#16 := by
  have heven : (slice f 14 16 ++ be 2 ((f.length - 14) % 65536) ++ slice f 18 24).length % 2 = 0 := by
    simp [slice_length (show 16 ≤ f.length by omega), slice_length (show 24 ≤ f.length by omega)]
  simpa [echoIp4Layout] using internetChecksum_around_field heven (slice f 30 34 ++ slice f 26 30)

/-- An echo request that is answered gets the layout of R190, of a frame of at least 42 bytes. -/
theorem exec_fEchoRequest_reply {f : Bytes} {s t : State} (h : exec (.fEchoRequest f) s = .next t)
    (hsend : t.phase = .waitTx) :
    42 ≤ f.length ∧ ∃ peer, t.pendingTx = echoReplyLayout s.params peer f := by
  rw [show Instr.fEchoRequest f = instrOfClass .echoRequest f from rfl, exec_instrOfClass] at h
  obtain ⟨-, -, hclass, rfl⟩ := runClass_next_iff.1 h
  refine ⟨(classOf_echoRequest_facts hclass).1, ?_⟩
  rcases classVerdict_reply_cases s.params s.cam f .echoRequest with hr | ⟨hc, -⟩ | ⟨-, peer, hr⟩
  · simp [hr, phaseAfter] at hsend
  · cases hc
  · exact ⟨peer, by simp [hr]⟩

end Sys2Proof.Machine

open Sys2Proof Sys2Proof.Machine Sys2Proof.Claim

/-- Settles O35: the row's verdict is the sender's upsert, whose CAM and return are CAM_UPSERT's. -/
theorem arpFramesUpsertTheSender : Obligations.ArpFramesUpsertTheSender := by
  intro s f hp hl h42 het hhw hpt
  have hclass := classOf_of_arpHeader (ip := s.params.myIp) (by omega) het hhw hpt
  have run (c : FrameClass) := exec_instrOfClass_of_class (c := c) hp hl
  refine ⟨_, _, exec_camUpsert_of_waiting hp _ _, rfl, ?_⟩
  rw [← upsertDiags_camUpsert]
  refine ⟨fun hop => run .arpReply ?_, fun hop => run .rarpRequest ?_, fun hop => run .rarpReply ?_⟩ <;>
    · rw [hclass, hop, if_neg (by simp), if_neg (by omega)]
      rfl

/-- Settles O36: the row's verdict is the sender's upsert and the layout of R178, whose parts are the table's rows. -/
theorem arpRequestIsAnswered : Obligations.ArpRequestIsAnswered := by
  intro s f hp hl h42 het hhw hpt hop
  have hclass : classOf s.params.myIp f = .arpRequest := by
    rw [classOf_of_arpHeader (by omega) het hhw hpt, hop, if_neg (by simp), if_neg (by omega)]
    rfl
  refine ⟨_, _, arpReplyLayout s.params f, exec_camUpsert_of_waiting hp _ _, rfl, ?_,
    arpReplyLayout_length h42 _, ?_⟩
  · rw [← upsertDiags_camUpsert]
    exact exec_instrOfClass_of_class (c := .arpRequest) hp hl hclass
  have part := @sameBytes_part _ _ (arpReplyParts_sizes h42 s.params)
  rw [arpReplyLayout_eq_flatten, ← be48_eq, ← be32_eq]
  exact ⟨part 0 rfl rfl (sameBytes_slice f 22 6), part 1 rfl rfl (sameBytes_refl _ _),
    part 2 rfl rfl (sameBytes_refl _ _), part 3 rfl rfl (sameBytes_slice f 18 2),
    part 4 rfl rfl (sameBytes_refl _ _), part 5 rfl rfl (sameBytes_refl _ _), part 6 rfl rfl (sameBytes_refl _ _),
    part 7 rfl rfl (sameBytes_slice f 22 10), part 8 rfl rfl (sameBytes_zeros _ _)⟩

/-- Settles O37: the row's verdict is a drop on a miss and the layout of R190 on a hit, whose parts are the table's
rows; the buffer's limit keeps the total length below 65536. -/
theorem echoRequestIsAnswered : Obligations.EchoRequestIsAnswered := by
  intro s f hp hl hok h42 het hdst hpr hty
  have hclass : classOf s.params.myIp f = .echoRequest := by
    rw [classOf_of_icmp (by omega) het hdst hpr, hty, if_neg (by omega), if_neg (by simp)]
    simp [h42]
  have hexec := exec_instrOfClass_of_class hp hl hclass
  rw [classVerdict] at hexec
  refine ⟨fun hmiss => ?_, fun peer hhit => ?_⟩
  · rw [hmiss] at hexec
    exact hexec
  rw [hhit] at hexec
  refine ⟨echoReplyLayout s.params peer f, hexec, echoReplyLayout_length h42 _ _, ?_⟩
  have hslices := echoIp4Layout_of_slices h42 s.params peer
  have hlen : f.length ≤ s.params.rxBufBytes := hl.2
  have part := @sameBytes_part _ _ (echoReplyParts_sizes h42 s.params peer)
  rw [echoReplyLayout_eq_flatten] at hslices ⊢
  rw [hslices, ← be48_eq, ← be48_eq]
  refine ⟨part 0 rfl rfl (sameBytes_refl _ _), part 1 rfl rfl (sameBytes_refl _ _),
    part 2 rfl rfl (sameBytes_refl _ _), part 3 rfl rfl (sameBytes_slice f 14 2),
    half_eq_of_sameBytes (part 4 rfl rfl (sameBytes_refl _ _)), by obtain ⟨-, -, hmax⟩ := hok; omega,
    part 5 rfl rfl (sameBytes_slice f 18 6), fun hzero => ?_, fun hcomputed => ?_,
    part 7 rfl rfl (sameBytes_slice f 30 4), part 8 rfl rfl (sameBytes_slice f 26 4),
    part 9 rfl rfl (sameBytes_refl _ _), half_eq_of_sameBytes (part 10 rfl rfl (sameBytes_refl _ _)),
    part 11 rfl rfl (sameBytes_drop f 38 _)⟩
  · refine part 6 rfl rfl ?_
    show sameBytes (be16 (echoIp4Csum s.params.replyCsum f)) 0 [] 0 2
    rw [hzero, be16_echoIp4Csum_zero]
    exact sameBytes_zeros 2 2
  · refine (half_eq_of_sameBytes (part 6 rfl rfl (sameBytes_refl _ _))).trans ?_
    rw [hcomputed, echoIp4Csum]

/-- Settles O38: each computed checksum stands in the field that was zero when it was taken. -/
theorem echoReplyChecksumsVerify : Obligations.EchoReplyChecksumsVerify := by
  intro s t f hexec hsend
  obtain ⟨h42, peer, hreply⟩ := exec_fEchoRequest_reply hexec hsend
  rw [hreply]
  refine ⟨internetChecksum_echoReply_icmp h42 _ _, fun hcomputed => ?_, fun hzero => ?_⟩
  · rw [slice_echoReplyLayout_ip4 h42, hcomputed]
    exact internetChecksum_echoIp4Layout h42
  · rw [echoReplyLayout_eq_flatten,
      slice_flatten (echoReplyParts_sizes h42 _ peer) (i := 6) (j := 7) (a := 24) (b := 26) (by omega) rfl rfl]
    simp only [echoReplyParts, hzero, be16_echoIp4Csum_zero]
    rfl
end

section
/-! SUPPORT. What a frame's verdict does not depend on (44_dispatch.md R171, R179): the Ethernet destination, and the
target fields of an ARP frame. -/

namespace Sys2Proof.Machine

open Sys2Proof.Claim

/-! Fields inside the first k bytes. -/

theorem memRead_take {k off n : Nat} (h : off + n ≤ k) (b : Bytes) : memRead (b.take k) off n = memRead b off n := by
  rw [memRead, List.drop_take, List.take_take, Nat.min_eq_left (by omega), memRead]

theorem rd16_eq_of_take {k off : Nat} (h : off + 2 ≤ k) {f g : Bytes} (hfg : f.take k = g.take k) :
    rd16 f off = rd16 g off := by
  rw [rd16, rd16, ← memRead_take h f, hfg, memRead_take h]

theorem rd32_eq_of_take {k off : Nat} (h : off + 4 ≤ k) {f g : Bytes} (hfg : f.take k = g.take k) :
    rd32 f off = rd32 g off := by
  rw [rd32, rd32, ← memRead_take h f, hfg, memRead_take h]

theorem rd48_eq_of_take {k off : Nat} (h : off + 6 ≤ k) {f g : Bytes} (hfg : f.take k = g.take k) :
    rd48 f off = rd48 g off := by
  rw [rd48, rd48, ← memRead_take h f, hfg, memRead_take h]

theorem slice_eq_of_take {k i j : Nat} (h : j ≤ k) {f g : Bytes} (hfg : f.take k = g.take k) :
    slice f i j = slice g i j := by
  have hslice (b : Bytes) : slice b i j = ((b.take k).take j).drop i := by
    rw [List.take_take, Nat.min_eq_left h, List.drop_take, slice]
  rw [hslice, hslice, hfg]

/-- The Ethernet header's ethertype is all of it that DISPATCH goes by (R171). -/
theorem dispatchFrame_congr {f g : Bytes} (hlen : f.length = g.length) (het : frameEt f = frameEt g)
    (hrest : f.drop 14 = g.drop 14) (p : Params) (cam : List CamEntry) :
    dispatchFrame p cam f = dispatchFrame p cam g := by
  unfold dispatchFrame
  by_cases h14 : f.length < 14
  · rw [decodeEth, decodeEth, if_pos h14, if_pos (by omega)]
  · rw [decodeEth_frame (by omega), decodeEth_frame (by omega), het, hrest]
    cases EtherType.ofWire (frameEt g) <;> rfl

/-- The sender's upsert and the reply to an ARP frame go by its first 32 bytes (R175, R178). -/
theorem senderUpsert_eq_of_take {f g : Bytes} (h : f.take 32 = g.take 32) (cam : List CamEntry) :
    senderUpsert f cam = senderUpsert g cam := by
  rw [senderUpsert, senderUpsert, rd32_eq_of_take (by omega) h, rd48_eq_of_take (by omega) h]

theorem arpReplyLayout_eq_of_take {f g : Bytes} (h : f.take 32 = g.take 32) (p : Params) :
    arpReplyLayout p f = arpReplyLayout p g := by
  unfold arpReplyLayout
  rw [slice_eq_of_take (show 28 ≤ 32 by omega) h, slice_eq_of_take (show 20 ≤ 32 by omega) h,
    slice_eq_of_take (show 32 ≤ 32 by omega) h]

/-- Rows 4 to 12 go by the length and the first 32 bytes (R179). -/
theorem arpVerdict_congr {f g : Bytes} (hlen : f.length = g.length) (h : f.take 32 = g.take 32) (p : Params)
    (cam : List CamEntry) : classVerdict p cam f (classOfArp f) = classVerdict p cam g (classOfArp g) := by
  have hhw : frameHw f = frameHw g := rd16_eq_of_take (by omega) h
  have hpt : framePt f = framePt g := rd16_eq_of_take (by omega) h
  have hop : frameOp f = frameOp g := rd16_eq_of_take (by omega) h
  have hclass : classOfArp f = classOfArp g := by simp only [classOfArp, hlen, hhw, hpt, hop]
  rw [hclass]
  unfold classOfArp
  repeat' split
  all_goals simp only [classVerdict, hhw, hpt, hop, senderUpsert_eq_of_take h, arpReplyLayout_eq_of_take h]

/-- DISPATCH goes by the length of the frame, which gates it, and by its verdict. -/
theorem exec_dispatch_congr {f g : Bytes} {s : State} (hlen : f.length = g.length)
    (h : dispatchFrame s.params s.cam f = dispatchFrame s.params s.cam g) :
    exec (.dispatch f) s = exec (.dispatch g) s := by
  show acceptFrame _ _ _ = acceptFrame _ _ _
  simp only [acceptFrame, legalLength, hlen, h]

end Sys2Proof.Machine

open Sys2Proof Sys2Proof.Machine Sys2Proof.Claim

/-- Settles O43: the ethertype and all that follows stand from byte 6 on. -/
theorem ethernetDestinationIsNotFiltered : Obligations.EthernetDestinationIsNotFiltered := by
  intro s f g hlen hdrop
  have het : frameEt f = frameEt g := by
    rw [frameEt, frameEt, ← rd16_drop f 6 6, hdrop, rd16_drop]
  have hrest : f.drop 14 = g.drop 14 := by
    rw [show f.drop 14 = (f.drop 6).drop 8 by rw [List.drop_drop], hdrop, List.drop_drop]
  exact exec_dispatch_congr hlen (dispatchFrame_congr hlen het hrest _ _)

/-- Settles O44: both frames are of the rows of ARP, which go by the first 32 bytes; shorter frames are equal. -/
theorem arpTargetIsNotChecked : Obligations.ArpTargetIsNotChecked := by
  intro s f g hlen htake _ het
  by_cases hshort : f.length ≤ 32
  · rw [List.take_of_length_le hshort, List.take_of_length_le (by omega)] at htake
    rw [htake]
  have het' : frameEt g = 0x0806#16 := (rd16_eq_of_take (by omega) htake).symm.trans het
  refine exec_dispatch_congr hlen ?_
  rw [dispatchFrame_eq_classVerdict, dispatchFrame_eq_classVerdict, classOf_of_arp (by omega) het,
    classOf_of_arp (by omega) het', arpVerdict_congr hlen htake]
end

section
/-! SUPPORT. What the sequencer does with each stimulus (44_dispatch.md R193 to R197): the five moves of a step that
goes on. -/

namespace Sys2Proof.Machine

open Sys2Proof.Claim

/-- A class instruction that goes on ends an accepted frame. -/
theorem exec_instrOfClass_next {c : FrameClass} {f : Bytes} {s t : State} (h : exec (instrOfClass c f) s = .next t) :
    s.phase = .waitRx ∧ t = s.endFrame (classVerdict s.params s.cam f c) := by
  rw [exec_instrOfClass] at h
  obtain ⟨hp, -, -, ht⟩ := runClass_next_iff.1 h
  exact ⟨hp, ht⟩

/-- What a step that goes on was: an accepted frame, a test access, closure, or the transmit port's answer. -/
theorem step_moves {s t : State} (h : step s = .next t) :
    ∃ st rest, s.host = st :: rest ∧
      ((s.phase = .waitRx ∧ (∃ f, st = .rx f) ∧ ∃ v, t = (s.taken rest).endFrame v) ∨
      (s.phase ≠ .waitTx ∧ (∃ b, st = .cmd b) ∧ ∃ r, t = returned r (s.taken rest)) ∨
      (s.phase = .waitRx ∧ t = (s.taken rest).stop) ∨
      (s.phase = .waitTx ∧ st = .txOk ∧ t = (s.taken rest).sent) ∨
      (s.phase = .waitTx ∧ st = .txErr ∧ t = (s.taken rest).sendFailed)) := by
  obtain ⟨st, rest, hhost, ⟨i, hd, hw, hexec⟩ | ⟨hp, -, ht⟩ | htx⟩ := step_cases h
  · refine ⟨st, rest, hhost, ?_⟩
    rcases decode_cases hd with ⟨f, rfl, -, rfl⟩ | ⟨c, b, rfl, hcode⟩
    · obtain ⟨hp, ht⟩ := exec_instrOfClass_next hexec
      exact .inl ⟨hp, ⟨f, rfl⟩, _, ht⟩
    · obtain ⟨hp, hr⟩ := exec_of_isPure (isPure_of_command (by simp [hcode]) hw) hexec
      exact .inr (.inl ⟨hp, ⟨c :: b, rfl⟩, hr⟩)
  · exact ⟨st, rest, hhost, .inr (.inr (.inl ⟨hp, ht⟩))⟩
  · exact ⟨st, rest, hhost, .inr (.inr (.inr htx))⟩

/-- In WAIT_RX what the receive port raises a status on stops the block (R196, R218). -/
theorem onStimulus_of_closure {s : State} {st : Stimulus} {e : Status} (hp : s.phase = .waitRx)
    (h : receiveStatus st = some e) : onStimulus st s = .next s.stop := by
  simp only [onStimulus, hp, stepInWaitRx, h]

/-- In WAIT_TX the transmit port answers OK or a write error (R195, R219). -/
theorem onStimulus_of_txOk {s : State} (hp : s.phase = .waitTx) : onStimulus .txOk s = .next s.sent := by
  simp only [onStimulus, hp, stepInWaitTx, transmitStatus]

theorem onStimulus_of_txErr {s : State} (hp : s.phase = .waitTx) : onStimulus .txErr s = .next s.sendFailed := by
  simp only [onStimulus, hp, stepInWaitTx, transmitStatus]

end Sys2Proof.Machine

open Sys2Proof Sys2Proof.Machine Sys2Proof.Claim

/-- Settles O47: of the five moves only the test access starts in STOPPED, and it writes none of these. -/
theorem stoppedIsTerminal : Obligations.StoppedIsTerminal := by
  intro s t hp hstep
  obtain ⟨st, rest, hhost, ⟨hp', -⟩ | ⟨-, ⟨b, rfl⟩, r, rfl⟩ | ⟨hp', -⟩ | ⟨hp', -⟩ | ⟨hp', -⟩⟩ := step_moves hstep
  case inr.inl => exact ⟨hp, rfl, rfl, rfl, rfl, rfl, b, rest, hhost⟩
  all_goals
    rw [hp] at hp'
    cases hp'

/-- Settles O48: of the five moves only the two answers of the transmit port start in WAIT_TX. -/
theorem noFrameIsTakenWhileSending : Obligations.NoFrameIsTakenWhileSending := by
  intro s t hp hstep
  obtain ⟨st, rest, hhost, ⟨hp', -⟩ | ⟨hp', -⟩ | ⟨hp', -⟩ | ⟨-, rfl, rfl⟩ | ⟨-, rfl, rfl⟩⟩ := step_moves hstep
  · simp [hp] at hp'
  · exact absurd hp hp'
  · simp [hp] at hp'
  · exact ⟨rfl, rfl, rfl, rfl, rest, .inl hhost⟩
  · exact ⟨rfl, rfl, rfl, rfl, rest, .inr hhost⟩

/-- Settles O49: an accepted frame is the one move that counts, and the one that can end in WAIT_TX. -/
theorem framesAreAcceptedInWaitRxOnly : Obligations.FramesAreAcceptedInWaitRxOnly := by
  intro s t hstep
  obtain ⟨st, rest, -, ⟨hp, -, v, rfl⟩ | ⟨hp, -, r, rfl⟩ | ⟨-, rfl⟩ | ⟨-, -, rfl⟩ | ⟨-, -, rfl⟩⟩ := step_moves hstep
  · exact ⟨.inr ⟨rfl, hp⟩, fun _ => ⟨hp, rfl⟩⟩
  · exact ⟨.inl rfl, fun hsend => absurd hsend hp⟩
  all_goals exact ⟨.inl rfl, nofun⟩

/-- Settles O45: the two answers are `State.sent` and `State.sendFailed`. -/
theorem transmitAnswersEndTheWait : Obligations.TransmitAnswersEndTheWait := by
  intro s rest hp
  exact ⟨fun hhost => (step_of_host hhost).trans (onStimulus_of_txOk hp),
    fun hhost => (step_of_host hhost).trans (onStimulus_of_txErr hp)⟩

/-- Settles O46: on each of the three stimuli the receive port raises a status, which is `State.stop`. -/
theorem receiveClosureStopsTheBlock : Obligations.ReceiveClosureStopsTheBlock := by
  intro s st rest hp hhost hst
  have hstatus : ∃ e, receiveStatus st = some e := by
    simp only [List.mem_cons, List.not_mem_nil, or_false] at hst
    rcases hst with rfl | rfl | rfl <;> exact ⟨_, rfl⟩
  obtain ⟨e, he⟩ := hstatus
  exact (step_of_host hhost).trans (onStimulus_of_closure hp he)

/-- Settles O53: with no stimulus to take, the step is the fault of the phase's wait. -/
theorem silentHostLeavesNoStep : Obligations.SilentHostLeavesNoStep := by
  intro s hhost
  have hfault : step s = .fault (hostSilent s.phase) := by rw [step, stepBody, hhost]
  exact hfault

/-- Settles O54: each of the four gates lets a well-formed instruction through in WAIT_RX. -/
theorem wellFormedInstructionsComplete : Obligations.WellFormedInstructionsComplete := by
  intro s i hp hwf
  cases hcode : codeOf i with
  | none =>
    obtain ⟨c, f, rfl⟩ := eq_instrOfClass_of_codeOf_none hcode
    obtain ⟨hl, hclass⟩ := wellFormed_instrOfClass_iff.1 hwf
    exact ⟨_, exec_instrOfClass_of_class hp hl hclass⟩
  | some c =>
    rcases exec_of_codeOf hcode s with ⟨-, r, hexec⟩ | ⟨-, t, hexec⟩ | ⟨rfl, -⟩
    · exact ⟨_, hexec.trans (returns_of_idle (by simp [hp]) _ _)⟩
    · exact ⟨_, hexec.trans (duringDispatch_of_waiting hp _ _)⟩
    · obtain ⟨f, rfl⟩ : ∃ f, i = .dispatch f := by
        cases i
        case dispatch f => exact ⟨f, rfl⟩
        all_goals simp [codeOf] at hcode
      exact ⟨_, exec_dispatch_next_iff.2 ⟨hp, of_decide_eq_true hwf, rfl⟩⟩
end

section
/-! SUPPORT. What the two kinds of host action let out (60_exceptions.md R221, R222, R232): a frame at most one required
event, a test access its return alone. -/

namespace Sys2Proof.Machine

open Sys2Proof.Claim

/-- An upsert requires no event, or one that reports the CAM full (R151). -/
theorem upsertDiags_cases (cam : List CamEntry) (hw : Half) (ip : Ip) (m : Mac) :
    upsertDiags (camUpsert cam hw ip m).1 = [] ∨ upsertDiags (camUpsert cam hw ip m).1 = [.cacheFull ip] := by
  rw [upsertDiags_camUpsert]
  split
  · exact .inr rfl
  · exact .inl rfl

/-- A verdict requires one event and then has no reply and keeps the CAM, or it requires none, or it reports the CAM
full (R151, R172, R192). -/
theorem classVerdict_diags_cases (p : Params) (cam : List CamEntry) (f : Bytes) (c : FrameClass) :
    (∃ d, classVerdict p cam f c = ⟨none, [d], cam⟩) ∨ (classVerdict p cam f c).diags = [] ∨
      ∃ ip, (classVerdict p cam f c).diags = [.cacheFull ip] := by
  cases c
  case arpRequest | arpReply | rarpRequest | rarpReply =>
    exact .inr ((upsertDiags_cases cam _ _ _).imp_right fun hfull => ⟨_, hfull⟩)
  case ipNotMine | ipOtherProto | icmpEchoReply | icmpDestUnreach | echoRequest => exact .inr (.inl rfl)
  all_goals exact .inl ⟨_, rfl⟩

/-- A frame adds the required events of its verdict to those emitted before (R222). -/
theorem requiredDiags_endFrame (s : State) (v : Verdict) :
    requiredDiags (s.endFrame v).diagOut = requiredDiags s.diagOut ++ v.diags := by
  rw [State.endFrame_diagOut, requiredDiags_append, requiredDiags_diagEntries]

/-- A command that decodes to an operation the host may issue decodes to one that writes no state (R232, D30). -/
theorem isPure_of_decode_cmd {p : Params} {b : Bytes} {i : Instr} (h : decode p (.cmd b) = .ok i)
    (hw : withheldCode i = none) : IsPure i := by
  rcases decode_cases h with ⟨f, hrx, -⟩ | ⟨c, b, -, hcode⟩
  · cases hrx
  · exact isPure_of_command (by simp [hcode]) hw

end Sys2Proof.Machine

open Sys2Proof Sys2Proof.Machine Sys2Proof.Claim

/-- Settles O42: a verdict whose one event is Malformed or Unsupported has no reply and keeps the CAM; the one event
of the other verdicts, if any, is CacheFull. -/
theorem atMostOneRequiredEventPerFrame : Obligations.AtMostOneRequiredEventPerFrame := by
  intro s t f hexec
  obtain ⟨-, -, rfl⟩ := exec_dispatch_next_iff.1 hexec
  refine ⟨_, requiredDiags_endFrame s _, ?_⟩
  rcases classVerdict_diags_cases s.params s.cam f (classOf s.params.myIp f) with ⟨d, hv⟩ | hnone | ⟨ip, hfull⟩
  · rw [hv]
    exact ⟨le_rfl, fun _ _ _ => ⟨rfl, rfl, rfl⟩⟩
  · simp [hnone]
  · simp [hfull]

/-- Settles O51: a command is no stimulus of the two ports, and the operation it runs writes no state. -/
theorem testAccessWritesNothing : Obligations.TestAccessWritesNothing := by
  intro s t b rest hhost hstep
  rw [step_of_host hhost] at hstep
  rcases onStimulus_cases hstep with ⟨i, hdecode, hw, hexec⟩ | ⟨-, ⟨_, hclosed⟩, -⟩ | ⟨-, htx, -⟩ | ⟨-, htx, -⟩
  · exact exec_of_isPure (isPure_of_decode_cmd hdecode hw) hexec
  · cases hclosed
  · cases htx
  · cases htx
end

section
/-! SUPPORT. Which operation raises which status (60_exceptions.md R210 to R217): the decodes and encodes by format,
CAM_UPSERT, and every other return OK. -/

namespace Sys2Proof.Machine

open Sys2Proof.Claim

/-- The statuses other than OK, each with the operation that raises it and when (R211, R215 to R217). -/
inductive Raises : Instr → Status → Prop
  | ethShort {b : Bytes} : b.length < 14 → Raises (.ethDec b) (.malformed .eth)
  | ethUnknown {b : Bytes} {v : Half} : v ∉ [0x0800#16, 0x0806#16, 0x8035#16] →
      Raises (.ethDec b) (.unsupported .eth .ethertype v)
  | arphShort {b : Bytes} : b.length < 8 → Raises (.arphDec b) (.malformed .arpHeader)
  | arphHwtype {b : Bytes} {v : Half} : v ≠ 1#16 → Raises (.arphDec b) (.unsupported .arpHeader .hwtype v)
  | arphProtype {b : Bytes} {v : Half} : v ≠ 0x0800#16 → Raises (.arphDec b) (.unsupported .arpHeader .protype v)
  | arphOpcode {b : Bytes} {v : Half} : v ∉ [1#16, 2#16, 3#16, 4#16] →
      Raises (.arphDec b) (.unsupported .arpHeader .opcode v)
  | arppShort {b : Bytes} : b.length < 20 → Raises (.arppDec b) (.malformed .arpPayload)
  | ip4Short {b : Bytes} : b.length < 20 → Raises (.ip4Dec b) (.malformed .ipv4)
  | icmpShort {b : Bytes} : b.length < 4 → Raises (.icmpDec b) (.malformed .icmp)
  | icmpUnknown {b : Bytes} {v : Half} : v ∉ [0#16, 3#16, 8#16] →
      Raises (.icmpDec b) (.unsupported .icmp .icmpType v)
  | echoShort {b : Bytes} : b.length < 4 → Raises (.echoDec b) (.malformed .echo)
  | ethNoRoom {h : EthHeader} {dst : Bytes} : dst.length < 14 → Raises (.ethEnc h dst) (.bufferTooSmall 14)
  | arphNoRoom {h : ArpHeader} {dst : Bytes} : dst.length < 8 → Raises (.arphEnc h dst) (.bufferTooSmall 8)
  | arppNoRoom {h : ArpPayload} {dst : Bytes} : dst.length < 20 → Raises (.arppEnc h dst) (.bufferTooSmall 20)
  | ip4NoRoom {h : Ipv4Header} {dst : Bytes} : dst.length < 20 → Raises (.ip4Enc h dst) (.bufferTooSmall 20)
  | icmpNoRoom {h : IcmpHeader} {dst : Bytes} : dst.length < 4 → Raises (.icmpEnc h dst) (.bufferTooSmall 4)
  | echoNoRoom {h : EchoHeader} {dst : Bytes} : dst.length < 4 → Raises (.echoEnc h dst) (.bufferTooSmall 4)
  | camFull {hw : HwType} {ip : Ip} {m : Mac} : Raises (.camUpsert hw ip m) (.cacheFull ip)

/-- An instruction returns OK or a status that is its own to raise. -/
def OwnStatus (i : Instr) (st : Status) : Prop := st = .ok ∨ Raises i st

theorem HwType.ofWire_eq_none {v : Half} (h : HwType.ofWire v = none) : v ≠ 1#16 := by
  rintro rfl
  cases h

theorem ProtoType.ofWire_eq_none {v : Half} (h : ProtoType.ofWire v = none) : v ≠ 0x0800#16 := by
  rintro rfl
  cases h

/-! The decodes (R116, R211, R215). -/

theorem decodeEth_ownStatus (b : Bytes) : OwnStatus (.ethDec b) ((decodeEth b).toReturn .eth).status := by
  unfold decodeEth
  by_cases hlen : b.length < 14
  · rw [if_pos hlen]
    exact .inr (.ethShort hlen)
  rw [if_neg hlen]
  cases ht : EtherType.ofWire (rd16 b 12) with
  | none => exact .inr (.ethUnknown (EtherType.ofWire_eq_none ht))
  | some t => exact .inl rfl

theorem decodeArph_ownStatus (b : Bytes) : OwnStatus (.arphDec b) ((decodeArph b).toReturn .arph).status := by
  unfold decodeArph
  by_cases hlen : b.length < 8
  · rw [if_pos hlen]
    exact .inr (.arphShort hlen)
  rw [if_neg hlen]
  cases hhw : HwType.ofWire (rd16 b 0) with
  | none => exact .inr (.arphHwtype (HwType.ofWire_eq_none hhw))
  | some hw =>
  cases hpt : ProtoType.ofWire (rd16 b 2) with
  | none => exact .inr (.arphProtype (ProtoType.ofWire_eq_none hpt))
  | some pt =>
  cases hop : ArpOp.ofWire (rd16 b 6) with
  | none => exact .inr (.arphOpcode (by simpa using ArpOp.ofWire_eq_none hop))
  | some op => exact .inl rfl

theorem decodeArpp_ownStatus (b : Bytes) : OwnStatus (.arppDec b) ((decodeArpp b).toReturn .arpp).status := by
  unfold decodeArpp
  split
  · exact .inr (.arppShort ‹_›)
  · exact .inl rfl

theorem decodeIp4_ownStatus (b : Bytes) : OwnStatus (.ip4Dec b) ((decodeIp4 b).toReturn .ip4).status := by
  unfold decodeIp4
  split
  · exact .inr (.ip4Short ‹_›)
  · exact .inl rfl

/-- No byte outside the three types becomes one of them when it is widened to the status's 16 bits. -/
theorem IcmpType.setWidth_of_ofWire_eq_none {v : Byte} (h : IcmpType.ofWire v = none) :
    v.setWidth 16 ∉ [0#16, 3#16, 8#16] := by
  obtain ⟨h0, h3, h8⟩ := IcmpType.ofWire_eq_none h
  simp only [List.mem_cons, List.not_mem_nil, or_false, not_or]
  refine ⟨?_, ?_, ?_⟩ <;> bv_omega

theorem decodeIcmp_ownStatus (b : Bytes) : OwnStatus (.icmpDec b) ((decodeIcmp b).toReturn .icmp).status := by
  unfold decodeIcmp
  by_cases hlen : b.length < 4
  · rw [if_pos hlen]
    exact .inr (.icmpShort hlen)
  rw [if_neg hlen]
  cases ht : IcmpType.ofWire (rd8 b 0) with
  | none => exact .inr (.icmpUnknown (IcmpType.setWidth_of_ofWire_eq_none ht))
  | some t => exact .inl rfl

theorem decodeEcho_ownStatus (b : Bytes) : OwnStatus (.echoDec b) ((decodeEcho b).toReturn .echo).status := by
  unfold decodeEcho
  split
  · exact .inr (.echoShort ‹_›)
  · exact .inl rfl

/-! The encodes (R117, R216) and the CAM's operations (R150, R152, R217). -/

theorem encodeInto_ownStatus {i : Instr} {S : Nat} {dst : Bytes}
    (hraise : dst.length < S → Raises i (.bufferTooSmall S)) (header : Bytes) :
    OwnStatus i (encodeInto S header dst).status := by
  unfold encodeInto
  split
  · exact .inr (hraise ‹_›)
  · exact .inl rfl

theorem lookupReturn_status (o : Option Mac) : (lookupReturn o).status = .ok := by
  cases o <;> rfl

/-- An operation that writes no state, when it goes on: the status is its own, and the return is all it leaves. -/
theorem ownStatus_of_returns {i : Instr} {c : Byte} {r : OpReturn} {s t : State} (hr : OwnStatus i r.status)
    (h : returns c r s = .next t) : ∃ r, OwnStatus i r.status ∧ t = returned r s :=
  ⟨r, hr, (returns_next_iff.1 h).2⟩

theorem exec_ownStatus_of_isPure {i : Instr} {s t : State} (hi : IsPure i) (h : exec i s = .next t) :
    ∃ r, OwnStatus i r.status ∧ t = returned r s := by
  obtain ⟨hcode, hdis, hup⟩ := hi
  cases i
  case csum b => exact ownStatus_of_returns (.inl rfl) h
  case ethDec b => exact ownStatus_of_returns (decodeEth_ownStatus b) h
  case ethEnc hd dst => exact ownStatus_of_returns (encodeInto_ownStatus .ethNoRoom _) h
  case arphDec b => exact ownStatus_of_returns (decodeArph_ownStatus b) h
  case arphEnc hd dst => exact ownStatus_of_returns (encodeInto_ownStatus .arphNoRoom _) h
  case arppDec b => exact ownStatus_of_returns (decodeArpp_ownStatus b) h
  case arppEnc hd dst => exact ownStatus_of_returns (encodeInto_ownStatus .arppNoRoom _) h
  case ip4Dec b => exact ownStatus_of_returns (decodeIp4_ownStatus b) h
  case ip4Enc hd dst => exact ownStatus_of_returns (encodeInto_ownStatus .ip4NoRoom _) h
  case icmpDec b => exact ownStatus_of_returns (decodeIcmp_ownStatus b) h
  case icmpEnc hd dst => exact ownStatus_of_returns (encodeInto_ownStatus .icmpNoRoom _) h
  case echoDec b => exact ownStatus_of_returns (decodeEcho_ownStatus b) h
  case echoEnc hd dst => exact ownStatus_of_returns (encodeInto_ownStatus .echoNoRoom _) h
  case camLookup ip => exact ownStatus_of_returns (.inl (lookupReturn_status _)) h
  case camUpsert hw ip m => exact absurd rfl (hup hw ip m)
  case dispatch f => exact absurd rfl (hdis f)
  all_goals exact absurd rfl hcode

/-- Every instruction that goes on returns once: OK, or a status it raises, and then the return is all it leaves (R210,
R212). -/
theorem exec_returns_status {i : Instr} {s t : State} (h : exec i s = .next t) :
    ∃ r, t.opOut = s.opOut ++ [r] ∧ (r.status = .ok ∨ Raises i r.status ∧ t = returned r s) := by
  rcases exec_cases h with ⟨hi, -⟩ | ⟨-, hw, ip, m, rfl, rfl⟩ | ⟨-, f, v, -, -, rfl, -⟩
  · obtain ⟨r, hr, rfl⟩ := exec_ownStatus_of_isPure hi h
    exact ⟨r, rfl, hr.imp_right fun hraise => ⟨hraise, rfl⟩⟩
  · refine ⟨_, rfl, ?_⟩
    rcases camUpsert_cases s.cam 1#16 ip m with ⟨j, -, hup⟩ | ⟨j, -, -, hup⟩ | ⟨-, -, hup⟩ <;> rw [hup]
    · exact .inl rfl
    · exact .inl rfl
    · exact .inr ⟨.camFull, rfl⟩
  · exact ⟨_, rfl, .inl rfl⟩

/-- Only an operation raises a status, and DISPATCH raises none (R9, R210). -/
theorem Raises.codeOf_cases {i : Instr} {st : Status} (h : Raises i st) :
    codeOf i ≠ none ∧ codeOf i ≠ some 0x30#8 := by
  cases h <;> simp [codeOf]

end Sys2Proof.Machine

open Sys2Proof Sys2Proof.Machine Sys2Proof.Claim

/-- Settles O55: each clause but the last two reads the operations that raise its status off `Raises`. -/
theorem statusesComeFromTheirOperations : Obligations.StatusesComeFromTheirOperations := by
  intro s t i hexec
  obtain ⟨r, hout, hstatus⟩ := exec_returns_status hexec
  have raised {st : Status} (hst : r.status = st) (hne : st ≠ .ok) : Raises i st := by
    rcases hstatus with hok | ⟨hraise, -⟩
    · exact absurd (hst.symm.trans hok) hne
    · exact hst ▸ hraise
  refine ⟨r, hout, fun l hl => ?_, fun l fi v hv => ?_, fun n hn => ?_, fun ip hip => ?_, ?_,
    fun hcode => ?_, fun hne => ?_⟩
  · cases raised hl nofun <;> simp [*]
  · cases raised hv nofun <;> simp_all
  · cases raised hn nofun <;> simp [*]
  · cases raised hip nofun
    exact ⟨_, _, rfl⟩
  · intro hport
    simp only [List.mem_cons, List.not_mem_nil, or_false] at hport
    rcases hport with hport | hport | hport <;> cases raised hport nofun
  · rcases hstatus with hok | ⟨hraise, -⟩
    · exact hok
    · obtain ⟨hnone, hdispatch⟩ := hraise.codeOf_cases
      exact absurd hcode (not_or.2 ⟨hnone, hdispatch⟩)
  · exact (hstatus.resolve_left hne).2
end

section
/-! SUPPORT. Noninterference of the diagnostic port (60_exceptions.md R223, R224): one state beside another that differs
from it in the port's record and in the counter of the free draws (log 10), through each gate, each instruction and
each step. -/

namespace Sys2Proof.Machine

open Sys2Proof.Claim

/-- The state with another record of the diagnostic port and another counter of the free draws. -/
def State.withDiag (d : List DiagEntry) (n : Nat) (s : State) : State := { s with diagOut := d, draw := n }

@[simp] theorem State.withDiag_params (d : List DiagEntry) (n : Nat) (s : State) :
    (s.withDiag d n).params = s.params := rfl
@[simp] theorem State.withDiag_phase (d : List DiagEntry) (n : Nat) (s : State) :
    (s.withDiag d n).phase = s.phase := rfl
@[simp] theorem State.withDiag_host (d : List DiagEntry) (n : Nat) (s : State) :
    (s.withDiag d n).host = s.host := rfl

theorem eq_withDiag_of_quiet_eq {s t : State} (h : s.quiet = t.quiet) : t = s.withDiag t.diagOut t.draw := by
  cases s
  cases t
  cases h
  rfl

/-- From `s` to `a` and from `t` to `b` the same required events were emitted, and `a` and `b` differ only in what the
diagnostic port has carried and in the free draws. -/
def SameEvents (s t a b : State) : Prop :=
  a.quiet = b.quiet ∧ ∃ ds, requiredDiags a.diagOut = requiredDiags s.diagOut ++ ds ∧
    requiredDiags b.diagOut = requiredDiags t.diagOut ++ ds

theorem requiredDiags_append_diagEntries (es : List DiagEntry) (n : Nat) (ds : List Diag) :
    requiredDiags (es ++ diagEntries n ds) = requiredDiags es ++ ds := by
  rw [requiredDiags_append, requiredDiags_diagEntries]

variable {s : State} {d : List DiagEntry} {n : Nat}

/-- Two updates that write the same beside the diagnostic port and emit the same required events there. -/
theorem sameEvents_of_emit {a b : State} (ds : List Diag) (hquiet : a.quiet = b.quiet)
    (ha : a.diagOut = s.diagOut ++ diagEntries s.draw ds) (hb : b.diagOut = d ++ diagEntries n ds) :
    SameEvents s (s.withDiag d n) a b := by
  refine ⟨hquiet, ds, ?_, ?_⟩
  · rw [ha, requiredDiags_append_diagEntries]
  · rw [hb, requiredDiags_append_diagEntries]
    rfl

theorem sameEvents_answer (r : OpReturn) :
    SameEvents s (s.withDiag d n) (s.answer r) ((s.withDiag d n).answer r) :=
  sameEvents_of_emit [] rfl rfl rfl

theorem sameEvents_endFrame (v : Verdict) :
    SameEvents s (s.withDiag d n) (s.endFrame v) ((s.withDiag d n).endFrame v) :=
  sameEvents_of_emit v.diags rfl rfl rfl

/-- Two outcomes of one action, from `s` and from the state beside it. -/
def Beside (s : State) (d : List DiagEntry) (n : Nat) : Host.Outcome State Fault Refusal →
    Host.Outcome State Fault Refusal → Prop := SameOutcome (SameEvents s (s.withDiag d n))

/-! The gates read the phase, the parameters and the frame (R155, R170). -/

theorem beside_returns (c : Byte) (r : OpReturn) :
    Beside s d n (returns c r s) (returns c r (s.withDiag d n)) := by
  unfold returns testAccess
  simp only [State.withDiag_phase]
  split
  · exact rfl
  · exact sameEvents_answer r
  · exact sameEvents_answer r

theorem beside_duringDispatch (c : Byte) {a b : State} (h : SameEvents s (s.withDiag d n) a b) :
    Beside s d n (duringDispatch c s a) (duringDispatch c (s.withDiag d n) b) := by
  unfold duringDispatch
  simp only [State.withDiag_phase]
  split
  · exact h
  · exact rfl
  · exact rfl

/-- Two tests of one condition. -/
theorem beside_ite {p : Prop} [Decidable p] {x x' y y' : Host.Outcome State Fault Refusal} (hx : Beside s d n x x')
    (hy : Beside s d n y y') : Beside s d n (if p then x else y) (if p then x' else y') := by
  split
  · exact hx
  · exact hy

theorem beside_acceptFrame {f : Bytes} {x y : Host.Outcome State Fault Refusal} (h : Beside s d n x y) :
    Beside s d n (acceptFrame f s x) (acceptFrame f (s.withDiag d n) y) :=
  beside_ite rfl (beside_ite h rfl)

theorem beside_runClass (c : FrameClass) (f : Bytes) (v : Verdict) :
    Beside s d n (runClass c f s v) (runClass c f (s.withDiag d n) v) :=
  beside_acceptFrame (beside_ite (sameEvents_endFrame v) rfl)

/-! Every instruction reads the parameters and the CAM, and leaves the state by one of the gates. -/

theorem beside_exec (i : Instr) : Beside s d n (exec i s) (exec i (s.withDiag d n)) := by
  cases hcode : codeOf i with
  | none =>
    obtain ⟨c, f, rfl⟩ := eq_instrOfClass_of_codeOf_none hcode
    rw [exec_instrOfClass, exec_instrOfClass]
    exact beside_runClass c f _
  | some code =>
    cases i
    case csum | camLookup | ethDec | ethEnc | arphDec | arphEnc | arppDec | arppEnc | ip4Dec | ip4Enc | icmpDec |
        icmpEnc | echoDec | echoEnc => exact beside_returns _ _
    case camUpsert hw ip m => exact beside_duringDispatch _ (sameEvents_of_emit [] rfl rfl rfl)
    case dispatch f => exact beside_acceptFrame (sameEvents_endFrame _)
    all_goals cases hcode

/-! The sequencer reads the phase and the stimulus (R193 to R197). -/

theorem beside_runStimulus (st : Stimulus) : Beside s d n (runStimulus st s) (runStimulus st (s.withDiag d n)) := by
  unfold runStimulus runFromHost
  simp only [State.withDiag_params]
  split
  · split
    · exact rfl
    · exact beside_exec _
  · exact rfl

theorem beside_onStimulus (st : Stimulus) : Beside s d n (onStimulus st s) (onStimulus st (s.withDiag d n)) := by
  unfold onStimulus stepInWaitRx stepInWaitTx
  simp only [State.withDiag_phase]
  split
  · split
    · exact sameEvents_of_emit [] rfl rfl rfl
    · exact beside_runStimulus st
  · split
    · exact sameEvents_of_emit [] rfl rfl rfl
    · exact sameEvents_of_emit [.writeError] rfl rfl rfl
    · exact beside_runStimulus st
  · exact beside_runStimulus st

theorem beside_step : Beside s d n (step s) (step (s.withDiag d n)) := by
  unfold step stepBody
  simp only [State.withDiag_host]
  split
  · exact rfl
  · exact beside_onStimulus (s := s.taken _) _

end Sys2Proof.Machine

open Sys2Proof Sys2Proof.Machine

/-- Settles O57: the second state is the first with another record and another counter, which no step reads. -/
theorem diagnosticsNeverChangeBehaviour : Obligations.DiagnosticsNeverChangeBehaviour := by
  intro s t hquiet
  rw [eq_withDiag_of_quiet_eq hquiet]
  exact beside_step
end

section
/-! SUPPORT. Construction, the parameters and the delivery of an overlong frame (70_reset_and_hazards.md R240, R244,
R246). -/

namespace Sys2Proof.Machine

/-- Construction leaves every entry free (R240). -/
theorem valid_of_mem_construct_cam {p : Params} {e : CamEntry} (h : e ∈ (State.construct p).cam) : e.valid = false := by
  obtain ⟨i, -, rfl⟩ := List.mem_map.1 h
  rfl

theorem construct_inv {p : Params} (h : p.ok) : (State.construct p).Inv :=
  ⟨h, freeEntries_inv p.arpCap, ⟨by simp, Nat.zero_le _⟩, rfl, by simp⟩

theorem exec_keeps_params {i : Instr} {s t : State} (h : exec i s = .next t) : t.params = s.params := by
  rcases exec_cases h with ⟨-, -, r, rfl⟩ | ⟨-, hw, ip, m, -, rfl⟩ | ⟨-, f, v, -, -, rfl, -⟩
  · rfl
  · rfl
  · rfl

theorem step_keeps_params {s t : State} (h : step s = .next t) : t.params = s.params := by
  obtain ⟨st, rest, -, ⟨i, -, -, hexec⟩ | ⟨-, -, rfl⟩ | ⟨-, -, rfl⟩ | ⟨-, -, rfl⟩⟩ := step_cases h
  · exact exec_keeps_params (s := s.taken rest) hexec
  · rfl
  · rfl
  · rfl

/-- A frame of a length outside 1..RX_BUF_BYTES decodes to no instruction (R246). -/
theorem decode_rx_of_not_legalLength {p : Params} {f : Bytes} (h : ¬ legalLength p.rxBufBytes f) :
    decode p (.rx f) = .error (.frameLength f.length) := if_neg h

theorem acceptFrame_of_not_legalLength {f : Bytes} {s : State} (hp : s.phase = .waitRx)
    (hl : ¬ legalLength s.params.rxBufBytes f) (o : Host.Outcome State Fault Refusal) :
    acceptFrame f s o = .refused (.frameLength 0x30#8 f.length) := by
  rw [acceptFrame, if_neg (not_not.2 hp), if_neg hl]
  rfl

/-- A frame that is not empty and not of a legal length is refused in every phase (R214, R246). -/
theorem onStimulus_rx_of_not_legalLength {f : Bytes} {s : State} (hpos : 1 ≤ f.length)
    (hl : ¬ legalLength s.params.rxBufBytes f) :
    onStimulus (.rx f) s = .refused (.frameLength 0x30#8 f.length) := by
  rw [onStimulus_rx hpos, runStimulus, decode_rx_of_not_legalLength hl]
  rfl

end Sys2Proof.Machine

open Sys2Proof Sys2Proof.Machine

/-- Settles O5: an instruction ends in one of three updates, a step in an instruction's or one of the sequencer's three
moves, and none of them writes the parameters. -/
theorem parametersNeverChange : Obligations.ParametersNeverChange :=
  ⟨fun _ _ _ => exec_keeps_params, fun _ _ => step_keeps_params⟩

/-- Settles O1: the entries are free, and the rest is what construction writes. -/
theorem constructionGivesResetState : Obligations.ConstructionGivesResetState :=
  ⟨fun _ => ⟨rfl, by simp, fun _ => valid_of_mem_construct_cam, rfl, rfl, rfl, rfl⟩, rfl, rfl⟩

/-- Settles O2: a CAM of free entries meets its invariants, and nothing is held or counted. -/
theorem invariantHoldsAfterConstruction : Obligations.InvariantHoldsAfterConstruction :=
  fun _ => construct_inv

/-- Settles O52: such a frame is not empty, so it is no closure, and both ways in ask for a legal length. -/
theorem overlongFramesAreNotAdmitted : Obligations.OverlongFramesAreNotAdmitted := by
  intro s f rest hlong
  have hl : ¬ legalLength s.params.rxBufBytes f := fun h => absurd h.2 (by omega)
  exact ⟨fun hhost => (step_of_host hhost).trans (onStimulus_rx_of_not_legalLength (by omega) hl),
    fun hp => acceptFrame_of_not_legalLength hp hl _⟩
end

section
/-! SUPPORT. Noninterference of the free CAM entries (70_reset_and_hazards.md R241): what the block reads of a CAM, and
one state beside another whose CAM holds something else in its free entries, through each gate, each instruction and
each step. -/

namespace Sys2Proof.Machine

open Sys2Proof.Claim

/-! Two CAMs that differ at most in their free entries (R150, R152). -/

theorem forall₂_modify {α : Type} {R : α → α → Prop} {g : α → α} (hg : ∀ a b, R a b → R (g a) (g b)) {l l' : List α}
    (h : List.Forall₂ R l l') (i : Nat) : List.Forall₂ R (l.modify i g) (l'.modify i g) := by
  induction h generalizing i with
  | nil => simp
  | cons hab htail ih =>
    cases i with
    | zero => exact .cons (hg _ _ hab) htail
    | succ i => exact .cons hab (ih i)

section Alike

variable {c d : List CamEntry} (h : CamAlike c d)
include h

/-- A function that gives one value `k` on every free entry sees no difference. -/
theorem CamAlike.map_eq {β : Type} {g : CamEntry → β} {k : β} (hfree : ∀ e : CamEntry, e.valid = false → g e = k) :
    c.map g = d.map g := by
  induction h with
  | nil => rfl
  | @cons a b _ _ hab _ ih =>
    obtain ⟨hvalid, hsame⟩ := hab
    have hg : g a = g b := by
      cases hv : a.valid with
      | true => rw [hsame hv]
      | false => rw [hfree a hv, hfree b (hvalid ▸ hv)]
    rw [List.map_cons, List.map_cons, hg, ih]

theorem CamAlike.findIdx?_eq {q : CamEntry → Bool} {k : Bool} (hfree : ∀ e : CamEntry, e.valid = false → q e = k) :
    c.findIdx? q = d.findIdx? q := by
  have hmap := congrArg (List.findIdx? id) (h.map_eq hfree)
  simpa only [List.findIdx?_map, Function.id_comp] using hmap

/-- A lookup compares the addresses of valid entries only (R152). -/
theorem CamAlike.camLookup_eq (ip : Ip) : camLookup c ip = camLookup d ip := by
  rw [camLookup_eq_firstAnswer, camLookup_eq_firstAnswer, h.map_eq fun e => CamEntry.answer_of_free]

/-- An upsert returns the same and writes the same entry (R150). -/
theorem CamAlike.camUpsert_alike (hw : Half) (ip : Ip) (m : Mac) :
    (camUpsert c hw ip m).1 = (camUpsert d hw ip m).1 ∧
    CamAlike (camUpsert c hw ip m).2 (camUpsert d hw ip m).2 := by
  have hkey : c.findIdx? (CamEntry.hasKey hw ip) = d.findIdx? (CamEntry.hasKey hw ip) :=
    h.findIdx?_eq fun e he => hasKey_eq_false_iff.2 (by simp [he])
  have hfree : c.findIdx? CamEntry.isFree = d.findIdx? CamEntry.isFree :=
    h.findIdx?_eq fun e => isFree_iff.2
  unfold camUpsert
  rw [hkey, hfree]
  split
  · exact ⟨rfl, forall₂_modify (fun a b ⟨hv, hsame⟩ => ⟨hv, fun ha => congrArg _ (hsame ha)⟩) h _⟩
  · split
    · rw [List.set_eq_modify, List.set_eq_modify]
      exact ⟨rfl, forall₂_modify (fun _ _ _ => ⟨rfl, fun _ => rfl⟩) h _⟩
    · exact ⟨rfl, h⟩

/-- The verdict on a frame takes from the CAM a lookup or an upsert, or hands the CAM on (R175, R189, R200). -/
theorem CamAlike.classVerdict_alike (p : Params) (f : Bytes) (k : FrameClass) :
    (classVerdict p c f k).reply = (classVerdict p d f k).reply ∧
    (classVerdict p c f k).diags = (classVerdict p d f k).diags ∧
    CamAlike (classVerdict p c f k).cam (classVerdict p d f k).cam := by
  obtain ⟨hreturn, hcam⟩ := h.camUpsert_alike 1#16 (rd32 f 28) (rd48 f 22)
  cases k
  case arpRequest | arpReply | rarpRequest | rarpReply => exact ⟨rfl, congrArg upsertDiags hreturn, hcam⟩
  case echoRequest => exact ⟨congrArg (Option.map _) (h.camLookup_eq _), rfl, h⟩
  all_goals exact ⟨rfl, rfl, h⟩

end Alike

/-! The same state with another CAM. -/

/-- The state with this CAM. -/
def State.withCam (d : List CamEntry) (s : State) : State := { s with cam := d }

@[simp] theorem State.withCam_params (d : List CamEntry) (s : State) : (s.withCam d).params = s.params := rfl
@[simp] theorem State.withCam_cam (d : List CamEntry) (s : State) : (s.withCam d).cam = d := rfl
@[simp] theorem State.withCam_phase (d : List CamEntry) (s : State) : (s.withCam d).phase = s.phase := rfl
@[simp] theorem State.withCam_host (d : List CamEntry) (s : State) : (s.withCam d).host = s.host := rfl

theorem eq_withCam_of_alike {s t : State} (h : s.AlikeButFreeEntries t) : t = s.withCam t.cam := by
  obtain ⟨hrest, -⟩ := h
  cases s
  cases t
  cases hrest
  rfl

section Alike

variable {s : State} {d : List CamEntry}

theorem endFrame_alike {v w : Verdict} (hreply : v.reply = w.reply) (hdiags : v.diags = w.diags)
    (hcam : CamAlike v.cam w.cam) : (s.endFrame v).AlikeButFreeEntries ((s.withCam d).endFrame w) := by
  cases v
  cases w
  cases hreply
  cases hdiags
  exact ⟨rfl, hcam⟩

/-- Two outcomes that agree up to the free entries of the CAM. -/
abbrev OutcomeAlike : Host.Outcome State Fault Refusal → Host.Outcome State Fault Refusal → Prop :=
  SameOutcome State.AlikeButFreeEntries

/-! The gates read the phase, the parameters and the frame (R155, R170). -/

theorem outcomeAlike_testAccess (code : Byte) {a b : State} (h : a.AlikeButFreeEntries b) :
    OutcomeAlike (testAccess code s a) (testAccess code (s.withCam d) b) := by
  unfold testAccess
  simp only [State.withCam_phase]
  split
  · exact rfl
  · exact h
  · exact h

theorem outcomeAlike_duringDispatch (code : Byte) {a b : State} (h : a.AlikeButFreeEntries b) :
    OutcomeAlike (duringDispatch code s a) (duringDispatch code (s.withCam d) b) := by
  unfold duringDispatch
  simp only [State.withCam_phase]
  split
  · exact h
  · exact rfl
  · exact rfl

theorem outcomeAlike_ite {p : Prop} [Decidable p] {x x' y y' : Host.Outcome State Fault Refusal}
    (hx : OutcomeAlike x x') (hy : OutcomeAlike y y') :
    OutcomeAlike (if p then x else y) (if p then x' else y') := by
  split
  · exact hx
  · exact hy

theorem outcomeAlike_acceptFrame {f : Bytes} {x y : Host.Outcome State Fault Refusal} (h : OutcomeAlike x y) :
    OutcomeAlike (acceptFrame f s x) (acceptFrame f (s.withCam d) y) :=
  outcomeAlike_ite rfl (outcomeAlike_ite h rfl)

/-! Every instruction leaves the state by one of the gates, and every step is an instruction or a move of the
sequencer (R193 to R197). -/

variable (h : CamAlike s.cam d)
include h

theorem endFrame_classVerdict_alike (f : Bytes) (k : FrameClass) :
    (s.endFrame (classVerdict s.params s.cam f k)).AlikeButFreeEntries
      ((s.withCam d).endFrame (classVerdict s.params d f k)) := by
  obtain ⟨hreply, hdiags, hcam⟩ := h.classVerdict_alike s.params f k
  exact endFrame_alike hreply hdiags hcam

theorem outcomeAlike_exec (i : Instr) : OutcomeAlike (exec i s) (exec i (s.withCam d)) := by
  cases hcode : codeOf i with
  | none =>
    obtain ⟨k, f, rfl⟩ := eq_instrOfClass_of_codeOf_none hcode
    rw [exec_instrOfClass, exec_instrOfClass]
    exact outcomeAlike_acceptFrame (outcomeAlike_ite (endFrame_classVerdict_alike h f k) rfl)
  | some code =>
    cases i
    case csum | ethDec | ethEnc | arphDec | arphEnc | arppDec | arppEnc | ip4Dec | ip4Enc | icmpDec | icmpEnc |
        echoDec | echoEnc => exact outcomeAlike_testAccess _ ⟨rfl, h⟩
    case camLookup ip =>
      show OutcomeAlike (returns _ (lookupReturn (camLookup s.cam ip)) s)
        (returns _ (lookupReturn (camLookup d ip)) (s.withCam d))
      rw [h.camLookup_eq]
      exact outcomeAlike_testAccess _ ⟨rfl, h⟩
    case camUpsert hw ip m =>
      obtain ⟨hreturn, hcam⟩ := h.camUpsert_alike (HwType.wire hw) ip m
      refine outcomeAlike_duringDispatch _ ⟨?_, hcam⟩
      rw [hreturn]
      rfl
    case dispatch f =>
      refine outcomeAlike_acceptFrame ?_
      rw [dispatchFrame_eq_classVerdict, dispatchFrame_eq_classVerdict]
      exact endFrame_classVerdict_alike h f _
    all_goals cases hcode

theorem outcomeAlike_runStimulus (st : Stimulus) : OutcomeAlike (runStimulus st s) (runStimulus st (s.withCam d)) := by
  unfold runStimulus runFromHost
  simp only [State.withCam_params]
  split
  · split
    · exact rfl
    · exact outcomeAlike_exec h _
  · exact rfl

theorem outcomeAlike_onStimulus (st : Stimulus) : OutcomeAlike (onStimulus st s) (onStimulus st (s.withCam d)) := by
  have hrun := outcomeAlike_runStimulus h st
  unfold onStimulus stepInWaitRx stepInWaitTx
  simp only [State.withCam_phase]
  split
  · split
    · exact ⟨rfl, h⟩
    · exact hrun
  · split
    · exact ⟨rfl, h⟩
    · exact ⟨rfl, h⟩
    · exact hrun
  · exact hrun

theorem outcomeAlike_step : OutcomeAlike (step s) (step (s.withCam d)) := by
  unfold step stepBody
  simp only [State.withCam_host]
  split
  · exact rfl
  · next st rest _ => exact outcomeAlike_onStimulus (s := s.taken rest) h st

end Alike

end Sys2Proof.Machine

open Sys2Proof Sys2Proof.Machine

/-- Settles O58: the second state is the first with another CAM, of which a lookup and an upsert read the valid entries
and which entries are free. -/
theorem freeEntriesAreNeverRead : Obligations.FreeEntriesAreNeverRead := by
  intro s t halike
  rw [eq_withCam_of_alike halike]
  exact outcomeAlike_step halike.2
end
